-- ==== Sys2Proof/Word.lean ====
section
/-! DEFINITION. The widths of the block (00_scope.md R6, R8) and a latch that may hold no value (10_state.md R28). -/

namespace Sys2Proof

/-- `u8`: a byte that crosses the wire, and a register address (`ADDR_W`). -/
abbrev Byte := BitVec 8

/-- `u16`: a half of a slot (`HALF_W`). -/
abbrev HalfWord := BitVec 16

/-- `u32`: a register slot (`REG_W`). -/
abbrev Word := BitVec 32

/-- `u48`: a command word (30_encoding.md R50). -/
abbrev CommandWord := BitVec 48

/-- A latch of `w` bits.  `nv` is the spec's own value "holds no value" (10_state.md R27, R28; written `nv` in
95_test_vectors.md): the reset value of `OP`, `ADDR`, `WDATA`, `RXACC` and `RDATA`, which the model must not
replace by a number. -/
inductive Latch (w : Nat) where
  | nv
  | val (v : BitVec w)
  deriving DecidableEq, Repr

end Sys2Proof
end

