-- ==== Sys2Proof/Config.lean ====
section
/-! DEFINITION. What the spec leaves to the environment: free values and the parameters `CLK_HZ`, `CPOL`, `CPHA` and
`N_INST` (00_scope.md R7).  Every constant here has no body, so a claim holds whatever it is. -/

namespace Sys2Proof

/-- The `n`-th byte the environment draws under no law (00_scope.md R8 `draw`, 20_memory.md R44): what an exchange
receives where no answer is lined up, and what an aborted write leaves (log 5, log 12). -/
opaque Config.deviceByte : Nat → Byte

/-- The power-up content of register byte `cell` of the reference device of instance `k`, which the spec does not give
(70_reset_and_hazards.md R164; log 11). -/
opaque Config.powerUpByte (k cell : Nat) : Byte

/-- The `n`-th choice of the arbiter, where none is lined up: the instance it would give a free bus to
(60_exceptions.md R154 fixes no order and no fairness; log 27). -/
opaque Config.arbiter : Nat → Nat

/-- The parameter `CLK_HZ` of instance `k`, less one: `CLK_HZ` is any positive integer (00_scope.md R7; log 7). -/
opaque Config.clkHzLessOne : Nat → Nat

/-- The parameter `CPOL` of instance `k` (00_scope.md R7; log 7). -/
opaque Config.cpol : Nat → Bool

/-- The parameter `CPHA` of instance `k` (00_scope.md R7; log 7). -/
opaque Config.cpha : Nat → Bool

/-- The parameter `CLK_HZ` of instance `k`. -/
def Config.clkHz (k : Nat) : Nat := Config.clkHzLessOne k + 1

/-- How many instances share the bus besides the first (00_scope.md R7 `N_INST`; log 8). -/
opaque Config.otherInstances : Nat

/-- The parameter `N_INST`: any number from 1 (00_scope.md R7, 60_exceptions.md R153). -/
def Config.nInst : Nat := Config.otherInstances + 1

end Sys2Proof
end

