-- ==== Sys2Proof/Syntax.lean ====
section
/-! DEFINITION. The five commands (30_encoding.md R51), one constructor per row of the opcode table. -/

namespace Sys2Proof

/-- A decoded command.  `a` is the register address; `v` the payload, which `WR32` alone uses (30_encoding.md R53). -/
inductive Instr where
  /-- `RD32 a`: read the whole slot (41_read.md R91). -/
  | rd32 (a : Byte)
  /-- `WR32 a, v`: write a configuration register (42_write.md R101). -/
  | wr32 (a : Byte) (v : Word)
  /-- `RD16H a`: read the first half of the slot (41_read.md R92). -/
  | rd16h (a : Byte)
  /-- `WRCMD a`: trigger a device-side action (42_write.md R102). -/
  | wrcmd (a : Byte)
  /-- `RD16L a`: read the second half of the slot (41_read.md R93). -/
  | rd16l (a : Byte)
  deriving DecidableEq, Repr

/-- The one operand every command has: its register address (41_read.md R96). -/
def Instr.addr : Instr → Byte
  | .rd32 a | .wr32 a _ | .rd16h a | .wrcmd a | .rd16l a => a

end Sys2Proof
end

