-- ==== Sys2Proof/Machine/State.lean ====
section
/-! DEFINITION. The state of one physical bus with its engine instances, as plain data: every element of 10_state.md
R11 to R24 per instance, the shared bus owner, the trace, the device behind each instance, and what the model itself
adds (the moves still to come, the counter of the free values). -/

namespace Sys2Proof.Machine

/-- `PHASE` (10_state.md R14). -/
inductive Phase where
  | idle | acquire | select | exch | gap | deselect | release
  deriving DecidableEq, Repr

/-- The cause codes of a rejection (60_exceptions.md R143). -/
inductive Cause where
  | none | illegalFunc | illegalAddr | illegalAccess
  deriving DecidableEq, Repr

/-- The role of an exchange within a frame (30_encoding.md R57). -/
inductive Role where
  | opc | adr | data | fill | pay
  deriving DecidableEq, Repr

/-- `BUSCFG.BITORDER`, hardwired (10_state.md R23). -/
inductive BitOrder where
  | msbFirst
  deriving DecidableEq, Repr

/-- `BUSCFG` (10_state.md R23): what `BeginScope` passes to the transport. -/
structure BusCfg where
  clkHz    : Nat
  bitOrder : BitOrder
  cpol     : Bool
  cpha     : Bool
  deriving DecidableEq, Repr

/-- The externally visible actions of an instance (40_transaction_sequence.md R70). -/
inductive Event where
  | beginScope (cfg : BusCfg)
  | csLow
  | xfer (i : Nat) (role : Role) (tx rx : Byte)
  | gap
  | csHigh
  | endScope
  deriving DecidableEq, Repr

/-- The state elements of one engine instance (10_state.md R10 to R23).  `csN = true` is `CS_N = 1`, deasserted. -/
structure Engine where
  op     : Latch 3
  addr   : Latch 8
  wdata  : Latch 32
  rxacc  : Latch 32
  rdata  : Latch 32
  phase  : Phase
  idx    : BitVec 3
  csN    : Bool
  busy   : Bool
  done   : Bool
  err    : Bool
  cause  : Cause
  busCfg : BusCfg
  deriving DecidableEq, Repr

/-- The latches that may hold no value (10_state.md R28). -/
inductive LatchName where
  | op | addr | wdata | rxacc | rdata
  deriving DecidableEq, Repr

/-- Register bytes of a device: key `4 * slot + j` holds byte `j` of the slot in wire order (20_memory.md R30, R36);
keys strictly rising. -/
abbrev Memory := List Host.Cell

/-- The transport and the device of one instance (20_memory.md R44 to R46).  Environment, not engine. -/
structure Device where
  /-- the device is the reference device of R46 (the premise `DeviceConforms`), not an unconstrained oracle -/
  reference   : Bool
  /-- the reference device's answer to a read of a command register: `FW_ID`, or a draw (log 23) -/
  fwId        : Option Word
  /-- what the reference device's configuration registers are known to hold -/
  regs        : Memory
  /-- the bytes the device has taken since select went low: its pointer into the current frame (R45) -/
  frame       : List Byte
  /-- the pointer is undefined until the next clean transaction (R45) -/
  pointerLost : Bool
  /-- the draws lined up as inputs, first one first -/
  answers     : List Byte
  /-- how many more exchanges the transport answers this instance; `none` is no limit (R81, R146).  R152 speaks of one bus
  transport and no rule says whether it goes on answering the other instances where it has stopped answering one: that each
  instance has a count of its own, so that it may, is the model's choice (log 6) -/
  answersLeft : Option Nat
  deriving DecidableEq, Repr

/-- The answer to a submitted command word (40_transaction_sequence.md R72, 60_exceptions.md R142). -/
inductive Verdict where
  | accepted
  | rejected
  deriving DecidableEq, Repr

/-- What the host has from a read of a register at its port (10_state.md R26), or from the wait for a result. -/
inductive Reply where
  | rdata (v : Word)
  | status (v : Byte)
  | cause (v : BitVec 2)
  | busCfg (v : BusCfg)
  /-- the command the host waited for delivered nothing: it was rejected, or a reset ended it (log 24) -/
  | noResult
  deriving DecidableEq, Repr

/-- One instance with its device and what its host knows of it. -/
structure Node where
  eng     : Engine
  dev     : Device
  /-- the answer to the last command word submitted; `none` before the first (40_transaction_sequence.md R89; log 20) -/
  verdict : Option Verdict
  /-- the host's copies: what it has read from the registers, oldest first (41_read.md R95; log 20) -/
  replies : List Reply
  deriving DecidableEq, Repr

/-- What an agent does (40_transaction_sequence.md R88): a host action of 10_state.md R26, a step of the instance, or
its reset.  `call` is the source's blocking call: `Submit` and then nobody else moves until it has been answered.
`collect` is what a host that follows the source's model does for its result: it waits until its command has ended, then
reads `RDATA` (40_transaction_sequence.md R82). -/
inductive Act where
  | call (cw : CommandWord)
  | submit (cw : CommandWord)
  | tick
  | reset
  | readRdata
  | collect
  | readStatus
  | readCause
  | readBusCfg
  | writeClkHz (hz : Nat)
  | writeCpol (b : Bool)
  | writeCpha (b : Bool)
  deriving DecidableEq, Repr

/-- A move: which instance it concerns and what happens. -/
structure Move where
  who : Nat
  act : Act
  deriving DecidableEq, Repr

/-- One physical bus. -/
structure State where
  /-- the instances; an instance's identifier is its place in the list (60_exceptions.md R153) -/
  insts    : List Node
  /-- `BUS_OWNER` (10_state.md R24); `none` is `FREE` -/
  busOwner : Option Nat
  /-- `TRACE`, merged for the bus: each event with its instance, oldest first (10_state.md R25) -/
  trace    : List (Nat × Event)
  /-- the model's own: how many free values have been drawn -/
  draws    : Nat
  /-- the model's own: the instance the last move concerned; `exec` submits its command at this instance's host port -/
  port     : Nat
  /-- the model's own: the moves of the agents still to come, next one first -/
  agenda   : List Move
  /-- the model's own: the choices of the bus arbiter lined up as inputs, next one first (60_exceptions.md R154) -/
  choices  : List Nat
  /-- the model's own: how many choices of the arbiter have been free values -/
  chosen   : Nat
  deriving DecidableEq, Repr

/-- The faults of the model. -/
inductive Fault where
  /-- A read of an element that holds no value (10_state.md R28).  Raised by the host's read of `RDATA` before the first
  completed read, and by a step in a state no run reaches.  Safe: the spec asks for this fault. -/
  | noValue (l : LatchName)
  /-- A move names an instance that is not on the bus.  Raised by every operation on an instance.  Safe: no such
  instance exists, so nothing could happen. -/
  | noSuchInstance (k : Nat)
  /-- An exchange or gap step whose precondition on `IDX` or `OP` fails (40_transaction_sequence.md R75, R76): the
  spec gives the state no step.  Raised only in states no run reaches.  Safe. -/
  | brokenSequencer
  deriving DecidableEq, Repr

/-- The refusals of the model. -/
inductive Refusal where
  /-- An arm of `exec` that has no meaning yet.  Safe. -/
  | notModelled (mnemonic : String)
  /-- The host writes a `CLK_HZ` that is not positive, which 10_state.md R23 does not allow and gives no effect.  Raised
  by the host's write.  Safe. -/
  | clockNotPositive
  /-- `SETMISC` where no instance of the parameter `PACK_MISC` is given (93_implementation_defined.md U5).  Raised by the
  expansion of the named operation.  Safe: the spec asks for this refusal. -/
  | noMiscTable
  deriving DecidableEq, Repr

/-- The outcome of a step of this machine. -/
abbrev Result := Host.Outcome State Fault Refusal

/-- The parameter values `BUSCFG` of instance `k` holds at reset (10_state.md R27). -/
def BusCfg.reset (k : Nat) : BusCfg :=
  { clkHz := Config.clkHz k, bitOrder := .msbFirst, cpol := Config.cpol k, cpha := Config.cpha k }

/-- Every element of instance `k` at its reset value (10_state.md R27). -/
def Engine.reset (k : Nat) : Engine :=
  { op := .nv, addr := .nv, wdata := .nv, rxacc := .nv, rdata := .nv, phase := .idle, idx := 0#3, csN := true,
    busy := false, done := false, err := false, cause := .none, busCfg := BusCfg.reset k }

/-- An oracle that answers every exchange with a free value (20_memory.md R44; log 5, log 6, log 10). -/
def Device.oracle : Device :=
  { reference := false, fwId := none, regs := [], frame := [], pointerLost := false, answers := [],
    answersLeft := none }

/-- Instance `k` in its reset state, its host answered nothing yet. -/
def Node.reset (k : Nat) : Node := { eng := Engine.reset k, dev := Device.oracle, verdict := none, replies := [] }

/-- `n` instances in their reset state, the first with the identifier `k`. -/
def Node.resetFrom (k : Nat) : Nat → List Node
  | 0 => []
  | n + 1 => Node.reset k :: Node.resetFrom (k + 1) n

/-- A bus with `n` instances, each in its reset state (60_exceptions.md R153). -/
def State.resetOf (n : Nat) : State :=
  { insts := Node.resetFrom 0 n, busOwner := none, trace := [], draws := 0, port := 0, agenda := [],
    choices := [], chosen := 0 }

/-- The machine right after reset (10_state.md R27): `N_INST` instances waiting in `IDLE` for the first `Submit`. -/
def State.reset : State := State.resetOf Config.nInst

end Sys2Proof.Machine
end

