-- ==== Sys2Proof/Machine/Operands.lean ====
section
/-! DEFINITION. The combinational functions inside the block: the address-kind decoder, byte composition and splitting,
the half-select multiplexer, the byte sent and the role of each exchange, and the acceptance check. -/

namespace Sys2Proof.Machine

/-! ### Constants (00_scope.md R6) -/

/-- `OPC_READ`. -/
def opcRead : Byte := 0x00#8

/-- `OPC_WRITE`. -/
def opcWrite : Byte := 0x01#8

/-- `FILL`: the byte of a filler exchange, and of a read's kept exchanges (30_encoding.md R56; log 21). -/
def fillByte : Byte := 0x00#8

/-- `FRAME_LEN`: the byte exchanges of every transaction. -/
def frameLen : Nat := 6

/-! ### The address map (20_memory.md R33) -/

/-- `KIND`: the class of a register address. -/
inductive Kind where
  | config | data | command | none
  deriving DecidableEq, Repr

/-- The address-kind decoder. -/
def kindOf (a : Byte) : Kind :=
  if 0x00#8 ≤ a ∧ a ≤ 0x26#8 then .config
  else if 0x55#8 ≤ a ∧ a ≤ 0x8B#8 then .data
  else if 0xAA#8 ≤ a ∧ a ≤ 0xB3#8 then .command
  else .none

/-! ### Composition and splitting (43_compose_decode.md R110 to R113) -/

/-- `BE16(bh, bl)`; `bh` crossed the wire first. -/
def be16 (bh bl : Byte) : HalfWord := bh ++ bl

/-- `BE32(b3, b2, b1, b0)`, bytes in wire order. -/
def be32 (b3 b2 b1 b0 : Byte) : Word := b3 ++ b2 ++ b1 ++ b0

/-- The half-select input. -/
inductive HalfSel where
  | high | low
  deriving DecidableEq, Repr

/-- `HALF(w, s)`, the half-select multiplexer. -/
def half (w : Word) : HalfSel → HalfWord
  | .high => w.extractLsb' 16 16
  | .low => w.extractLsb' 0 16

/-- Byte `j` of a slot in wire order: bits 31:24 for 0, down to bits 7:0 for 3 (20_memory.md R36). -/
def wireByte (v : Word) (j : Nat) : Byte := v.extractLsb' (24 - 8 * j) 8

/-- `SPLIT32(v)`: the payload bytes in wire order. -/
def split32 (v : Word) : Byte × Byte × Byte × Byte := (wireByte v 0, wireByte v 1, wireByte v 2, wireByte v 3)

/-- `sext_32` of a half. -/
def sext32 (h : HalfWord) : Word := h.signExtend 32

/-- `RXACC[23:0] ‖ rx` (40_transaction_sequence.md R86). -/
def shiftIn (acc : Word) (rx : Byte) : Word := acc.extractLsb' 0 24 ++ rx

/-! ### The function bits (30_encoding.md R52) -/

/-- `OP[0]`: a write. -/
def isWrite (op : BitVec 3) : Bool := op.getLsbD 0

/-- The wire opcode byte, `zext_8(OP[0])`. -/
def wireOpcode (op : BitVec 3) : Byte := if isWrite op then opcWrite else opcRead

/-- `TXBYTE` (30_encoding.md R56); none outside the frame. -/
def txByte (op : BitVec 3) (a : Byte) (wd : Word) (i : Nat) : Option Byte :=
  match i with
  | 0 => some (wireOpcode op)
  | 1 => some a
  | 2 => some (if isWrite op then wireByte wd 0 else fillByte)
  | 3 => some (if isWrite op then wireByte wd 1 else fillByte)
  | 4 => some (if isWrite op then wireByte wd 2 else fillByte)
  | 5 => some (if isWrite op then wireByte wd 3 else fillByte)
  | _ => none

/-- The role of data exchange `j` (0 to 3) of a command (30_encoding.md R57); none for an `OP` no command latches. -/
def dataRole (op : BitVec 3) (j : Nat) : Option Role :=
  if op = 0b000#3 then some .data
  else if op = 0b010#3 then some (if j < 2 then .data else .fill)
  else if op = 0b110#3 then some (if j < 2 then .fill else .data)
  else if op = 0b001#3 ∨ op = 0b011#3 then some .pay
  else none

/-- `ROLE` (30_encoding.md R57); none outside the frame. -/
def roleOf (op : BitVec 3) (i : Nat) : Option Role :=
  match i with
  | 0 => some .opc
  | 1 => some .adr
  | 2 => dataRole op 0
  | 3 => dataRole op 1
  | 4 => dataRole op 2
  | 5 => dataRole op 3
  | _ => none

/-! ### What a command latches and whether it is accepted -/

/-- What the accept step latches for a command, and the cause that would reject it (40_transaction_sequence.md R72). -/
structure Order where
  op    : BitVec 3
  addr  : Byte
  wdata : Word
  cause : Cause
  deriving DecidableEq, Repr

/-- The acceptance check of a read: any mapped register (60_exceptions.md R141). -/
def checkRead (a : Byte) : Cause := if kindOf a = .none then .illegalAddr else .none

/-- The acceptance check of a write that may address registers of kind `k` only (60_exceptions.md R141). -/
def checkWrite (k : Kind) (a : Byte) : Cause :=
  if kindOf a = .none then .illegalAddr else if kindOf a = k then .none else .illegalAccess

/-- `RD32 a` (41_read.md R91). -/
def orderRd32 (a : Byte) : Order := { op := 0b000#3, addr := a, wdata := 0#32, cause := checkRead a }

/-- `WR32 a, v` (42_write.md R101). -/
def orderWr32 (a : Byte) (v : Word) : Order := { op := 0b001#3, addr := a, wdata := v, cause := checkWrite .config a }

/-- `RD16H a` (41_read.md R92). -/
def orderRd16h (a : Byte) : Order := { op := 0b010#3, addr := a, wdata := 0#32, cause := checkRead a }

/-- `WRCMD a`: the payload is zero whatever the data field holds (42_write.md R102). -/
def orderWrcmd (a : Byte) : Order := { op := 0b011#3, addr := a, wdata := 0#32, cause := checkWrite .command a }

/-- `RD16L a` (41_read.md R93). -/
def orderRd16l (a : Byte) : Order := { op := 0b110#3, addr := a, wdata := 0#32, cause := checkRead a }

/-- What a decoded command latches. -/
def commandOrder : Instr → Order
  | .rd32 a => orderRd32 a
  | .wr32 a v => orderWr32 a v
  | .rd16h a => orderRd16h a
  | .wrcmd a => orderWrcmd a
  | .rd16l a => orderRd16l a

/-- `Check(c)` of a decoded command (60_exceptions.md R141, R144). -/
def check (i : Instr) : Cause := (commandOrder i).cause

/-- What the release step makes of `RXACC` for a read (40_transaction_sequence.md R78). -/
def readResult (op : BitVec 3) (acc : Word) : Word :=
  if op = 0b000#3 then acc else sext32 (half acc .low)

end Sys2Proof.Machine
end

