-- ==== Sys2Proof/Machine/Memory.lean ====
section
/-! DEFINITION. The register bytes of the reference device (20_memory.md R30, R46) as a canonical list. -/

namespace Sys2Proof.Machine

/-- What an unlisted register byte has as its recorded content: none (log 11). -/
def Memory.unlisted : Option Byte := none

/-- The recorded content of a register byte. -/
def Memory.read : Memory → Nat → Option Byte
  | [], _ => Memory.unlisted
  | (k, b) :: m, a => if k = a then some b else Memory.read m a

/-- Record the content of one register byte. -/
def Memory.write : Memory → Nat → Byte → Memory
  | [], a, b => [(a, b)]
  | (k, c) :: m, a, b =>
    if a < k then (a, b) :: (k, c) :: m
    else if a = k then (a, b) :: m
    else (k, c) :: Memory.write m a b

/-- Every key of the list is above `lo`, and the keys strictly rise. -/
def Memory.risingFrom : Option Nat → Memory → Bool
  | _, [] => true
  | none, (k, _) :: m => Memory.risingFrom (some k) m
  | some lo, (k, _) :: m => decide (lo < k) && Memory.risingFrom (some k) m

/-- The canonical form: keys strictly rising.  An unlisted byte has no recorded content, so no entry equals it. -/
def Memory.wf (m : Memory) : Bool := Memory.risingFrom none m

/-- The key of byte `j` (in wire order) of slot `a`. -/
def cellKey (a : Byte) (j : Nat) : Nat := 4 * a.toNat + j

/-- Record four bytes, in wire order, as the content of slot `a`. -/
def Memory.writeSlot (m : Memory) (a b3 b2 b1 b0 : Byte) : Memory :=
  (((m.write (cellKey a 0) b3).write (cellKey a 1) b2).write (cellKey a 2) b1).write (cellKey a 3) b0

/-- The byte the reference device of instance `k` holds: what was recorded, else its power-up content (log 11). -/
def Memory.content (m : Memory) (k cell : Nat) : Byte := (m.read cell).getD (Config.powerUpByte k cell)

end Sys2Proof.Machine
end

