-- ==== Sys2Proof/Machine/Device.lean ====
section
/-! DEFINITION. The transport and the device as the engine meets them: the answer to one exchange (20_memory.md R44),
the frame pointer (R45) and the reference device (R46). -/

namespace Sys2Proof.Machine

/-- What an exchange gives: the byte received, the device after it, and the counter of the free values after it. -/
structure Answer where
  rx    : Byte
  dev   : Device
  draws : Nat
  deriving DecidableEq, Repr

/-- The transport answers the next exchange of this instance (40_transaction_sequence.md R75, R81); what it answers another
instance on the bus is counted there, which the spec leaves open: the model's choice (log 6). -/
def Device.canAnswer (d : Device) : Bool := d.answersLeft != some 0

/-- One exchange of the transport's patience is used up. -/
def Device.spend (d : Device) : Device := { d with answersLeft := d.answersLeft.map (· - 1) }

/-- A draw (00_scope.md R8): the next answer lined up, else the next free value. -/
def Device.draw (d : Device) (draws : Nat) : Answer :=
  match d.answers with
  | b :: bs => { rx := b, dev := { d with answers := bs }, draws := draws }
  | [] => { rx := Config.deviceByte draws, dev := d, draws := draws + 1 }

/-- The byte the reference device of instance `k` answers in the exchange that follows the bytes `frame`, where R46
fixes it: a read frame's data exchanges at a configuration register, or at a command register where `FW_ID` is given.
None is a draw; after an abort every byte is a draw (20_memory.md R45).  That a given `FW_ID` is answered at all ten
command addresses, where R134 asks for it at the firmware query alone, is the model's choice (log 23). -/
def Device.fixedAnswer (k : Nat) (d : Device) : Option Byte :=
  if d.reference && !d.pointerLost then
    match d.frame with
    | op :: a :: taken =>
      if op = opcRead ∧ taken.length < 4 then
        match kindOf a with
        | .config => some (d.regs.content k (cellKey a taken.length))
        | .command => d.fwId.map (wireByte · taken.length)
        | .data => none
        | .none => none
      else none
    | _ => none
  else none

/-- The device takes byte `tx`; a write frame to a configuration register of the reference device takes effect with
its sixth byte (20_memory.md R46). -/
def Device.take (d : Device) (tx : Byte) : Device :=
  let frame := d.frame ++ [tx]
  match frame with
  | [op, a, b3, b2, b1, b0] =>
    if d.reference ∧ op = opcWrite ∧ kindOf a = .config then
      { d with frame := frame, regs := d.regs.writeSlot a b3 b2 b1 b0 }
    else { d with frame := frame }
  | _ => { d with frame := frame }

/-- One exchange with the device of instance `k`. -/
def Device.exchange (k : Nat) (d : Device) (tx : Byte) (draws : Nat) : Answer :=
  match d.fixedAnswer k with
  | some b => { rx := b, dev := (d.take tx).spend, draws := draws }
  | none =>
    let r := d.draw draws
    { r with dev := (r.dev.take tx).spend }

/-- Select goes low: a new frame begins. -/
def Device.selected (d : Device) : Device := { d with frame := [] }

/-- Select goes high at the end of a transaction: six exchanges made it clean, which restores the pointer
(20_memory.md R45; log 13). -/
def Device.deselected (d : Device) : Device :=
  { d with frame := [], pointerLost := d.pointerLost && d.frame.length != frameLen }

/-- Select goes high in mid-transaction: the pointer is undefined until the next clean transaction, and the register an
aborted write of the reference device addresses holds any value (20_memory.md R45, 70_reset_and_hazards.md R162;
log 12).  A transport that has stopped answering stays silent after the reset, which the spec leaves open: the model's
choice (log 6). -/
def Device.aborted (d : Device) (writeTo : Option Byte) (draws : Nat) : Device × Nat :=
  let d' := { d with frame := [], pointerLost := true }
  match writeTo with
  | none => (d', draws)
  | some a =>
    if d.reference ∧ kindOf a = .config then
      ({ d' with regs := d.regs.writeSlot a (Config.deviceByte draws) (Config.deviceByte (draws + 1))
                  (Config.deviceByte (draws + 2)) (Config.deviceByte (draws + 3)) }, draws + 4)
    else (d', draws)

end Sys2Proof.Machine
end

