-- ==== Sys2Proof/Machine/Flags.lean ====
section
/-! DEFINITION. The flags and the status registers as the host reads them (10_state.md R19 to R23, 60_exceptions.md
R143).  No command sets a carry, zero, overflow or condition code (R22). -/

namespace Sys2Proof.Machine

/-- `cmd_ready`: the host may submit (40_transaction_sequence.md R71). -/
def Engine.cmdReady (e : Engine) : Bool := e.phase = .idle

/-- The code of a cause (60_exceptions.md R143). -/
def causeCode : Cause → BitVec 2
  | .none => 0#2
  | .illegalFunc => 1#2
  | .illegalAddr => 2#2
  | .illegalAccess => 3#2

/-- `STATUS` as the host reads it: `BUSY` bit 0, `DONE` bit 1, `ERR` bit 2, bits 7:3 zero (10_state.md R23). -/
def Engine.statusWord (e : Engine) : Byte :=
  0#5 ++ BitVec.ofBool e.err ++ BitVec.ofBool e.done ++ BitVec.ofBool e.busy

/-- `CAUSE` as the host reads it (10_state.md R22, R23). -/
def Engine.causeWord (e : Engine) : BitVec 2 := causeCode e.cause

end Sys2Proof.Machine
end

