-- ==== Sys2Proof/Machine/Ops.lean ====
section
/-! DEFINITION. The named operations on the state: access to an instance, its trace and its host's port; acceptance of a
command; and the one exception, the rejection (60_exceptions.md R140 to R149). -/

namespace Sys2Proof.Machine

/-- Continue with the next state; a fault or a refusal ends the run. -/
def andThen (r : Result) (f : State → Result) : Result :=
  match r with
  | .next s => f s
  | .fault e => .fault e
  | .refused e => .refused e

/-- Run an operation on instance `k`; an instance that is not on the bus faults. -/
def State.withNode (s : State) (k : Nat) (f : Node → Result) : Result :=
  match s.insts[k]? with
  | some n => f n
  | none => .fault (.noSuchInstance k)

/-- Put instance `k` back. -/
def State.putNode (s : State) (k : Nat) (n : Node) : State := { s with insts := s.insts.set k n }

/-- `emit E` of instance `k` (00_scope.md R8). -/
def State.emit (s : State) (k : Nat) (e : Event) : State := { s with trace := s.trace ++ [(k, e)] }

/-- `BUS_OWNER <- o`. -/
def State.own (s : State) (o : Option Nat) : State := { s with busOwner := o }

/-- The engine of a node. -/
def Node.setEng (n : Node) (e : Engine) : Node := { n with eng := e }

/-- The accept step of an instance (40_transaction_sequence.md R72), after its check has passed. -/
def Engine.accept (e : Engine) (o : Order) : Engine :=
  { e with op := .val o.op, addr := .val o.addr, wdata := .val o.wdata, rxacc := .val 0#32, idx := 0#3,
           busy := true, done := false, phase := .acquire }

/-- `raise Reject(cause)` in an instance (60_exceptions.md R142). -/
def Engine.reject (e : Engine) (c : Cause) : Engine := { e with err := true, cause := c }

/-- Taking the exception: the command is rejected with `c` and its host is answered REJECTED; nothing else changes and
there is nothing to return from (60_exceptions.md R142, R148, R149). -/
def State.reject (s : State) (k : Nat) (n : Node) (c : Cause) : State :=
  s.putNode k { n with eng := n.eng.reject c, verdict := some .rejected }

/-- The command is accepted and its host is answered ACCEPTED (40_transaction_sequence.md R72). -/
def State.accept (s : State) (k : Nat) (n : Node) (o : Order) : State :=
  s.putNode k { n with eng := n.eng.accept o, verdict := some .accepted }

/-- `Submit` of a decoded command at instance `k`: accept or reject in `IDLE`; otherwise it has no step and the host is
held (40_transaction_sequence.md R71, R72). -/
def submit (k : Nat) (o : Order) (s : State) : Result :=
  s.withNode k fun n =>
    if n.eng.phase = .idle then
      if o.cause = .none then .next (s.accept k n o) else .next (s.reject k n o.cause)
    else .next s

/-- `Submit` of a word with a reserved function code (30_encoding.md R59, 60_exceptions.md R141). -/
def submitIllegal (k : Nat) (s : State) : Result :=
  s.withNode k fun n =>
    if n.eng.phase = .idle then .next (s.reject k n .illegalFunc) else .next s

/-- The host of instance `k` reads a register and keeps a copy; nothing else changes (10_state.md R26, 41_read.md R95). -/
def State.answer (s : State) (k : Nat) (n : Node) (r : Reply) : State :=
  s.putNode k { n with replies := n.replies ++ [r] }

end Sys2Proof.Machine
end

