-- ==== Sys2Proof/Machine/Sequencer.lean ====
section
/-! DEFINITION. The steps of a transaction, one per phase (40_transaction_sequence.md R73 to R78), and the blocking call
that runs a whole transaction (R79). -/

namespace Sys2Proof.Machine

/-- Acquire step (R73): not enabled while the bus is owned; the instance waits. -/
def acquireStep (k : Nat) (n : Node) (s : State) : Result :=
  match s.busOwner with
  | some _ => .next s
  | none =>
    .next (((s.putNode k (n.setEng { n.eng with phase := .select })).own (some k)).emit k (.beginScope n.eng.busCfg))

/-- Select step (R74). -/
def selectStep (k : Nat) (n : Node) (s : State) : Result :=
  .next ((s.putNode k { n with eng := { n.eng with csN := false, phase := .exch }, dev := n.dev.selected }).emit k .csLow)

/-- The receive accumulator after an exchange of role `r` (R75, R86). -/
def accumulate (r : Role) (acc : Word) (rx : Byte) : Word := if r = .data then shiftIn acc rx else acc

/-- The exchange of an enabled exchange step, its latches read (R75). -/
def exchangeWith (k : Nat) (n : Node) (s : State) (acc : Word) (role : Role) (tx : Byte) : State :=
  let r := n.dev.exchange k tx s.draws
  let s' := s.putNode k { n with eng := { n.eng with rxacc := .val (accumulate role acc r.rx), phase := .gap }, dev := r.dev }
  { s' with draws := r.draws }.emit k (.xfer n.eng.idx.toNat role tx r.rx)

/-- Exchange step (R75): not enabled while the transport gives no answer; the instance is stuck (R81). -/
def exchangeStep (k : Nat) (n : Node) (s : State) : Result :=
  if n.dev.canAnswer then
    match n.eng.op, n.eng.addr, n.eng.wdata, n.eng.rxacc with
    | .nv, _, _, _ => .fault (.noValue .op)
    | .val _, .nv, _, _ => .fault (.noValue .addr)
    | .val _, .val _, .nv, _ => .fault (.noValue .wdata)
    | .val _, .val _, .val _, .nv => .fault (.noValue .rxacc)
    | .val op, .val a, .val wd, .val acc =>
      match roleOf op n.eng.idx.toNat, txByte op a wd n.eng.idx.toNat with
      | some role, some tx => .next (exchangeWith k n s acc role tx)
      | some _, none => .fault .brokenSequencer
      | none, some _ => .fault .brokenSequencer
      | none, none => .fault .brokenSequencer
  else .next s

/-- Gap step (R76): the delay has elapsed. -/
def gapStep (k : Nat) (n : Node) (s : State) : Result :=
  if n.eng.idx.toNat ≤ 5 then
    .next ((s.putNode k (n.setEng { n.eng with
      idx := n.eng.idx + 1#3, phase := if n.eng.idx.toNat ≤ 4 then .exch else .deselect })).emit k .gap)
  else .fault .brokenSequencer

/-- Deselect step (R77). -/
def deselectStep (k : Nat) (n : Node) (s : State) : Result :=
  .next ((s.putNode k { n with eng := { n.eng with csN := true, phase := .release }, dev := n.dev.deselected }).emit k .csHigh)

/-- An instance after its release step, with `rdata` as its result register (R78). -/
def Engine.released (e : Engine) (rdata : Latch 32) : Engine :=
  { e with rdata := rdata, busy := false, done := true, phase := .idle }

/-- Release step (R78): a read delivers its result, a write leaves `RDATA` as it is. -/
def releaseStep (k : Nat) (n : Node) (s : State) : Result :=
  let finish (rdata : Latch 32) : Result :=
    .next (((s.putNode k (n.setEng (n.eng.released rdata))).own none).emit k .endScope)
  match n.eng.op with
  | .nv => .fault (.noValue .op)
  | .val op =>
    if op = 0b000#3 ∨ op = 0b010#3 ∨ op = 0b110#3 then
      match n.eng.rxacc with
      | .nv => .fault (.noValue .rxacc)
      | .val acc => finish (.val (readResult op acc))
    else finish n.eng.rdata

/-- The step of instance `k` in the phase it is in; in `IDLE` it has none and waits (40_transaction_sequence.md R85). -/
def tick (k : Nat) (s : State) : Result :=
  s.withNode k fun n =>
    match n.eng.phase with
    | .idle => .next s
    | .acquire => acquireStep k n s
    | .select => selectStep k n s
    | .exch => exchangeStep k n s
    | .gap => gapStep k n s
    | .deselect => deselectStep k n s
    | .release => releaseStep k n s

/-- `m` steps of instance `k`, nobody else moving. -/
def ticks (k : Nat) : Nat → State → Result
  | 0, s => .next s
  | m + 1, s => andThen (tick k s) (ticks k m)

/-- The steps of an accepted command after its accept step (40_transaction_sequence.md R79). -/
def stepsAfterAccept : Nat := 16

/-- The source's blocking call at the current host port: `Submit`, then the instance's own steps until it is back in
`IDLE`, or for good where a step is not enabled (40_transaction_sequence.md R79, R81; log 1).  While the instance is
busy the host is held and nothing happens (R71). -/
def callCommand (o : Order) (s : State) : Result :=
  s.withNode s.port fun n =>
    if n.eng.phase = .idle then andThen (submit s.port o s) (ticks s.port stepsAfterAccept) else .next s

end Sys2Proof.Machine
end

