-- ==== Sys2Proof/Machine/Reads.lean ====
section
/-! DEFINITION. The meanings of the read commands (41_read.md). -/

namespace Sys2Proof.Machine

/-- `RD32 a` (R91). -/
def execRd32 (a : Byte) (s : State) : Result := callCommand (orderRd32 a) s

/-- `RD16H a` (R92). -/
def execRd16h (a : Byte) (s : State) : Result := callCommand (orderRd16h a) s

/-- `RD16L a` (R93). -/
def execRd16l (a : Byte) (s : State) : Result := callCommand (orderRd16l a) s

end Sys2Proof.Machine
end

