-- ==== Sys2Proof/Machine/Writes.lean ====
section
/-! DEFINITION. The meanings of the write commands (42_write.md). -/

namespace Sys2Proof.Machine

/-- `WR32 a, v` (R101). -/
def execWr32 (a : Byte) (v : Word) (s : State) : Result := callCommand (orderWr32 a v) s

/-- `WRCMD a` (R102). -/
def execWrcmd (a : Byte) (s : State) : Result := callCommand (orderWrcmd a) s

end Sys2Proof.Machine
end

