-- ==== Sys2Proof/Machine/Dispatch.lean ====
section
/-! DEFINITION. One arm per command. -/

namespace Sys2Proof.Machine

/-- What a decoded command does when its host submits it at the current port and waits for its answer. -/
def exec (i : Instr) (s : State) : Host.Outcome State Fault Refusal :=
  match i with
  | .rd32 a => Sys2Proof.Machine.execRd32 a s
  | .wr32 a v => Sys2Proof.Machine.execWr32 a v s
  | .rd16h a => Sys2Proof.Machine.execRd16h a s
  | .wrcmd a => Sys2Proof.Machine.execWrcmd a s
  | .rd16l a => Sys2Proof.Machine.execRd16l a s

end Sys2Proof.Machine
end

