-- ==== Sys2Proof/Decode.lean ====
section
/-! DEFINITION. The command word: its fields, the decoder (30_encoding.md R50 to R54, R59), and the encoder. -/

namespace Sys2Proof

/-- Why a command word is no command. -/
inductive DecodeError where
  /-- `ILLEGAL(f)`: the function code `f` is reserved (30_encoding.md R54, R59). -/
  | illegalFunc (f : Byte)
  deriving DecidableEq, Repr

/-- `cw[47:40]`. -/
def funcField (cw : CommandWord) : Byte := cw.extractLsb' 40 8

/-- `cw[39:32]`. -/
def addrField (cw : CommandWord) : Byte := cw.extractLsb' 32 8

/-- `cw[31:0]`. -/
def dataField (cw : CommandWord) : Word := cw.extractLsb' 0 32

/-- `Decode(cw)` (30_encoding.md R54): total; it looks at `func` only. -/
def decode (cw : CommandWord) : Except DecodeError Instr :=
  let f := funcField cw
  if f = 0x00#8 then .ok (.rd32 (addrField cw))
  else if f = 0x01#8 then .ok (.wr32 (addrField cw) (dataField cw))
  else if f = 0x02#8 then .ok (.rd16h (addrField cw))
  else if f = 0x03#8 then .ok (.wrcmd (addrField cw))
  else if f = 0x06#8 then .ok (.rd16l (addrField cw))
  else .error (.illegalFunc f)

/-- A command word from its three fields (30_encoding.md R50). -/
def commandWord (f a : Byte) (d : Word) : CommandWord := f ++ a ++ d

/-- The function code of a command (30_encoding.md R51). -/
def funcCode : Instr → Byte
  | .rd32 _ => 0x00#8
  | .wr32 _ _ => 0x01#8
  | .rd16h _ => 0x02#8
  | .wrcmd _ => 0x03#8
  | .rd16l _ => 0x06#8

/-- The command word of a command, with `d` in the data field where the command ignores it (30_encoding.md R53). -/
def encodeWith (d : Word) : Instr → CommandWord
  | .rd32 a => commandWord (funcCode (.rd32 a)) a d
  | .wr32 a v => commandWord (funcCode (.wr32 a v)) a v
  | .rd16h a => commandWord (funcCode (.rd16h a)) a d
  | .wrcmd a => commandWord (funcCode (.wrcmd a)) a d
  | .rd16l a => commandWord (funcCode (.rd16l a)) a d

/-- The command word of a command, with zero in an ignored data field. -/
def encode (i : Instr) : CommandWord := encodeWith 0x00000000#32 i

/-- The command a word of the opcode table decodes to: the table's word is the 48-bit command word itself, bit 0 its
least significant bit (30_encoding.md R63). -/
def decodeTableWord (nbits w : Nat) : Option Instr :=
  match decode (BitVec.ofNat 48 (w % 2 ^ nbits)) with
  | .ok i => some i
  | .error _ => none

end Sys2Proof
end

