-- ==== Sys2Proof/Machine/Moves.lean ====
section
/-! DEFINITION. What the agents do besides a blocking call: the reset of an instance (70_reset_and_hazards.md R160 to
R163), the host's other actions (10_state.md R26), and which agent moves next. -/

namespace Sys2Proof.Machine

/-! ### Reset -/

/-- Select is low: the wire is in mid-transaction (20_memory.md R45). -/
def Phase.selectLow : Phase → Bool
  | .exch | .gap | .deselect => true
  | .idle | .acquire | .select | .release => false

/-- The register an aborted write was addressed to (70_reset_and_hazards.md R162). -/
def Engine.writeTarget (e : Engine) : Option Byte :=
  match e.op, e.addr with
  | .val op, .val a => if isWrite op then some a else none
  | .val _, .nv => none
  | .nv, _ => none

/-- What a reset of instance `k` does to its device: nothing, unless it aborts a transaction (R162, R163). -/
def Node.deviceAfterReset (n : Node) (draws : Nat) : Device × Nat :=
  if n.eng.phase.selectLow then n.dev.aborted n.eng.writeTarget draws else (n.dev, draws)

/-- The reset closes what was open: `CsHigh` if select was low, then `EndScope` if this instance owned the bus (R160). -/
def resetEvents (k : Nat) (n : Node) (s : State) : List (Nat × Event) :=
  (if n.eng.csN then [] else [(k, .csHigh)]) ++ (if s.busOwner = some k then [(k, .endScope)] else [])

/-- The reset of instance `k`, in any phase (R160).  What its host was answered before is the host's and stays (log 20). -/
def resetInstance (k : Nat) (s : State) : Result :=
  s.withNode k fun n =>
    let d := n.deviceAfterReset s.draws
    .next { s.putNode k { n with eng := Engine.reset k, dev := d.1 } with
      busOwner := if s.busOwner = some k then none else s.busOwner
      trace := s.trace ++ resetEvents k n s
      draws := d.2 }

/-! ### Host reads and writes of registers -/

/-- The host reads `RDATA`: a model fault where it holds no value (10_state.md R28). -/
def readRdata (k : Nat) (s : State) : Result :=
  s.withNode k fun n =>
    match n.eng.rdata with
    | .nv => .fault (.noValue .rdata)
    | .val v => .next (s.answer k n (.rdata v))

/-- The last command of the host has run to its end: it was accepted and `DONE` is set (40_transaction_sequence.md R82). -/
def Node.hasResult (n : Node) : Bool := n.verdict == some .accepted && n.eng.done

/-- The host, back from its wait (R82), copies `RDATA` (41_read.md R95).  Where its command was rejected, or a reset ended
it, there is no result to copy, and it notes that; the spec does not say what it does there (log 24). -/
def collect (k : Nat) (s : State) : Result :=
  s.withNode k fun n => if n.hasResult then readRdata k s else .next (s.answer k n .noResult)

/-- The host reads `STATUS`; reading clears nothing (10_state.md R26). -/
def readStatus (k : Nat) (s : State) : Result := s.withNode k fun n => .next (s.answer k n (.status n.eng.statusWord))

/-- The host reads `CAUSE`. -/
def readCause (k : Nat) (s : State) : Result := s.withNode k fun n => .next (s.answer k n (.cause n.eng.causeWord))

/-- The host reads `BUSCFG`. -/
def readBusCfg (k : Nat) (s : State) : Result := s.withNode k fun n => .next (s.answer k n (.busCfg n.eng.busCfg))

/-- The host writes `BUSCFG`; the bit order is hardwired (10_state.md R23). -/
def writeBusCfg (k : Nat) (f : BusCfg → BusCfg) (s : State) : Result :=
  s.withNode k fun n => .next (s.putNode k (n.setEng { n.eng with busCfg := f n.eng.busCfg }))

/-- The host writes `CLK_HZ`: any positive value (10_state.md R23; log 17). -/
def writeClkHz (k hz : Nat) (s : State) : Result :=
  if hz = 0 then .refused .clockNotPositive else writeBusCfg k (fun c => { c with clkHz := hz }) s

/-- The host writes `CPOL`. -/
def writeCpol (k : Nat) (b : Bool) (s : State) : Result := writeBusCfg k (fun c => { c with cpol := b }) s

/-- The host writes `CPHA`. -/
def writeCpha (k : Nat) (b : Bool) (s : State) : Result := writeBusCfg k (fun c => { c with cpha := b }) s

/-! ### Which agent moves next -/

/-- Instance `k` waits for the bus. -/
def State.waits (s : State) (k : Nat) : Bool :=
  match s.insts[k]? with
  | some n => n.eng.phase == .acquire
  | none => false

/-- The instances that wait for the bus. -/
def State.waiters (s : State) : List Nat := (List.range s.insts.length).filter s.waits

/-- The choice of the arbiter after `i` others: the one lined up, else a free value (60_exceptions.md R154; log 27). -/
def State.choice (s : State) (i : Nat) : Nat := s.choices.getD i (Config.arbiter (s.chosen + (i - s.choices.length)))

/-- One choice has been made. -/
def State.afterChoice (s : State) : State :=
  match s.choices with
  | _ :: cs => { s with choices := cs }
  | [] => { s with chosen := s.chosen + 1 }

/-- Whose turn it is while time passes, and the bus once that is settled.  While the bus is owned, its owner is the only
instance with a step to take; a free bus goes to the one instance that waits for it.  If several wait, the arbiter chooses,
and where its choice is none of them the bus stays free for now: which one is next is not fixed (60_exceptions.md R154;
log 27). -/
def State.turn (s : State) : Option Nat × State :=
  match s.busOwner with
  | some j => (some j, s)
  | none =>
    match s.waiters with
    | [] => (none, s)
    | [k] => (some k, s)
    | _ :: _ :: _ => (if s.waits (s.choice 0) then some (s.choice 0) else none, s.afterChoice)

/-- Time passes: the instance whose turn it is takes its step. -/
def advance (s : State) : Result :=
  match s.turn with
  | (some k, s') => tick k s'
  | (none, s') => .next s'

/-- What the next move comes to. -/
inductive Fetched where
  /-- a command, decoded, to run at the host port of the state given -/
  | run (i : Instr) (s : State)
  /-- anything else, done -/
  | done (r : Result)

/-- The state in which the first move is under way: it is off the agenda, and the port is that of its instance. -/
def State.begin (s : State) (m : Move) (rest : List Move) : State := { s with port := m.who, agenda := rest }

/-- A host action that is enabled only in `IDLE` (10_state.md R26), or that waits for it (40_transaction_sequence.md R82):
while its instance is busy the host is held, the action stays the next one, and time passes. -/
def whenIdle (m : Move) (s : State) (go : Fetched) : Fetched :=
  match s.insts[m.who]? with
  | none => .done (.fault (.noSuchInstance m.who))
  | some n => if n.eng.phase = .idle then go else .done (advance s)

/-- The next move of the bus; with none to come, time passes. -/
def fetch (s : State) : Fetched :=
  match s.agenda with
  | [] => .done (advance s)
  | m :: rest =>
    let b := s.begin m rest
    match m.act with
    | .call cw =>
      whenIdle m s (match decode cw with
        | .ok i => .run i b
        | .error _ => .done (submitIllegal m.who b))
    | .submit cw =>
      whenIdle m s (match decode cw with
        | .ok i => .done (submit m.who (commandOrder i) b)
        | .error _ => .done (submitIllegal m.who b))
    | .tick => .done (tick m.who b)
    | .reset => .done (resetInstance m.who b)
    | .readRdata => .done (readRdata m.who b)
    | .collect => whenIdle m s (.done (collect m.who b))
    | .readStatus => .done (readStatus m.who b)
    | .readCause => .done (readCause m.who b)
    | .readBusCfg => .done (readBusCfg m.who b)
    | .writeClkHz hz => whenIdle m s (.done (writeClkHz m.who hz b))
    | .writeCpol x => whenIdle m s (.done (writeCpol m.who x b))
    | .writeCpha x => whenIdle m s (.done (writeCpha m.who x b))

/-- The agenda with a blocking call of the word `cw` at the current port put first. -/
def State.withCall (s : State) (cw : CommandWord) : State := { s with agenda := ⟨s.port, .call cw⟩ :: s.agenda }

end Sys2Proof.Machine
end

