-- ==== Sys2Proof/Machine/Step.lean ====
section
/-! DEFINITION. One step of the bus: the next move of its agents. -/

namespace Sys2Proof.Machine

/-- One step: a blocking call runs its decoded command; every other move is done as `fetch` gives it. -/
def step (s : State) : Host.Outcome State Fault Refusal :=
  match fetch s with
  | .run i s' => exec i s'
  | .done r => r

/-- `s` with the instruction of the opcode table's word placed as the next move, a blocking call at the current port
(log 2). -/
def State.withFetchWord (s : State) (nbits w : Nat) : State := s.withCall (BitVec.ofNat 48 (w % 2 ^ nbits))

end Sys2Proof.Machine
end

