-- ==== Sys2Proof/Machine/Typed.lean ====
section
/-! DEFINITION. Typed decoding and payload packing (43_compose_decode.md R117 to R128): pure functions beside the
engine. -/

namespace Sys2Proof.Machine

/-! ### Typed decoding -/

/-- `Q_DIV`, exactly as printed (00_scope.md R6). -/
def qDiv : ℚ := 29789.09091

/-- `EULER_DIV`, exactly as printed. -/
def eulerDiv : ℚ := 91.02222

/-- `RATE_DIV`. -/
def rateDiv : ℚ := 16

/-- `RAW16(h)` (R117). -/
def raw16 (h : HalfWord) : Int := h.toInt

/-- `I32(w)` (R123). -/
def i32 (w : Word) : Int := w.toInt

/-- `QUAT(h)`, the exact quotient (R119). -/
def quat (h : HalfWord) : ℚ := h.toInt / qDiv

/-- `EULER(h)`, the exact quotient in degrees (R120). -/
def euler (h : HalfWord) : ℚ := h.toInt / eulerDiv

/-- `ERATE(h)`, the exact quotient (R121). -/
def erate (h : HalfWord) : ℚ := h.toInt / rateDiv

/-- What an IEEE-754 single-precision pattern stands for.  No bit of the pattern is lost: a NaN keeps its sign and its
payload, a zero its sign (R118). -/
inductive SingleValue where
  | nan (negative : Bool) (payload : BitVec 23)
  | infinity (negative : Bool)
  | finite (negative : Bool) (magnitude : ℚ)
  deriving DecidableEq

/-- The magnitude of a finite pattern with biased exponent `e` and fraction `f`. -/
def singleMagnitude (e f : Nat) : ℚ :=
  if e = 0 then mkRat f (2 ^ 149)
  else if 150 ≤ e then mkRat ((2 ^ 23 + f) * 2 ^ (e - 150) : Nat) 1
  else mkRat (2 ^ 23 + f : Nat) (2 ^ (150 - e))

/-- `F32(w)` (R118).  The engine delivers `w` untouched; the layout of the pattern is general knowledge (log 16). -/
def f32 (w : Word) : SingleValue :=
  let neg := w.getLsbD 31
  let e := (w.extractLsb' 23 8).toNat
  let f := w.extractLsb' 0 23
  if e = 255 then (if f = 0#23 then .infinity neg else .nan neg f) else .finite neg (singleMagnitude e f.toNat)

/-- The kinds of decoded value (R124), with the bit pattern for a register whose type the spec does not name. -/
inductive ValueKind where
  | raw16 | quat | euler | erate | f32 | i32 | pattern | none
  deriving DecidableEq, Repr

/-- A decoded value. -/
inductive TypedValue where
  | int (z : Int)
  | ratio (q : ℚ)
  | single (v : SingleValue)
  | pattern (w : Word)
  | none
  deriving DecidableEq

/-- The host's decode of `RDATA`: of `RDATA[15:0]` for a 16-bit kind (10_state.md R17, R124). -/
def typedValue (k : ValueKind) (rdata : Word) : TypedValue :=
  match k with
  | .raw16 => .int (raw16 (half rdata .low))
  | .quat => .ratio (quat (half rdata .low))
  | .euler => .ratio (euler (half rdata .low))
  | .erate => .ratio (erate (half rdata .low))
  | .f32 => .single (f32 rdata)
  | .i32 => .int (i32 rdata)
  | .pattern => .pattern rdata
  | .none => .none

/-- A scaled value as a machine number of the host's type `F`, with the parameter `ROUND` as an argument (R122;
log 15). -/
def roundedValue {F : Type} (round : ℚ → F) (k : ValueKind) (rdata : Word) : Option F :=
  match typedValue k rdata with
  | .ratio q => some (round q)
  | .int _ | .single _ | .pattern _ | .none => none

/-! ### Payload packing -/

/-- `PACKRATE(q, e, p, v)` (R125); the forms that omit trailing rates give zero for them (R126). -/
def packRate (q : Byte) (e p v : Byte := 0x00#8) : Word := q ++ e ++ p ++ v

/-- `PACKALL(r)` with `ALLRATE_POS = pos` (R127; log 14). -/
def packAll (pos : Fin 4) (r : Byte) : Word :=
  match pos with
  | 0 => be32 r 0x00#8 0x00#8 0x00#8
  | 1 => be32 0x00#8 r 0x00#8 0x00#8
  | 2 => be32 0x00#8 0x00#8 r 0x00#8
  | 3 => be32 0x00#8 0x00#8 0x00#8 r

/-- An instance of the parameter `PACK_MISC` (R128): sixteen payloads, and where in them the settings are.  None is
given by the spec (93_implementation_defined.md U5; log 14).  The type asks for no more than a payload per input; R128's
constraints are `MiscTable.ok` (log 28). -/
structure MiscTable where
  /-- the payload for each of the sixteen inputs, `pps`, `zg`, `q`, `mag` being bits 3 to 0 of its index -/
  rows     : Vector Word 16
  /-- the lowest bit of the two-byte settings sub-field -/
  lowBit   : Fin 17
  /-- the PPS bit, counted from the lowest bit of the sub-field's high byte -/
  ppsBit   : Fin 8
  /-- the bits the `zg` and `mag` branches set -/
  zgMagBits : Word
  deriving DecidableEq, Repr

/-- The row of four options. -/
def miscIndex (pps zg q mag : Bool) : Fin 16 :=
  (BitVec.ofBool pps ++ BitVec.ofBool zg ++ BitVec.ofBool q ++ BitVec.ofBool mag).toFin

/-- `PACK_MISC(pps, zg, q, mag)` by a table. -/
def MiscTable.pack (t : MiscTable) (pps zg q mag : Bool) : Word := t.rows[miscIndex pps zg q mag]

/-- The two-byte settings sub-field of a payload, as a mask. -/
def MiscTable.subfield (t : MiscTable) : Word := 0xFFFF#32 <<< t.lowBit.val

/-- The PPS bit of a payload, in the high settings byte. -/
def MiscTable.ppsMask (t : MiscTable) : Word := 1#32 <<< (t.lowBit.val + 8 + t.ppsBit.val)

/-- What the spec says of `PACK_MISC` (R128, items 1 to 3; item 4 holds of every table).  A claim about
the payload of `SETMISC` has this as a premise; `NamedOp.expand` packs by a table that breaks it too, which is the model's
choice (log 28). -/
def MiscTable.ok (t : MiscTable) : Bool :=
  (t.rows.toList.all fun w => w &&& ~~~t.subfield == 0#32) &&
  t.pack true false true false &&& t.ppsMask != 0#32 &&
  t.pack true false true false &&& t.zgMagBits &&& ~~~t.ppsMask == 0#32

end Sys2Proof.Machine
end

