-- ==== Sys2Proof/Machine/Named.lean ====
section
/-! DEFINITION. The named operations of the register-map layer (30_encoding.md R62, 41_read.md R95,
43_compose_decode.md R129 to R137): each a list of commands, with the decode of what a read delivers.  They sit between
the host and the engine; a host runs one by submitting its commands in order and copying `RDATA` after each read. -/

namespace Sys2Proof.Machine

/-- The seven command triggers (43_compose_decode.md R133). -/
inductive Trigger where
  | flashCommit | factoryReset | zeroGyros | setHome | setMagReference | calibrateAccelerometers | resetFilter
  deriving DecidableEq, Repr

/-- The sensors with raw and processed triplets (43_compose_decode.md R129, R130). -/
inductive Sensor where
  | gyro | accel | mag
  deriving DecidableEq, Repr

/-- Every sensor. -/
def Sensor.all : List Sensor := [.gyro, .accel, .mag]

/-- The entries of the source's lists of registers (20_memory.md R33, 43_compose_decode.md R129 to R137). -/
inductive RegList where
  | rates | homePosition | trim | calibration | miscSettings
  | health | rawAxes (s : Sensor) | rawTimestamps | temperature | processedAxes (s : Sensor) | processedTimestamps
  | quaternion | eulerAngles | eulerRates | positionVelocity | gps | gyroBias
  | firmwareQuery | trigger (t : Trigger)
  deriving DecidableEq, Repr

/-- A register name: the register at place `part` of an entry of the lists. -/
structure RegName where
  entry : RegList
  part  : Nat := 0
  deriving DecidableEq, Repr

/-- The range the source lists an entry under (20_memory.md R33). -/
def RegList.kind : RegList → Kind
  | .rates | .homePosition | .trim | .calibration | .miscSettings => .config
  | .health | .rawAxes _ | .rawTimestamps | .temperature | .processedAxes _ | .processedTimestamps | .quaternion
  | .eulerAngles | .eulerRates | .positionVelocity | .gps | .gyroBias => .data
  | .firmwareQuery | .trigger _ => .command

/-- How many registers an entry has, where the spec says it: one `RD32` for each of the three axes of a processed triplet
(43_compose_decode.md R130, R135), "the temperature register" (R129), the misc settings register (R137), one register
per trigger (R133), and the firmware query (R134).  The source gives no number for the others (log 14). -/
def RegList.fixedParts : RegList → Option Nat
  | .processedAxes _ => some 3
  | .temperature | .miscSettings | .firmwareQuery | .trigger _ => some 1
  | .rates | .homePosition | .trim | .calibration | .health | .rawAxes _ | .rawTimestamps | .processedTimestamps
  | .quaternion | .eulerAngles | .eulerRates | .positionVelocity | .gps | .gyroBias => none

/-- An instance of the parameter `REGADDR` (00_scope.md R7; log 14).  The spec gives none. -/
structure RegMap where
  /-- `REGADDR`: the address of a register -/
  regAddr : RegName → Byte
  /-- how many registers an entry of the lists has, where the spec does not say it -/
  parts   : RegList → Nat

/-- How many registers an entry has. -/
def RegMap.partCount (m : RegMap) (e : RegList) : Nat := e.fixedParts.getD (m.parts e)

/-- The maps the spec admits.  That no entry is empty, and how many registers three raw axes take, is DEDUCED (log 14). -/
structure RegMap.Ok (m : RegMap) : Prop where
  /-- every image of `REGADDR` lies in the range of its kind (00_scope.md R7) -/
  kinds     : ∀ r : RegName, kindOf (m.regAddr r) = r.entry.kind
  /-- an entry the source lists has a register -/
  nonempty  : ∀ e : RegList, 0 < m.partCount e
  /-- three axes in halves, at most one register to an axis, whose layout is not in the source (R129) -/
  raw_axes  : ∀ s : Sensor, 2 ≤ m.parts (.rawAxes s) ∧ m.parts (.rawAxes s) ≤ 3

/-- The addresses of an entry's registers. -/
def RegMap.addrs (m : RegMap) (e : RegList) : List Byte := (List.range (m.partCount e)).map fun i => m.regAddr ⟨e, i⟩

/-- A named operation (30_encoding.md R62). -/
inductive NamedOp where
  /-- `RD16PAIR a` on its own; that both halves are decoded by `RAW16` is the model's choice (log 26) -/
  | rd16pair (a : Byte)
  | bulkRaw
  | bulkProc
  | orient
  /-- `SETRATE r, q, e, p, v` -/
  | setRate (r q e p v : Byte)
  /-- `WR32 r, PACKALL(x)` with `ALLRATE_POS = pos` -/
  | setAllRate (pos : Fin 4) (r x : Byte)
  | setMisc (pps zg q mag : Bool)
  | trigger (t : Trigger)
  | fwQuery
  deriving DecidableEq, Repr

/-- One command of a named operation and how the host decodes what it delivers. -/
structure Fetch where
  cmd  : Instr
  kind : ValueKind
  deriving DecidableEq, Repr

/-- `RD16PAIR a`: two transactions (41_read.md R95), both halves decoded alike. -/
def readPair (k : ValueKind) (a : Byte) : List Fetch := [⟨.rd16h a, k⟩, ⟨.rd16l a, k⟩]

/-- `RD32 a` for each register of a list. -/
def readWords (k : ValueKind) (l : List Byte) : List Fetch := l.map fun a => ⟨.rd32 a, k⟩

/-- The commands of a named operation.  `SETMISC` with no instance of `PACK_MISC` is refused
(93_implementation_defined.md U5).  Of a table that is given but breaks R128's constraints (`MiscTable.ok` fails) the spec
says nothing: packing by it all the same is the model's choice (log 28).  In which order a bulk operation reads its registers is the model's choice (log 25): the
spec names them in the order followed here, but does not say that they are read in it.  `RD16PAIR` on its own has no type
rule in the spec (R95, R136): the model decodes both halves by `RAW16` (log 26). -/
def NamedOp.expand (m : RegMap) (misc : Option MiscTable) : NamedOp → Except Refusal (List Fetch)
  | .rd16pair a => .ok (readPair .raw16 a)
  | .bulkRaw => .ok (Sensor.all.flatMap (fun x => (m.addrs (.rawAxes x)).flatMap (readPair .raw16)) ++
      readWords .pattern (m.addrs .rawTimestamps ++ m.addrs .temperature))
  | .bulkProc => .ok (readWords .f32 (Sensor.all.flatMap (fun x => m.addrs (.processedAxes x)) ++
      m.addrs .processedTimestamps))
  | .orient => .ok ((m.addrs .quaternion).flatMap (readPair .quat) ++ (m.addrs .eulerAngles).flatMap (readPair .euler) ++
      (m.addrs .eulerRates).flatMap (readPair .erate) ++ readWords .f32 (m.addrs .positionVelocity))
  | .setRate r q e p v => .ok [⟨.wr32 r (packRate q e p v), .none⟩]
  | .setAllRate pos r x => .ok [⟨.wr32 r (packAll pos x), .none⟩]
  | .setMisc pps zg q mag =>
    match misc with
    | some t => .ok [⟨.wr32 (m.regAddr ⟨.miscSettings, 0⟩) (t.pack pps zg q mag), .none⟩]
    | none => .error .noMiscTable
  | .trigger t => .ok [⟨.wrcmd (m.regAddr ⟨.trigger t, 0⟩), .none⟩]
  | .fwQuery => .ok [⟨.rd32 (m.regAddr ⟨.firmwareQuery, 0⟩), .pattern⟩]

/-! ### Running them -/

/-- The moves of a host that runs a list of commands at instance `k`, each after the previous one has been answered
(30_encoding.md R61, 40_transaction_sequence.md R89). -/
def script (k : Nat) (l : List Instr) : List Move := l.map fun i => ⟨k, .call (encode i)⟩

/-- The moves of a host that submits a list of commands at instance `k` without a blocking call: each submit is held until
the command before it has ended (40_transaction_sequence.md R71, R89). -/
def submissions (k : Nat) (l : List Instr) : List Move := l.map fun i => ⟨k, .submit (encode i)⟩

/-- The command is a read, so that it delivers a result in `RDATA` (41_read.md R90). -/
def Fetch.isRead (f : Fetch) : Bool :=
  match f.cmd with
  | .rd32 _ | .rd16h _ | .rd16l _ => true
  | .wr32 _ _ | .wrcmd _ => false

/-- The moves of a host that runs one command of a named operation: the call, and after a read the copy of `RDATA`,
which the next read would overwrite (41_read.md R95, 10_state.md R17).  The host takes the copy when its command has
ended, however long another instance holds the bus (40_transaction_sequence.md R82); it takes none of a read that was
rejected, and goes on with its next command, which is the model's choice (log 24). -/
def Fetch.moves (k : Nat) (f : Fetch) : List Move :=
  ⟨k, .call (encode f.cmd)⟩ :: if f.isRead then [⟨k, .collect⟩] else []

/-- The moves of a host that runs a named operation at instance `k`. -/
def fetchMoves (k : Nat) (l : List Fetch) : List Move := l.flatMap (Fetch.moves k)

/-- The host's decode of a copy (43_compose_decode.md R136); a copy of another register, or a read with no result, is no
value. -/
def Fetch.value (f : Fetch) : Reply → TypedValue
  | .rdata v => typedValue f.kind v
  | .status _ | .cause _ | .busCfg _ | .noResult => .none

/-- What a named operation delivers: each read's copy of `RDATA`, decoded by its type rule. -/
def fetchedValues (l : List Fetch) (copies : List Reply) : List TypedValue :=
  List.zipWith Fetch.value (l.filter Fetch.isRead) copies

end Sys2Proof.Machine
end

