-- ==== Sys2Proof/WellFormed.lean ====
section
/-! DEFINITION. Which commands the engine accepts, written as the opcode table's column `legal_kinds` over the printed
address ranges (20_memory.md R33, R35).  Every `Instr` has an encoding; an ill-formed one is the command the accept
step rejects (60_exceptions.md R141).  The machine does not use this file: it has its own check, in the order R141
gives, and a statement says the two agree. -/

namespace Sys2Proof

/-- The address lies in the configuration range. -/
def inConfigRange (a : Byte) : Bool := a.toNat ≤ 0x26

/-- The address lies in the data range. -/
def inDataRange (a : Byte) : Bool := 0x55 ≤ a.toNat && a.toNat ≤ 0x8B

/-- The address lies in the command range. -/
def inCommandRange (a : Byte) : Bool := 0xAA ≤ a.toNat && a.toNat ≤ 0xB3

/-- A command whose address its row of the table allows. -/
def Instr.wellFormed : Instr → Bool
  | .rd32 a => inConfigRange a || inDataRange a || inCommandRange a
  | .wr32 a _ => inConfigRange a
  | .rd16h a => inConfigRange a || inDataRange a || inCommandRange a
  | .wrcmd a => inCommandRange a
  | .rd16l a => inConfigRange a || inDataRange a || inCommandRange a

end Sys2Proof
end

