-- ==== Sys2Proof/Safety.lean ====
section
/-! DEFINITION. The terms claims use: the invariant of 10_state.md R29, the monitor of the bus trace
(20_memory.md R43, 40_transaction_sequence.md R80), the events of one transaction (R79), which instance a step concerns,
and the end of a run with its launch premises (R89). -/

namespace Sys2Proof.Machine

/-! ### The invariant of reachable states -/

/-- The phases in which an instance owns the bus (10_state.md R29 item 3). -/
def Phase.ownsBus : Phase → Bool
  | .select | .exch | .gap | .deselect | .release => true
  | .idle | .acquire => false

/-- `OP` holds one of the five values a command latches (30_encoding.md R51, 10_state.md R11). -/
def opLatched : Latch 3 → Bool
  | .val v => v == 0b000#3 || v == 0b001#3 || v == 0b010#3 || v == 0b011#3 || v == 0b110#3
  | .nv => false

/-- A latch holds a value. -/
def Latch.holds {w : Nat} : Latch w → Bool
  | .val _ => true
  | .nv => false

/-- What holds of one instance in every reachable state: 10_state.md R29 items 1, 2, 5 and 7, R15, R23 (a legal
`BUSCFG`) and R28 (in flight, the four latches hold values). -/
structure Engine.Inv (e : Engine) : Prop where
  busy_iff : e.busy = true ↔ e.phase ≠ .idle
  select_iff : e.csN = false ↔ e.phase.selectLow = true
  idx_start : e.phase = .acquire ∨ e.phase = .select → e.idx = 0#3
  idx_running : e.phase = .exch ∨ e.phase = .gap → e.idx.toNat ≤ 5
  idx_done : e.phase = .deselect ∨ e.phase = .release → e.idx = 6#3
  idx_small : e.idx.toNat ≤ 6
  done_idle : e.done = true → e.phase = .idle
  clock_positive : 0 < e.busCfg.clkHz
  latched : e.phase ≠ .idle →
    opLatched e.op = true ∧ Latch.holds e.addr = true ∧ Latch.holds e.wdata = true ∧ Latch.holds e.rxacc = true

/-- The device has taken the first `i` bytes of the frame that the latches stand for (20_memory.md R45). -/
def Node.Sent (n : Node) (i : Nat) : Prop :=
  ∀ (op : BitVec 3) (a : Byte) (wd : Word), n.eng.op = .val op → n.eng.addr = .val a → n.eng.wdata = .val wd →
    n.dev.frame.map some = (List.range i).map (txByte op a wd)

/-- What holds of the bus in every reachable state: each instance's invariant, 10_state.md R29 item 3, the canonical form
of every device's register bytes, and that a device's pointer stands where its instance's index does. -/
structure State.Inv (s : State) : Prop where
  engines : ∀ (k : Nat) (n : Node), s.insts[k]? = some n → n.eng.Inv
  owner_iff : ∀ (k : Nat) (n : Node), s.insts[k]? = some n → (s.busOwner = some k ↔ n.eng.phase.ownsBus = true)
  owner_present : ∀ k : Nat, s.busOwner = some k → k < s.insts.length
  memories : ∀ (k : Nat) (n : Node), s.insts[k]? = some n → Memory.wf n.dev.regs = true
  frames : ∀ (k : Nat) (n : Node), s.insts[k]? = some n →
    (n.eng.phase = .exch ∨ n.eng.phase = .deselect → n.Sent n.eng.idx.toNat) ∧
    (n.eng.phase = .gap → n.Sent (n.eng.idx.toNat + 1))

/-! ### The monitor of the bus trace -/

/-- Where the wire stands, read off the events alone. -/
inductive Wire where
  /-- no scope is open -/
  | free
  /-- instance `k` has opened its scope -/
  | scoped (k : Nat)
  /-- instance `k` drives select low; `i` exchanges are done and, if `owed`, the gap after the last is not -/
  | low (k i : Nat) (owed : Bool)
  /-- instance `k` has driven select high again -/
  | raised (k : Nat)
  deriving DecidableEq, Repr

/-- The one event sequence of R79, with the two places where a reset may cut it short (R160).  Any other event is
refused. -/
def Wire.next (w : Wire) (ke : Nat × Event) : Option Wire :=
  match w, ke.2 with
  | .free, .beginScope _ => some (.scoped ke.1)
  | .scoped k, .csLow => if ke.1 = k then some (.low k 0 false) else none
  | .scoped k, .endScope => if ke.1 = k then some .free else none
  | .low k i false, .xfer j _ _ _ => if ke.1 = k ∧ j = i ∧ i ≤ 5 then some (.low k i true) else none
  | .low k i true, .gap => if ke.1 = k then some (.low k (i + 1) false) else none
  | .low k _ _, .csHigh => if ke.1 = k then some (.raised k) else none
  | .raised k, .endScope => if ke.1 = k then some .free else none
  | _, _ => none

/-- The event sequence of R79 with no reset in it: select rises only after six exchanges, each with its gap, and the
scope closes only after that. -/
def Wire.nextWhole (w : Wire) (ke : Nat × Event) : Option Wire :=
  match w, ke.2 with
  | .low _ i owed, .csHigh => if i = frameLen ∧ owed = false then w.next ke else none
  | .scoped _, .endScope => none
  | _, _ => w.next ke

/-- A monitor over a list of events. -/
def Wire.runBy (next : Wire → Nat × Event → Option Wire) (w : Wire) : List (Nat × Event) → Option Wire
  | [] => some w
  | e :: es => (next w e).bind fun w' => Wire.runBy next w' es

/-- The monitor that lets a reset cut a transaction short. -/
def Wire.run : Wire → List (Nat × Event) → Option Wire := Wire.runBy Wire.next

/-- The monitor that asks for whole transactions. -/
def Wire.runWhole : Wire → List (Nat × Event) → Option Wire := Wire.runBy Wire.nextWhole

/-- Where the wire stands by the engine of instance `k`, which owns the bus. -/
def Engine.wire (e : Engine) (k : Nat) : Wire :=
  match e.phase with
  | .exch => .low k e.idx.toNat false
  | .gap => .low k e.idx.toNat true
  | .deselect => .low k e.idx.toNat false
  | .release => .raised k
  | .idle | .acquire | .select => .scoped k

/-- Where the wire stands by the state of the instances. -/
def State.wire (s : State) : Wire :=
  match s.busOwner with
  | none => .free
  | some k =>
    match s.insts[k]? with
    | none => .free
    | some n => n.eng.wire k

/-- The bus trace is one the monitor accepts, and it ends where the instances stand. -/
def State.Serialised (s : State) : Prop := Wire.run .free s.trace = some s.wire

/-! ### One transaction -/

/-- The six bytes the device returns in one transaction. -/
abbrev Received := Vector Byte 6

/-- The sixteen events of a command whose exchanges send `tx` in the roles `roles` and receive `rx` (R79). -/
def frameEvents (cfg : BusCfg) (tx : Vector Byte 6) (roles : Vector Role 6) (rx : Received) : List Event :=
  [.beginScope cfg, .csLow,
   .xfer 0 roles[0] tx[0] rx[0], .gap, .xfer 1 roles[1] tx[1] rx[1], .gap, .xfer 2 roles[2] tx[2] rx[2], .gap,
   .xfer 3 roles[3] tx[3] rx[3], .gap, .xfer 4 roles[4] tx[4] rx[4], .gap, .xfer 5 roles[5] tx[5] rx[5], .gap,
   .csHigh, .endScope]

/-- The sixteen events of a command that runs to its end and receives `rx` (R79, with the frames and roles of
30_encoding.md R56, R57). -/
def commandEvents (cfg : BusCfg) (rx : Received) : Instr → List Event
  | .rd32 a => frameEvents cfg #v[0x00#8, a, 0x00#8, 0x00#8, 0x00#8, 0x00#8] #v[.opc, .adr, .data, .data, .data, .data] rx
  | .rd16h a => frameEvents cfg #v[0x00#8, a, 0x00#8, 0x00#8, 0x00#8, 0x00#8] #v[.opc, .adr, .data, .data, .fill, .fill] rx
  | .rd16l a => frameEvents cfg #v[0x00#8, a, 0x00#8, 0x00#8, 0x00#8, 0x00#8] #v[.opc, .adr, .fill, .fill, .data, .data] rx
  | .wr32 a v => frameEvents cfg
      #v[0x01#8, a, v.extractLsb' 24 8, v.extractLsb' 16 8, v.extractLsb' 8 8, v.extractLsb' 0 8]
      #v[.opc, .adr, .pay, .pay, .pay, .pay] rx
  | .wrcmd a => frameEvents cfg #v[0x01#8, a, 0x00#8, 0x00#8, 0x00#8, 0x00#8] #v[.opc, .adr, .pay, .pay, .pay, .pay] rx

/-- What a command that receives `rx` delivers in `RDATA`: the bytes of its `DATA` exchanges, as a word or a sign-extended
half (41_read.md R91 to R93); a write delivers nothing (42_write.md R101, R102). -/
def commandResult (rx : Received) : Instr → Option Word
  | .rd32 _ => some (rx[2] ++ rx[3] ++ rx[4] ++ rx[5])
  | .rd16h _ => some ((rx[2] ++ rx[3] : HalfWord).signExtend 32)
  | .rd16l _ => some ((rx[4] ++ rx[5] : HalfWord).signExtend 32)
  | .wr32 _ _ | .wrcmd _ => none

/-- The events of a list of commands, each with what it receives. -/
def fetchEvents (cfg : BusCfg) (l : List (Fetch × Received)) : List Event := l.flatMap fun p => commandEvents cfg p.2 p.1.cmd

/-- The copies of `RDATA` a host has of a list of commands, each with what it receives. -/
def fetchCopies (l : List (Fetch × Received)) : List Reply := l.filterMap fun p => (commandResult p.2 p.1.cmd).map Reply.rdata

/-- The bytes a list of events sent, in wire order. -/
def sentBytes : List Event → List Byte
  | [] => []
  | .xfer _ _ tx _ :: es => tx :: sentBytes es
  | .beginScope _ :: es | .csLow :: es | .gap :: es | .csHigh :: es | .endScope :: es => sentBytes es

/-- `TransportAnswers` for one transaction (R89, R146): the transport answers at least six more exchanges. -/
def Device.answersSix (d : Device) : Bool :=
  match d.answersLeft with
  | none => true
  | some n => 6 ≤ n

/-- The byte an oracle returns in exchange `i` of a transaction it starts with `draws` free values drawn: the answer
lined up, else a free value (20_memory.md R44). -/
def Device.oracleByte (d : Device) (draws i : Nat) : Byte :=
  d.answers.getD i (Config.deviceByte (draws + (i - d.answers.length)))

/-- The premises under which a command runs to its end at the current port: the instance is idle, the bus is free, and
the transport answers (R71, R73, R146). -/
structure State.Ready (s : State) (n : Node) : Prop where
  here : s.insts[s.port]? = some n
  idle : n.eng.phase = .idle
  bus_free : s.busOwner = none
  answers : n.dev.answersSix = true

/-- The bus after a command that ran to its end at the current port, where instance `n` is: its instance with engine
`eng` and device `dev`, its answer ACCEPTED, the bus free again, the command's events at the end of the trace, everything
else as it was. -/
def State.afterCommand (s : State) (n : Node) (eng : Engine) (dev : Device) (draws : Nat) (events : List Event) : State :=
  { s with
    insts := s.insts.set s.port { n with eng := eng, dev := dev, verdict := some .accepted }
    busOwner := none
    trace := s.trace ++ events.map fun e => (s.port, e)
    draws := draws }

/-- What a completed transaction leaves of the device besides its lined-up answers: the register bytes `regs`, no frame
under way, and a pointer that is defined again (20_memory.md R45). -/
structure Device.Settled (d d' : Device) (regs : Memory) : Prop where
  regs_eq : d'.regs = regs
  reference_eq : d'.reference = d.reference
  fwId_eq : d'.fwId = d.fwId
  frame_eq : d'.frame = []
  pointer_ok : d'.pointerLost = false

/-- The bytes received are those of an oracle (20_memory.md R44). -/
def Device.OracleBytes (d : Device) (draws : Nat) (rx : Received) : Prop :=
  ∀ i : Fin 6, rx[i] = d.oracleByte draws i.val

/-- The bus after a command word was rejected at instance `k`: `ERR` and `CAUSE` of that instance, the answer REJECTED,
and nothing else of the hardware (60_exceptions.md R142). -/
def State.afterRejection (s : State) (k : Nat) (n : Node) (c : Cause) : State :=
  { s with insts := s.insts.set k { n with eng := { n.eng with err := true, cause := c }, verdict := some .rejected } }

/-- The move `m` is under way: it is off the agenda, and the port is that of its instance. -/
def State.underWay (s : State) (m : Move) (rest : List Move) : State := { s with port := m.who, agenda := rest }

/-- `m` steps of the bus, stopping at the first fault or refusal. -/
def steps : Nat → State → Result
  | 0, s => .next s
  | m + 1, s => andThen (step s) (steps m)

/-! ### Which instance a step concerns -/

/-- The acts a busy instance holds. -/
def Act.held : Act → Bool
  | .call _ | .submit _ | .collect | .writeClkHz _ | .writeCpol _ | .writeCpha _ => true
  | .tick | .reset | .readRdata | .readStatus | .readCause | .readBusCfg => false

/-- Instance `k` is on the bus and away from `IDLE`. -/
def State.busyAt (s : State) (k : Nat) : Bool :=
  match s.insts[k]? with
  | none => false
  | some n => n.eng.phase != .idle

/-- The instance the next step concerns, if any: that of the next move; or, where there is none or its host is held, the
one whose turn it is (logs 9, 27). -/
def State.mover (s : State) : Option Nat :=
  match s.agenda with
  | [] => s.turn.1
  | m :: _ => if m.act.held && s.busyAt m.who then s.turn.1 else some m.who

/-! ### The end of a run and its launch premises (40_transaction_sequence.md R89) -/

/-- The act submits a command word. -/
def Act.submits : Act → Bool
  | .call _ | .submit _ => true
  | .tick | .reset | .readRdata | .collect | .readStatus | .readCause | .readBusCfg | .writeClkHz _ | .writeCpol _
  | .writeCpha _ => false

/-- The run of instance `k` has ended: no command of it is still to be submitted, and the last one has been answered
REJECTED, or has been answered ACCEPTED and the instance is back in `IDLE` with `DONE` set. -/
def State.runEnded (s : State) (k : Nat) : Bool :=
  !(s.agenda.any fun m => m.who == k && m.act.submits) &&
    match s.insts[k]? with
    | none => false
    | some n => n.eng.phase == .idle &&
        (n.verdict == some .rejected || (n.verdict == some .accepted && n.eng.done))

/-- `ResetState`: every element of every instance is as 10_state.md R27 says. -/
def State.ResetState (s : State) : Prop :=
  s.busOwner = none ∧ ∀ (k : Nat) (n : Node), s.insts[k]? = some n → n.eng = Engine.reset k

/-- `TransportAnswers`: the device's transport answers every exchange (60_exceptions.md R146; log 6). -/
def Device.TransportAnswers (d : Device) : Prop := d.answersLeft = none

/-- `TransportAnswers` for the whole bus: every instance's transport does. -/
def State.TransportsAnswer (s : State) : Prop := ∀ (k : Nat) (n : Node), s.insts[k]? = some n → n.dev.TransportAnswers

/-- `GapElapses`: the gap step of every instance that waits for its gap is enabled.  The model has no time, so this is so
in every state of the invariant (log 19). -/
def State.GapElapses (s : State) : Prop :=
  ∀ (k : Nat) (n : Node), s.insts[k]? = some n → n.eng.phase = .gap →
    ∃ t : State, tick k s = .next t ∧ t.insts[k]?.map (fun m => m.eng.phase) ≠ some .gap

/-- `ArbiterFair` for instance `k`: after every number of other choices the arbiter comes to choose it, so that none of its
waits is for ever (60_exceptions.md R154, which does not grant it).  It is a premise about the choices to come, lined up or
free (log 27), and no step ends it (`stepKeeps_arbiterFair`). -/
def State.ArbiterFair (s : State) (k : Nat) : Prop := ∀ j : Nat, ∃ i : Nat, j ≤ i ∧ s.choice i = k

/-- What a claim about `m` waits of instance `k` needs of `ArbiterFair`, which gives it for every `m`
(`State.ArbiterFair.chooses`): `m` of the choices to come are `k`. -/
def State.ArbiterChooses (s : State) (k m : Nat) : Prop :=
  ∃ places : List Nat, places.length = m ∧ places.Pairwise (· < ·) ∧ ∀ i ∈ places, s.choice i = k

/-- `NoResetDuringRun`: no reset of instance `k` is to come. -/
def State.NoResetDuringRun (s : State) (k : Nat) : Prop := ⟨k, .reset⟩ ∉ s.agenda

/-- `DeviceConforms`: the device is the reference device and its pointer is defined (20_memory.md R44 to R46). -/
def Device.Conforms (d : Device) : Prop := d.reference = true ∧ d.pointerLost = false

end Sys2Proof.Machine
end

