-- ==== Sys2Proof/Certificates/Slice0/Obligations.lean ====
section
/-! DEFINITION. The statements for the provers.  Each docstring names the rules it formalises; where a statement rests on
a choice of the model, it says so and names the log entry. -/

open Sys2Proof Sys2Proof.Machine

/-! ### The command word -/

/-- R54: the five match and mask pairs over the 48-bit word, each with the fields its command takes, and every other word
illegal with its function code. -/
def Obligations.DecodeFollowsMatchAndMask : Prop :=
  ∀ cw : CommandWord,
    (cw &&& 0xFF0000000000#48 = 0x000000000000#48 → decode cw = .ok (.rd32 (cw.extractLsb' 32 8))) ∧
    (cw &&& 0xFF0000000000#48 = 0x010000000000#48 →
      decode cw = .ok (.wr32 (cw.extractLsb' 32 8) (cw.extractLsb' 0 32))) ∧
    (cw &&& 0xFF0000000000#48 = 0x020000000000#48 → decode cw = .ok (.rd16h (cw.extractLsb' 32 8))) ∧
    (cw &&& 0xFF0000000000#48 = 0x030000000000#48 → decode cw = .ok (.wrcmd (cw.extractLsb' 32 8))) ∧
    (cw &&& 0xFF0000000000#48 = 0x060000000000#48 → decode cw = .ok (.rd16l (cw.extractLsb' 32 8))) ∧
    ((∀ m ∈ [0x000000000000#48, 0x010000000000#48, 0x020000000000#48, 0x030000000000#48, 0x060000000000#48],
        cw &&& 0xFF0000000000#48 ≠ m) → decode cw = .error (.illegalFunc (cw.extractLsb' 40 8)))

/-- R50, R53, R54: decoding inverts encoding for every command, whatever an ignored data field holds; and encoding
inverts decoding, with the word's own data field put back where the command ignores it. -/
def Obligations.DecodeInvertsEncode : Prop :=
  (∀ (i : Instr) (d : Word), decode (encodeWith d i) = .ok i) ∧
  (∀ (cw : CommandWord) (i : Instr), decode cw = .ok i → encodeWith (cw.extractLsb' 0 32) i = cw)

/-- R50, R51: words written out from the spec's encoding, one for each command, decode to what they stand for
(95_test_vectors.md D1 to D8). -/
def Obligations.WordsWrittenOutDecode : Prop :=
  decode 0x0065FFFFFFFF#48 = .ok (.rd32 0x65#8) ∧
  decode 0x010532280000#48 = .ok (.wr32 0x05#8 0x32280000#32) ∧
  decode 0x026D00000000#48 = .ok (.rd16h 0x6D#8) ∧
  decode 0x03ADDEADBEEF#48 = .ok (.wrcmd 0xAD#8) ∧
  decode 0x066D00000000#48 = .ok (.rd16l 0x6D#8) ∧
  decode 0x046500000000#48 = .error (.illegalFunc 0x04#8)

/-! ### The address map and the acceptance check -/

/-- R33: the three ranges of `KIND`, the addresses outside them, and their sizes. -/
def Obligations.KindIsTheThreeRanges : Prop :=
  (∀ a : Byte, (kindOf a = .config ↔ a.toNat ≤ 0x26) ∧
    (kindOf a = .data ↔ 0x55 ≤ a.toNat ∧ a.toNat ≤ 0x8B) ∧
    (kindOf a = .command ↔ 0xAA ≤ a.toNat ∧ a.toNat ≤ 0xB3) ∧
    (kindOf a = .none ↔ (0x27 ≤ a.toNat ∧ a.toNat ≤ 0x54) ∨ (0x8C ≤ a.toNat ∧ a.toNat ≤ 0xA9) ∨ 0xB4 ≤ a.toNat)) ∧
  ((List.range 256).countP (fun x => kindOf (BitVec.ofNat 8 x) = .config) = 39) ∧
  ((List.range 256).countP (fun x => kindOf (BitVec.ofNat 8 x) = .data) = 55) ∧
  ((List.range 256).countP (fun x => kindOf (BitVec.ofNat 8 x) = .command) = 10) ∧
  ((List.range 256).countP (fun x => kindOf (BitVec.ofNat 8 x) = .none) = 152)

/-- R141 for the decoded commands: the check passes exactly where the opcode table's row allows the address; an unmapped
address gives `ILLEGAL_ADDR` for every command, a mapped one of a kind the command may not write `ILLEGAL_ACCESS`. -/
def Obligations.CheckIsTheAccessMatrix : Prop :=
  ∀ i : Instr,
    (check i = .none ↔ i.wellFormed = true) ∧
    (check i = .illegalAddr ↔
      inConfigRange i.addr = false ∧ inDataRange i.addr = false ∧ inCommandRange i.addr = false) ∧
    (check i = .illegalAccess ↔ i.wellFormed = false ∧
      (inConfigRange i.addr || inDataRange i.addr || inCommandRange i.addr) = true) ∧
    check i ≠ .illegalFunc

/-! ### Composition, typed decoding, packing -/

/-- R114, all five laws. The spec marks the laws as derived. -/
def Obligations.SplitAndComposeRoundTrip : Prop :=
  (∀ v : Word, be32 (split32 v).1 (split32 v).2.1 (split32 v).2.2.1 (split32 v).2.2.2 = v) ∧
  (∀ b3 b2 b1 b0 : Byte, split32 (be32 b3 b2 b1 b0) = (b3, b2, b1, b0)) ∧
  (∀ h l : HalfWord, half (be32 (split32 (h ++ l)).1 (split32 (h ++ l)).2.1 (split32 (h ++ l)).2.2.1
      (split32 (h ++ l)).2.2.2) .high = h ∧
    half (be32 (split32 (h ++ l)).1 (split32 (h ++ l)).2.1 (split32 (h ++ l)).2.2.1 (split32 (h ++ l)).2.2.2) .low = l) ∧
  (∀ (w : Word) (x : HalfSel), (half w x).toInt = (sext32 (half w x)).toInt)

/-- R110, R111, R113: `BE16` as an unsigned number, `BE32` as two `BE16`, and the bytes of `SPLIT32`. -/
def Obligations.ByteOrderIsMostSignificantFirst : Prop :=
  (∀ bh bl : Byte, be16 bh bl = bh ++ bl ∧ (be16 bh bl).toNat = bh.toNat * 256 + bl.toNat) ∧
  (∀ b3 b2 b1 b0 : Byte, be32 b3 b2 b1 b0 = b3 ++ b2 ++ b1 ++ b0 ∧
    be32 b3 b2 b1 b0 = be16 b3 b2 ++ be16 b1 b0) ∧
  (∀ v : Word, split32 v = (v.extractLsb' 24 8, v.extractLsb' 16 8, v.extractLsb' 8 8, v.extractLsb' 0 8))

/-- R119, R120, R121: zero decodes to zero, the rate decode is an exact multiple of 1/16, and every quotient lies between
those of the two extreme halves. -/
def Obligations.ScaledDecodesAreExactQuotients : Prop :=
  quat 0x0000#16 = 0 ∧ euler 0x0000#16 = 0 ∧ erate 0x0000#16 = 0 ∧
  (∀ h : HalfWord, quat h * 29789.09091 = h.toInt ∧ euler h * 91.02222 = h.toInt ∧ erate h * 16 = h.toInt) ∧
  (∀ h : HalfWord, quat 0x8000#16 ≤ quat h ∧ quat h ≤ quat 0x7FFF#16 ∧
    euler 0x8000#16 ≤ euler h ∧ euler h ≤ euler 0x7FFF#16 ∧ -2048 ≤ erate h ∧ erate h ≤ 2047.9375)

/-- R125, R126: the payload bytes of a rate payload are the four sub-rates in field order; the forms that omit trailing
rates give zero for them; the source's example. -/
def Obligations.RatePayloadBytesAreTheSubRates : Prop :=
  (∀ q e p v : Byte, packRate q e p v = q ++ e ++ p ++ v ∧ split32 (packRate q e p v) = (q, e, p, v)) ∧
  (∀ q e p : Byte, packRate q = packRate q 0x00#8 0x00#8 0x00#8 ∧ packRate q e = packRate q e 0x00#8 0x00#8 ∧
    packRate q e p = packRate q e p 0x00#8) ∧
  packRate 50#8 40#8 0#8 0#8 = 0x32280000#32

/-- R129 to R134, R137, R141: with a register map whose images lie in the ranges of their kinds, every command of
every named operation is accepted; a rate is written to a configuration register and a pair read at a mapped one. The
register map is an argument (log 14). -/
def Obligations.NamedOperationsAreAccepted : Prop :=
  ∀ (m : RegMap) (misc : Option MiscTable) (op : NamedOp) (l : List Fetch),
    (∀ r : RegName, kindOf (m.regAddr r) = r.entry.kind) → op.expand m misc = .ok l →
    (∀ a, op = .rd16pair a → kindOf a ≠ .none) →
    (∀ r q e p v, op = .setRate r q e p v → kindOf r = .config) →
    (∀ pos r x, op = .setAllRate pos r x → kindOf r = .config) →
    ∀ f ∈ l, f.cmd.wellFormed = true

/-- 93_implementation_defined.md U5: a named operation is refused exactly where it is `SETMISC` and no instance of
`PACK_MISC` is given. That a table which breaks R128's constraints counts as given, and is packed by, is the model's choice
(log 28). -/
def Obligations.OnlySetMiscWithoutTableIsRefused : Prop :=
  ∀ (m : RegMap) (misc : Option MiscTable) (op : NamedOp),
    (∃ l, op.expand m misc = .ok l) ↔ ¬ (misc = none ∧ ∃ pps zg q mag, op = .setMisc pps zg q mag)

/-! ### One step runs the decoded command -/

/-- R72: when the next move is a blocking call at an idle instance and its word decodes, the step is `exec` of the
decoded command, with the move off the agenda and the port set to its instance. The agenda, and the call as one step,
are the model's form (logs 1, 2). -/
def Obligations.StepRunsTheDecodedCommand : Prop :=
  ∀ (s : State) (k : Nat) (n : Node) (cw : CommandWord) (rest : List Move) (i : Instr),
    s.agenda = ⟨k, .call cw⟩ :: rest → s.insts[k]? = some n → n.eng.phase = .idle → decode cw = .ok i →
    step s = exec i (s.underWay ⟨k, .call cw⟩ rest)

/-- R72: the accept step latches the function bits, the address and the payload of the command word, clears the
accumulator and the index, and changes nothing else. -/
def Obligations.AcceptStepLatchesTheCommandWord : Prop :=
  ∀ (s : State) (k : Nat) (n : Node) (cw : CommandWord) (rest : List Move) (i : Instr),
    s.agenda = ⟨k, .submit cw⟩ :: rest → s.insts[k]? = some n → n.eng.phase = .idle → decode cw = .ok i →
    i.wellFormed = true →
    step s = .next { s with
      insts := s.insts.set k
        { n with
          eng := { n.eng with
            op := .val (cw.extractLsb' 40 3), addr := .val (cw.extractLsb' 32 8)
            wdata := .val (if cw.extractLsb' 40 8 = 0x01#8 then cw.extractLsb' 0 32 else 0#32)
            rxacc := .val 0#32, idx := 0#3, busy := true, done := false, phase := .acquire }
          verdict := some .accepted }
      port := k, agenda := rest }

/-- R59, R142, R144: a word with a reserved function code, submitted or called at an idle instance, is rejected with
`ILLEGAL_FUNC` whatever its address; nothing else changes. -/
def Obligations.ReservedFunctionIsRejected : Prop :=
  ∀ (s : State) (k : Nat) (n : Node) (cw : CommandWord) (act : Act) (rest : List Move),
    act = .submit cw ∨ act = .call cw → s.agenda = ⟨k, act⟩ :: rest → s.insts[k]? = some n → n.eng.phase = .idle →
    (∀ f ∈ [0x00#8, 0x01#8, 0x02#8, 0x03#8, 0x06#8], cw.extractLsb' 40 8 ≠ f) →
    step s = .next ((s.underWay ⟨k, act⟩ rest).afterRejection k n .illegalFunc)

/-- R142 for a decoded command: `exec` of a command its row does not allow sets `ERR`, records `ILLEGAL_ADDR` for an
unmapped address and `ILLEGAL_ACCESS` for a mapped one, answers REJECTED, and changes nothing else: no event, no latch,
no other instance. -/
def Obligations.RejectedCommandOnlyRecordsItsCause : Prop :=
  ∀ (s : State) (n : Node) (i : Instr),
    s.insts[s.port]? = some n → n.eng.phase = .idle → i.wellFormed = false →
    exec i s = .next (s.afterRejection s.port n
      (if inConfigRange i.addr || inDataRange i.addr || inCommandRange i.addr then .illegalAccess else .illegalAddr))

/-- R142, with the causes of R141 and R143 in their order: a word submitted or called at an idle instance that has a
reserved function code, or whose decoded command its row does not allow, sets `ERR`, records its cause, is answered
REJECTED, and nothing else changes. -/
def Obligations.ARejectionDoesExactlyThis : Prop :=
  ∀ (s : State) (k : Nat) (n : Node) (cw : CommandWord) (act : Act) (rest : List Move) (c : Cause),
    act = .submit cw ∨ act = .call cw → s.agenda = ⟨k, act⟩ :: rest → s.insts[k]? = some n → n.eng.phase = .idle →
    ((∀ f ∈ [0x00#8, 0x01#8, 0x02#8, 0x03#8, 0x06#8], cw.extractLsb' 40 8 ≠ f) ∧ c = .illegalFunc) ∨
      (∃ i : Instr, decode cw = .ok i ∧ i.wellFormed = false ∧
        c = if inConfigRange i.addr || inDataRange i.addr || inCommandRange i.addr then .illegalAccess
            else .illegalAddr) →
    step s = .next ((s.underWay ⟨k, act⟩ rest).afterRejection k n c)

/-- R71 says that `Submit` has no step while the instance is busy and the host is held, R82 that a host waits until its
command has ended before it copies its result. How the model holds it is the model's own choice (log 4): a held call,
submit, collect or write of `BUSCFG` stays the next move of the agenda, and with it every move listed behind it, and
`exec` at a busy instance answers the state unchanged. That time passes meanwhile for the instance whose turn it is is
the model's choice too (logs 9, 27). -/
def Obligations.BusyInstanceHoldsItsHost : Prop :=
  (∀ (s t : State) (m : Move) (rest : List Move) (n : Node),
    s.agenda = m :: rest → s.insts[m.who]? = some n → n.eng.phase ≠ .idle →
    ((∃ cw, m.act = .call cw) ∨ (∃ cw, m.act = .submit cw) ∨ m.act = .collect ∨ (∃ hz, m.act = .writeClkHz hz) ∨
      (∃ b, m.act = .writeCpol b) ∨ (∃ b, m.act = .writeCpha b)) →
    step s = .next t → t.agenda = s.agenda ∧ t.port = s.port) ∧
  (∀ (s : State) (n : Node) (i : Instr),
    s.insts[s.port]? = some n → n.eng.phase ≠ .idle → exec i s = .next s)

/-! ### The steps of a transaction -/

/-- R73: the acquire step, and the wait while the bus is owned. -/
def Obligations.AcquireStep : Prop :=
  ∀ (s : State) (k : Nat) (n : Node) (rest : List Move),
    s.agenda = ⟨k, .tick⟩ :: rest → s.insts[k]? = some n → n.eng.phase = .acquire →
    (s.busOwner = none → step s = .next { s with
      insts := s.insts.set k { n with eng := { n.eng with phase := .select } }
      busOwner := some k, trace := s.trace ++ [(k, .beginScope n.eng.busCfg)], port := k, agenda := rest }) ∧
    (s.busOwner ≠ none → step s = .next (s.underWay ⟨k, .tick⟩ rest))

/-- R74: the select step, with nothing between it and the first exchange; the device's registers are untouched. -/
def Obligations.SelectStep : Prop :=
  ∀ (s : State) (k : Nat) (n : Node) (rest : List Move),
    s.agenda = ⟨k, .tick⟩ :: rest → s.insts[k]? = some n → n.eng.phase = .select →
    ∃ dev : Device,
      step s = .next { s with
        insts := s.insts.set k { n with eng := { n.eng with csN := false, phase := .exch }, dev := dev }
        trace := s.trace ++ [(k, .csLow)], port := k, agenda := rest } ∧
      dev.regs = n.dev.regs

/-- R75, with R56, R57 and R86 through their tables: the exchange step of an instance whose transport answers sends the
byte and records the role of the tables, shifts the received byte in where the role is `DATA`, and leaves the index; where
the transport gives no answer, the instance stays as it is. R46 for the one exchange: if the device has taken the bytes
sent before (which `EveryStepKeepsTheInvariant` says of every run), its register bytes are as before, except that the
sixth byte of a write to a configuration register stores the payload in that slot of the reference device. That a stuck
step leaves the state as it is, and how long the transport answers, is the model's form (log 6); that a write right after
an abort, with the device's pointer lost, takes effect as any other is the model's choice (log 13). -/
def Obligations.ExchangeStep : Prop :=
  ∀ (s : State) (k : Nat) (n : Node) (rest : List Move) (op : BitVec 3) (a : Byte) (wd acc : Word) (role : Role) (tx : Byte),
    s.agenda = ⟨k, .tick⟩ :: rest → s.insts[k]? = some n → n.eng.phase = .exch →
    n.eng.op = .val op → n.eng.addr = .val a → n.eng.wdata = .val wd → n.eng.rxacc = .val acc →
    roleOf op n.eng.idx.toNat = some role → txByte op a wd n.eng.idx.toNat = some tx →
    (n.dev.answersLeft ≠ some 0 → ∃ (rx : Byte) (dev : Device) (draws : Nat),
      step s = .next { s with
        insts := s.insts.set k
          { n with
            eng := { n.eng with
              rxacc := .val (if role = .data then acc.extractLsb' 0 24 ++ rx else acc), phase := .gap }
            dev := dev }
        trace := s.trace ++ [(k, .xfer n.eng.idx.toNat role tx rx)]
        draws := draws, port := k, agenda := rest } ∧
      dev.reference = n.dev.reference ∧ dev.fwId = n.dev.fwId ∧ dev.pointerLost = n.dev.pointerLost ∧
      (n.Sent n.eng.idx.toNat →
        dev.regs =
          if n.dev.reference = true ∧ op.getLsbD 0 = true ∧ kindOf a = .config ∧ n.eng.idx = 5#3 then
            n.dev.regs.writeSlot a (wd.extractLsb' 24 8) (wd.extractLsb' 16 8) (wd.extractLsb' 8 8) (wd.extractLsb' 0 8)
          else n.dev.regs)) ∧
    (n.dev.answersLeft = some 0 → step s = .next (s.underWay ⟨k, .tick⟩ rest))

/-- R56, R57: the byte sent and the role of every exchange of the five commands, as the tables print them. The zero
byte in a read's kept exchanges is the spec's own decision D7 (log 21). -/
def Obligations.FrameTablesAsPrinted : Prop :=
  ∀ (a : Byte) (wd : Word),
    ([0, 1, 2, 3, 4, 5].map (txByte 0b000#3 a wd) = [0x00#8, a, 0x00#8, 0x00#8, 0x00#8, 0x00#8].map some) ∧
    ([0, 1, 2, 3, 4, 5].map (txByte 0b010#3 a wd) = [0x00#8, a, 0x00#8, 0x00#8, 0x00#8, 0x00#8].map some) ∧
    ([0, 1, 2, 3, 4, 5].map (txByte 0b110#3 a wd) = [0x00#8, a, 0x00#8, 0x00#8, 0x00#8, 0x00#8].map some) ∧
    ([0, 1, 2, 3, 4, 5].map (txByte 0b001#3 a wd) = [0x01#8, a, wd.extractLsb' 24 8, wd.extractLsb' 16 8,
      wd.extractLsb' 8 8, wd.extractLsb' 0 8].map some) ∧
    ([0, 1, 2, 3, 4, 5].map (txByte 0b011#3 a 0#32) = [0x01#8, a, 0x00#8, 0x00#8, 0x00#8, 0x00#8].map some) ∧
    ([0, 1, 2, 3, 4, 5].map (roleOf 0b000#3) = [.opc, .adr, .data, .data, .data, .data].map some) ∧
    ([0, 1, 2, 3, 4, 5].map (roleOf 0b010#3) = [.opc, .adr, .data, .data, .fill, .fill].map some) ∧
    ([0, 1, 2, 3, 4, 5].map (roleOf 0b110#3) = [.opc, .adr, .fill, .fill, .data, .data].map some) ∧
    ([0, 1, 2, 3, 4, 5].map (roleOf 0b001#3) = [.opc, .adr, .pay, .pay, .pay, .pay].map some) ∧
    ([0, 1, 2, 3, 4, 5].map (roleOf 0b011#3) = [.opc, .adr, .pay, .pay, .pay, .pay].map some)

/-- R76: the gap step: the index goes up by one; after the sixth exchange the instance goes on to deselect. The model
has no time: when the delay has elapsed is the agenda's (logs 9, 19). -/
def Obligations.GapStep : Prop :=
  ∀ (s : State) (k : Nat) (n : Node) (rest : List Move),
    s.agenda = ⟨k, .tick⟩ :: rest → s.insts[k]? = some n → n.eng.phase = .gap → n.eng.idx.toNat ≤ 5 →
    step s = .next { s with
      insts := s.insts.set k
        { n with eng := { n.eng with
          idx := n.eng.idx + 1#3, phase := if n.eng.idx = 5#3 then .deselect else .exch } }
      trace := s.trace ++ [(k, .gap)], port := k, agenda := rest }

/-- R77: the deselect step; the device's registers are untouched. -/
def Obligations.DeselectStep : Prop :=
  ∀ (s : State) (k : Nat) (n : Node) (rest : List Move),
    s.agenda = ⟨k, .tick⟩ :: rest → s.insts[k]? = some n → n.eng.phase = .deselect →
    ∃ dev : Device,
      step s = .next { s with
        insts := s.insts.set k { n with eng := { n.eng with csN := true, phase := .release }, dev := dev }
        trace := s.trace ++ [(k, .csHigh)], port := k, agenda := rest } ∧
      dev.regs = n.dev.regs

/-- R78: the release step: the result of a read is delivered, a write leaves `RDATA` as it is, the bus is free, and the
command is done; and no other step of an instance changes its `RDATA`. -/
def Obligations.ReleaseStep : Prop :=
  (∀ (s : State) (k : Nat) (n : Node) (rest : List Move) (op : BitVec 3) (acc : Word),
    s.agenda = ⟨k, .tick⟩ :: rest → s.insts[k]? = some n → n.eng.phase = .release →
    n.eng.op = .val op → n.eng.rxacc = .val acc →
    step s = .next { s with
      insts := s.insts.set k
        { n with eng := { n.eng with
          rdata :=
            if op = 0b000#3 then .val acc
            else if op = 0b010#3 ∨ op = 0b110#3 then .val ((acc.extractLsb' 0 16).signExtend 32)
            else n.eng.rdata
          busy := false, done := true, phase := .idle } }
      busOwner := none, trace := s.trace ++ [(k, .endScope)], port := k, agenda := rest }) ∧
  (∀ (s t : State) (k : Nat) (n m : Node), tick k s = .next t → s.insts[k]? = some n → t.insts[k]? = some m →
    m.eng.rdata ≠ n.eng.rdata → n.eng.phase = .release)

/-- R85: one step of an instance either leaves the state as it is or goes to the next phase of the one sequence. -/
def Obligations.PhasesFollowTheOneSequence : Prop :=
  ∀ (s t : State) (k : Nat), tick k s = .next t →
    ∃ n, s.insts[k]? = some n ∧
      (t = s ∨ ∃ n', t.insts[k]? = some n' ∧
        ((n.eng.phase, n'.eng.phase) ∈
          ([(.acquire, .select), (.select, .exch), (.exch, .gap), (.gap, .exch), (.gap, .deselect),
            (.deselect, .release), (.release, .idle)] : List (Phase × Phase))))

/-! ### The commands -/

/-- R91, R79: `RD32` of a mapped register at a ready instance runs to its end: the frame, the roles, sixteen events,
and `RDATA` the four data bytes received, first byte most significant. An oracle's bytes are any bytes: the answers
lined up, else free values (R44). The call as one step, how draws are supplied, and the pointer defined again
afterwards are the model's choices (logs 1, 5, 13). -/
def Obligations.Rd32DeliversTheWholeSlot : Prop :=
  ∀ (s : State) (n : Node) (a : Byte), s.Ready n → (Instr.rd32 a).wellFormed = true →
    ∃ (rx : Received) (dev : Device) (draws : Nat),
      exec (.rd32 a) s = .next (s.afterCommand n
        { n.eng with
          op := .val 0b000#3, addr := .val a, wdata := .val 0#32
          rxacc := .val (rx[2] ++ rx[3] ++ rx[4] ++ rx[5]), rdata := .val (rx[2] ++ rx[3] ++ rx[4] ++ rx[5])
          phase := .idle, idx := 6#3, csN := true, busy := false, done := true }
        dev draws
        (frameEvents n.eng.busCfg #v[0x00#8, a, 0x00#8, 0x00#8, 0x00#8, 0x00#8]
          #v[.opc, .adr, .data, .data, .data, .data] rx)) ∧
      n.dev.Settled dev n.dev.regs ∧ (n.dev.reference = false → n.dev.OracleBytes s.draws rx)

/-- R92, R79: `RD16H` delivers the first two data bytes, sign-extended. Model's choices as for `RD32` (logs 1, 5, 13).
-/
def Obligations.Rd16hDeliversTheFirstHalf : Prop :=
  ∀ (s : State) (n : Node) (a : Byte), s.Ready n → (Instr.rd16h a).wellFormed = true →
    ∃ (rx : Received) (dev : Device) (draws : Nat),
      exec (.rd16h a) s = .next (s.afterCommand n
        { n.eng with
          op := .val 0b010#3, addr := .val a, wdata := .val 0#32
          rxacc := .val (0#16 ++ rx[2] ++ rx[3]), rdata := .val ((rx[2] ++ rx[3]).signExtend 32)
          phase := .idle, idx := 6#3, csN := true, busy := false, done := true }
        dev draws
        (frameEvents n.eng.busCfg #v[0x00#8, a, 0x00#8, 0x00#8, 0x00#8, 0x00#8]
          #v[.opc, .adr, .data, .data, .fill, .fill] rx)) ∧
      n.dev.Settled dev n.dev.regs ∧ (n.dev.reference = false → n.dev.OracleBytes s.draws rx)

/-- R93, R79: `RD16L` delivers the last two data bytes, sign-extended. Model's choices as for `RD32` (logs 1, 5, 13).
-/
def Obligations.Rd16lDeliversTheSecondHalf : Prop :=
  ∀ (s : State) (n : Node) (a : Byte), s.Ready n → (Instr.rd16l a).wellFormed = true →
    ∃ (rx : Received) (dev : Device) (draws : Nat),
      exec (.rd16l a) s = .next (s.afterCommand n
        { n.eng with
          op := .val 0b110#3, addr := .val a, wdata := .val 0#32
          rxacc := .val (0#16 ++ rx[4] ++ rx[5]), rdata := .val ((rx[4] ++ rx[5]).signExtend 32)
          phase := .idle, idx := 6#3, csN := true, busy := false, done := true }
        dev draws
        (frameEvents n.eng.busCfg #v[0x00#8, a, 0x00#8, 0x00#8, 0x00#8, 0x00#8]
          #v[.opc, .adr, .fill, .fill, .data, .data] rx)) ∧
      n.dev.Settled dev n.dev.regs ∧ (n.dev.reference = false → n.dev.OracleBytes s.draws rx)

/-- R101, R79, R46: `WR32` of a configuration register sends its payload most significant byte first, leaves `RDATA`
as it is, and the reference device's register then holds the payload. Model's choices as for `RD32` (logs 1, 5, 13).
-/
def Obligations.Wr32SendsItsPayload : Prop :=
  ∀ (s : State) (n : Node) (a : Byte) (v : Word), s.Ready n → (Instr.wr32 a v).wellFormed = true →
    ∃ (rx : Received) (dev : Device) (draws : Nat),
      exec (.wr32 a v) s = .next (s.afterCommand n
        { n.eng with
          op := .val 0b001#3, addr := .val a, wdata := .val v, rxacc := .val 0#32
          phase := .idle, idx := 6#3, csN := true, busy := false, done := true }
        dev draws
        (frameEvents n.eng.busCfg
          #v[0x01#8, a, v.extractLsb' 24 8, v.extractLsb' 16 8, v.extractLsb' 8 8, v.extractLsb' 0 8]
          #v[.opc, .adr, .pay, .pay, .pay, .pay] rx)) ∧
      n.dev.Settled dev
        (if n.dev.reference then
          n.dev.regs.writeSlot a (v.extractLsb' 24 8) (v.extractLsb' 16 8) (v.extractLsb' 8 8) (v.extractLsb' 0 8)
         else n.dev.regs) ∧
      (n.dev.reference = false → n.dev.OracleBytes s.draws rx)

/-- R102, R79: `WRCMD` of a command register sends a zero payload, leaves `RDATA` as it is, and has no modelled effect
on the register contents of the reference device (R46). Model's choices as for `RD32` (logs 1, 5, 13). -/
def Obligations.WrcmdSendsAZeroPayload : Prop :=
  ∀ (s : State) (n : Node) (a : Byte), s.Ready n → (Instr.wrcmd a).wellFormed = true →
    ∃ (rx : Received) (dev : Device) (draws : Nat),
      exec (.wrcmd a) s = .next (s.afterCommand n
        { n.eng with
          op := .val 0b011#3, addr := .val a, wdata := .val 0#32, rxacc := .val 0#32
          phase := .idle, idx := 6#3, csN := true, busy := false, done := true }
        dev draws
        (frameEvents n.eng.busCfg #v[0x01#8, a, 0x00#8, 0x00#8, 0x00#8, 0x00#8]
          #v[.opc, .adr, .pay, .pay, .pay, .pay] rx)) ∧
      n.dev.Settled dev n.dev.regs ∧ (n.dev.reference = false → n.dev.OracleBytes s.draws rx)

/-- R94: for the same register and the same device, the three reads put the same bytes on the wire, receive the same
bytes, leave the same device, and the 16-bit results are the sign-extended halves of the 32-bit one. The spec marks
the rule as derived. -/
def Obligations.ThreeReadsAreOneTransaction : Prop :=
  ∀ (s : State) (n : Node) (a : Byte), s.Ready n → (Instr.rd32 a).wellFormed = true →
    ∃ (v : Word) (t th tl : State) (m mh ml : Node),
      exec (.rd32 a) s = .next t ∧ exec (.rd16h a) s = .next th ∧ exec (.rd16l a) s = .next tl ∧
      t.insts[s.port]? = some m ∧ th.insts[s.port]? = some mh ∧ tl.insts[s.port]? = some ml ∧
      m.eng.rdata = .val v ∧ mh.eng.rdata = .val (sext32 (half v .high)) ∧ ml.eng.rdata = .val (sext32 (half v .low)) ∧
      m.dev = mh.dev ∧ m.dev = ml.dev ∧
      sentBytes (t.trace.map Prod.snd) = sentBytes (th.trace.map Prod.snd) ∧
      sentBytes (t.trace.map Prod.snd) = sentBytes (tl.trace.map Prod.snd)

/-- R103: `WRCMD a` and `WR32 a, 0` send the same bytes in the same roles, and no address lets both be accepted:
`WR32` needs a configuration register, `WRCMD` a command register. The spec marks the rule as derived. -/
def Obligations.TriggerAndZeroWriteAreOneFrame : Prop :=
  ∀ (a : Byte) (i : Nat),
    txByte (commandOrder (.wr32 a 0#32)).op (commandOrder (.wr32 a 0#32)).addr (commandOrder (.wr32 a 0#32)).wdata i =
      txByte (commandOrder (.wrcmd a)).op (commandOrder (.wrcmd a)).addr (commandOrder (.wrcmd a)).wdata i ∧
    roleOf (commandOrder (.wr32 a 0#32)).op i = roleOf (commandOrder (.wrcmd a)).op i ∧
    (check (.wr32 a 0#32) = .none ↔ kindOf a = .config) ∧ (check (.wrcmd a) = .none ↔ kindOf a = .command)

/-- R79: the blocking call is the accept step and sixteen steps of the instance, one after the other, whatever the
word, the bus and the transport are: accepted, rejected, waiting for the bus or stuck. The call as one step is the
model's form (log 1); this statement ties it to the small steps. -/
def Obligations.CallIsAcceptAndSixteenSteps : Prop :=
  ∀ (s : State) (k : Nat) (n : Node) (cw : CommandWord) (rest : List Move),
    s.insts[k]? = some n → n.eng.phase = .idle →
    steps 17 { s with agenda := ⟨k, .submit cw⟩ :: (List.replicate 16 ⟨k, .tick⟩ ++ rest) } =
      step { s with agenda := ⟨k, .call cw⟩ :: rest }

/-- R73, R154: an accepted command whose bus is owned by another instance waits in `ACQUIRE`, having emitted nothing.
That the call then ends in mid-command is the model's form of a host that still waits (log 1). -/
def Obligations.CallWaitsForTheBus : Prop :=
  ∀ (s : State) (n : Node) (i : Instr) (j : Nat),
    s.insts[s.port]? = some n → n.eng.phase = .idle → i.wellFormed = true → s.busOwner = some j →
    ∃ m : Node, exec i s = .next { s with insts := s.insts.set s.port m } ∧
      m.eng.phase = .acquire ∧ m.eng.busy = true ∧ m.eng.csN = n.eng.csN ∧ m.dev = n.dev ∧ m.eng.rdata = n.eng.rdata

/-- R81: an accepted command whose transport answers fewer than six exchanges stops in `EXCH` with `BUSY` set, select
low and the bus owned; what was exchanged before is in the trace. The transport's patience is a field of the model
(log 6). -/
def Obligations.HungCallStopsWithSelectLow : Prop :=
  ∀ (s : State) (n : Node) (i : Instr) (l : Nat),
    s.insts[s.port]? = some n → n.eng.phase = .idle → i.wellFormed = true → s.busOwner = none →
    n.dev.answersLeft = some l → l < 6 →
    ∃ (t : State) (m : Node), exec i s = .next t ∧ t.insts[s.port]? = some m ∧
      m.eng.phase = .exch ∧ m.eng.idx.toNat = l ∧ m.eng.busy = true ∧ m.eng.done = false ∧ m.eng.csN = false ∧
      m.eng.rdata = n.eng.rdata ∧ t.busOwner = some s.port ∧ t.trace.length = s.trace.length + 2 + 2 * l

/-- R81: an instance in `EXCH` whose transport gives no answer stays as it is, whatever the agents do: every step that is
not its reset leaves its engine and its device as they are, and so does every run with no reset of it to come. An
instance that waits in `ACQUIRE` for a bus that is owned stays as it is in every step that is not its own reset. That a
stuck state is one that a step leaves as it is, and how long the transport answers, is the model's choice (log 6). With
nothing to come, or with a held host's call or submit next, every number of steps leaves the whole state as it is; that
last clause rests on the model's choice that a held host also holds the moves listed behind it (log 4). -/
def Obligations.StuckInstanceStaysStuck : Prop :=
  (∀ (s t : State) (k : Nat) (n : Node),
    s.insts[k]? = some n → n.eng.phase = .exch → n.dev.answersLeft = some 0 →
    (∀ rest, s.agenda ≠ ⟨k, .reset⟩ :: rest) → step s = .next t →
    ∃ m : Node, t.insts[k]? = some m ∧ m.eng = n.eng ∧ m.dev = n.dev) ∧
  (∀ (s t : State) (k : Nat) (n : Node) (i : Nat),
    s.insts[k]? = some n → n.eng.phase = .exch → n.dev.answersLeft = some 0 →
    s.NoResetDuringRun k → steps i s = .next t →
    ∃ m : Node, t.insts[k]? = some m ∧ m.eng = n.eng ∧ m.dev = n.dev) ∧
  (∀ (s t : State) (j k : Nat) (n : Node),
    s.insts[j]? = some n → n.eng.phase = .acquire → s.busOwner = some k →
    (∀ rest, s.agenda ≠ ⟨j, .reset⟩ :: rest) → step s = .next t →
    ∃ m : Node, t.insts[j]? = some m ∧ m.eng = n.eng ∧ m.dev = n.dev) ∧
  (∀ (s : State) (k : Nat) (n : Node),
    s.busOwner = some k → s.insts[k]? = some n → n.eng.phase = .exch → n.dev.answersLeft = some 0 →
    (s.agenda = [] ∨ ∃ (j : Nat) (m : Node) (cw : CommandWord) (rest : List Move),
      (s.agenda = ⟨j, .call cw⟩ :: rest ∨ s.agenda = ⟨j, .submit cw⟩ :: rest) ∧ s.insts[j]? = some m ∧
        m.eng.phase ≠ .idle) →
    ∀ i : Nat, steps i s = .next s)

/-! ### Frames -/

/-- The frame of the reads (R90): at any state, in any outcome that is a next state, a read changes no other instance, no
byte of any device's memory, neither `BUSCFG` nor the agenda nor the port, writes `WDATA` with nothing but zero, and
touches `ERR` and `CAUSE` only if it is rejected. -/
def Obligations.ReadCommandFrame : Prop :=
  ∀ (i : Instr) (a : Byte) (s t : State), i = .rd32 a ∨ i = .rd16h a ∨ i = .rd16l a → exec i s = .next t →
    t.agenda = s.agenda ∧ t.port = s.port ∧ t.choices = s.choices ∧ t.chosen = s.chosen ∧
    t.insts.length = s.insts.length ∧
    (∀ j, j ≠ s.port → t.insts[j]? = s.insts[j]?) ∧
    ∀ n m : Node, s.insts[s.port]? = some n → t.insts[s.port]? = some m →
      m.eng.busCfg = n.eng.busCfg ∧
      (i.wellFormed = true → m.eng.err = n.eng.err ∧ m.eng.cause = n.eng.cause) ∧
      (m.eng.wdata = n.eng.wdata ∨ m.eng.wdata = .val 0#32) ∧
      (∀ cell : Nat, m.dev.regs.read cell = n.dev.regs.read cell) ∧
      m.dev.reference = n.dev.reference ∧ m.dev.fwId = n.dev.fwId ∧ m.replies = n.replies

/-- The frame of `WR32` (R100, R101): it changes no other instance, never `RDATA` nor `BUSCFG`, touches `ERR` and `CAUSE`
only if it is rejected, and every byte of its device's memory outside the four bytes of the addressed slot reads as
before; if it is rejected, or the device is no reference device, every byte does. -/
def Obligations.Wr32Frame : Prop :=
  ∀ (a : Byte) (v : Word) (s t : State), exec (.wr32 a v) s = .next t →
    t.agenda = s.agenda ∧ t.port = s.port ∧ t.choices = s.choices ∧ t.chosen = s.chosen ∧
    t.insts.length = s.insts.length ∧
    (∀ j, j ≠ s.port → t.insts[j]? = s.insts[j]?) ∧
    ∀ n m : Node, s.insts[s.port]? = some n → t.insts[s.port]? = some m →
      m.eng.rdata = n.eng.rdata ∧ m.eng.busCfg = n.eng.busCfg ∧
      ((Instr.wr32 a v).wellFormed = true → m.eng.err = n.eng.err ∧ m.eng.cause = n.eng.cause) ∧
      (∀ cell : Nat, (cell < cellKey a 0 ∨ cellKey a 3 < cell) → m.dev.regs.read cell = n.dev.regs.read cell) ∧
      ((Instr.wr32 a v).wellFormed = false ∨ n.dev.reference = false →
        ∀ cell : Nat, m.dev.regs.read cell = n.dev.regs.read cell) ∧
      m.dev.reference = n.dev.reference ∧ m.dev.fwId = n.dev.fwId ∧ m.replies = n.replies

/-- The frame of `WRCMD` (R100, R102): as that of `WR32`, and every byte of memory reads as before. -/
def Obligations.WrcmdFrame : Prop :=
  ∀ (a : Byte) (s t : State), exec (.wrcmd a) s = .next t →
    t.agenda = s.agenda ∧ t.port = s.port ∧ t.choices = s.choices ∧ t.chosen = s.chosen ∧
    t.insts.length = s.insts.length ∧
    (∀ j, j ≠ s.port → t.insts[j]? = s.insts[j]?) ∧
    ∀ n m : Node, s.insts[s.port]? = some n → t.insts[s.port]? = some m →
      m.eng.rdata = n.eng.rdata ∧ m.eng.busCfg = n.eng.busCfg ∧
      ((Instr.wrcmd a).wellFormed = true → m.eng.err = n.eng.err ∧ m.eng.cause = n.eng.cause) ∧
      (m.eng.wdata = n.eng.wdata ∨ m.eng.wdata = .val 0#32) ∧
      (∀ cell : Nat, m.dev.regs.read cell = n.dev.regs.read cell) ∧
      m.dev.reference = n.dev.reference ∧ m.dev.fwId = n.dev.fwId ∧ m.replies = n.replies

/-! ### The device -/

/-- R46, R114 law 4: with the reference device and a defined pointer, what `WR32` writes to a configuration register,
`RD32` of it then delivers, bit for bit, and the 16-bit reads its sign-extended halves. The call as one step is the
model's form (log 1). -/
def Obligations.ReferenceDeviceReadsBackWhatWasWritten : Prop :=
  ∀ (s : State) (n : Node) (a : Byte) (v : Word),
    s.Ready n → n.dev.TransportAnswers → n.dev.Conforms → kindOf a = .config →
    ∃ (t u uh ul : State) (m mh ml : Node),
      exec (.wr32 a v) s = .next t ∧ exec (.rd32 a) t = .next u ∧ exec (.rd16h a) t = .next uh ∧
      exec (.rd16l a) t = .next ul ∧
      u.insts[s.port]? = some m ∧ uh.insts[s.port]? = some mh ∧ ul.insts[s.port]? = some ml ∧
      m.eng.rdata = .val v ∧ mh.eng.rdata = .val ((v.extractLsb' 16 16).signExtend 32) ∧
      ml.eng.rdata = .val ((v.extractLsb' 0 16).signExtend 32)

/-- R46: the reference device, its pointer defined, answers a read of a command register with `FW_ID` where one is given,
and every other read outside the configuration range with a fresh draw. That a given `FW_ID` is answered at every command
address, where R46 leaves `FW_ID` or a draw and R134 asks for it at the firmware query alone, is the model's choice (log
23). The call as one step and the supply of draws are the model's form (logs 1, 5). -/
def Obligations.ReferenceDeviceAnswersByKind : Prop :=
  ∀ (s : State) (n : Node) (a : Byte),
    s.Ready n → n.dev.Conforms →
    (∀ v : Word, kindOf a = .command → n.dev.fwId = some v →
      ∃ (t : State) (m : Node), exec (.rd32 a) s = .next t ∧ t.insts[s.port]? = some m ∧ m.eng.rdata = .val v) ∧
    (kindOf a = .data ∨ kindOf a = .command ∧ n.dev.fwId = none →
      ∃ (t : State) (m : Node), exec (.rd32 a) s = .next t ∧ t.insts[s.port]? = some m ∧
        m.eng.rdata = .val (n.dev.oracleByte s.draws 2 ++ n.dev.oracleByte s.draws 3 ++ n.dev.oracleByte s.draws 4 ++
          n.dev.oracleByte s.draws 5))

/-- R45, R162: after an aborted transaction even the reference device answers a read with draws, whatever its
registers hold; the transaction restores its pointer. That this transaction restores the pointer is the spec's reading
of its source (log 13). -/
def Obligations.ReadAfterAbortIsUnconstrained : Prop :=
  ∀ (s : State) (n : Node) (a : Byte), s.Ready n → n.dev.pointerLost = true → (Instr.rd32 a).wellFormed = true →
    ∃ (t : State) (m : Node), exec (.rd32 a) s = .next t ∧ t.insts[s.port]? = some m ∧
      m.eng.rdata = .val (n.dev.oracleByte s.draws 2 ++ n.dev.oracleByte s.draws 3 ++ n.dev.oracleByte s.draws 4 ++
        n.dev.oracleByte s.draws 5) ∧
      m.dev.pointerLost = false

/-! ### Reset -/

/-- R27: the reset values of every element of every instance of a bus with any number of them, and the free bus; the
machine's reset state is such a bus with at least one instance, and after reset it waits: a step with nothing to come
leaves it as it is. -/
def Obligations.ResetValues : Prop :=
  (∀ (c k : Nat), k < c →
    (State.resetOf c).insts[k]?.map Node.eng = some
      { op := .nv, addr := .nv, wdata := .nv, rxacc := .nv, rdata := .nv, phase := .idle, idx := 0#3, csN := true
        busy := false, done := false, err := false, cause := .none
        busCfg := { clkHz := Config.clkHz k, bitOrder := .msbFirst, cpol := Config.cpol k, cpha := Config.cpha k } }) ∧
  (∀ c : Nat, (State.resetOf c).busOwner = none) ∧
  (∃ c : Nat, 0 < c ∧ State.reset = State.resetOf c) ∧ step State.reset = .next State.reset

/-- R160: the reset of an instance, in any phase: every element to its reset value, the bus freed if it was this
instance's, `CsHigh` if select was low and then `EndScope` if it owned the bus; the other instances are not touched.
That what the host was answered before stays with the host is the model's choice (log 20). -/
def Obligations.ResetRestoresEveryElement : Prop :=
  ∀ (s : State) (k : Nat) (n : Node) (rest : List Move),
    s.agenda = ⟨k, .reset⟩ :: rest → s.insts[k]? = some n →
    ∃ (dev : Device) (draws : Nat),
      step s = .next { s with
        insts := s.insts.set k
          { n with
            eng :=
              { op := .nv, addr := .nv, wdata := .nv, rxacc := .nv, rdata := .nv, phase := .idle, idx := 0#3
                csN := true, busy := false, done := false, err := false, cause := .none
                busCfg := { clkHz := Config.clkHz k, bitOrder := .msbFirst, cpol := Config.cpol k
                            cpha := Config.cpha k } }
            dev := dev }
        busOwner := if s.busOwner = some k then none else s.busOwner
        trace := s.trace ++ (if n.eng.csN = false then [(k, .csHigh)] else []) ++
          (if s.busOwner = some k then [(k, .endScope)] else [])
        draws := draws, port := k, agenda := rest }

/-- R162, R163: a reset while select is low leaves the device's pointer undefined, and of the device's memory at most
the slot an aborted write addresses can differ; a reset in any other phase leaves the device as it is. That the
aborted slot's bytes become free values is the model's form (log 12). -/
def Obligations.ResetAbortsOnlyWhileSelectIsLow : Prop :=
  ∀ (s t : State) (k : Nat) (n m : Node) (rest : List Move),
    s.agenda = ⟨k, .reset⟩ :: rest → s.insts[k]? = some n → step s = .next t → t.insts[k]? = some m →
    (n.eng.phase = .idle ∨ n.eng.phase = .acquire ∨ n.eng.phase = .select ∨ n.eng.phase = .release → m.dev = n.dev) ∧
    (n.eng.phase = .exch ∨ n.eng.phase = .gap ∨ n.eng.phase = .deselect →
      m.dev.pointerLost = true ∧
      ∀ cell : Nat, m.dev.regs.read cell = n.dev.regs.read cell ∨
        ∃ (op : BitVec 3) (a : Byte), n.eng.op = .val op ∧ n.eng.addr = .val a ∧ op.getLsbD 0 = true ∧
          kindOf a = .config ∧ cellKey a 0 ≤ cell ∧ cell ≤ cellKey a 3)

/-! ### The host's other actions -/

/-- R26, R28: the host reads `RDATA`, `STATUS`, `CAUSE` and `BUSCFG` in any phase, and nothing changes but that it has a
copy more; a read of `RDATA` that holds no value is the model fault. R82, R95: a host that waits for its result does the
same read when its command was accepted and is done. Where the command was rejected, or a reset ended it, it notes that
there is no result, which is the model's choice; that the wait and the read are one move is the model's form (log 24). -/
def Obligations.HostReadsChangeNothing : Prop :=
  ∀ (s : State) (k : Nat) (n : Node) (rest : List Move), s.insts[k]? = some n →
    (∀ v : Word, s.agenda = ⟨k, .readRdata⟩ :: rest → n.eng.rdata = .val v →
      step s = .next { s with insts := s.insts.set k { n with replies := n.replies ++ [.rdata v] }, port := k, agenda := rest }) ∧
    (s.agenda = ⟨k, .readRdata⟩ :: rest → n.eng.rdata = .nv → step s = .fault (.noValue .rdata)) ∧
    (s.agenda = ⟨k, .readStatus⟩ :: rest → ∃ v : Byte,
      step s = .next { s with insts := s.insts.set k { n with replies := n.replies ++ [.status v] }, port := k, agenda := rest } ∧
      v.getLsbD 0 = n.eng.busy ∧ v.getLsbD 1 = n.eng.done ∧ v.getLsbD 2 = n.eng.err ∧ v.extractLsb' 3 5 = 0#5) ∧
    (s.agenda = ⟨k, .readCause⟩ :: rest → ∃ v : BitVec 2,
      step s = .next { s with insts := s.insts.set k { n with replies := n.replies ++ [.cause v] }, port := k, agenda := rest } ∧
      (v = 0#2 ↔ n.eng.cause = .none) ∧ (v = 1#2 ↔ n.eng.cause = .illegalFunc) ∧
      (v = 2#2 ↔ n.eng.cause = .illegalAddr) ∧ (v = 3#2 ↔ n.eng.cause = .illegalAccess)) ∧
    (s.agenda = ⟨k, .readBusCfg⟩ :: rest →
      step s = .next { s with insts := s.insts.set k { n with replies := n.replies ++ [.busCfg n.eng.busCfg] }, port := k,
                              agenda := rest }) ∧
    (s.agenda = ⟨k, .collect⟩ :: rest → n.eng.phase = .idle →
      (∀ v : Word, n.verdict = some .accepted → n.eng.done = true → n.eng.rdata = .val v →
        step s = .next { s with insts := s.insts.set k { n with replies := n.replies ++ [.rdata v] }, port := k,
                                agenda := rest }) ∧
      (n.verdict = some .accepted → n.eng.done = true → n.eng.rdata = .nv → step s = .fault (.noValue .rdata)) ∧
      (n.verdict ≠ some .accepted ∨ n.eng.done = false →
        step s = .next { s with insts := s.insts.set k { n with replies := n.replies ++ [.noResult] }, port := k,
                                agenda := rest }))

/-- R23, R26: in `IDLE` the host writes one field of `BUSCFG`; the bit order stays. R23 allows "any positive value the
transport supports" for `CLK_HZ`; that the model accepts every positive value, supported or not, and of any width, is
the model's choice (log 17). -/
def Obligations.HostWritesBusCfgWhenIdle : Prop :=
  ∀ (s : State) (k : Nat) (n : Node) (rest : List Move), s.insts[k]? = some n → n.eng.phase = .idle →
    (∀ hz : Nat, 0 < hz → s.agenda = ⟨k, .writeClkHz hz⟩ :: rest →
      step s = .next { s with
        insts := s.insts.set k { n with eng := { n.eng with busCfg := { n.eng.busCfg with clkHz := hz } } }
        port := k, agenda := rest }) ∧
    (∀ b : Bool, s.agenda = ⟨k, .writeCpol b⟩ :: rest →
      step s = .next { s with
        insts := s.insts.set k { n with eng := { n.eng with busCfg := { n.eng.busCfg with cpol := b } } }
        port := k, agenda := rest }) ∧
    (∀ b : Bool, s.agenda = ⟨k, .writeCpha b⟩ :: rest →
      step s = .next { s with
        insts := s.insts.set k { n with eng := { n.eng with busCfg := { n.eng.busCfg with cpha := b } } }
        port := k, agenda := rest })

/-! ### Invariants and whole-machine rules -/

/-- R29, at reset: the invariant and the serialisation hold of a bus with any number of instances, which is in the
`ResetState` of R89. The spec marks the invariant as derived. -/
def Obligations.ResetMeetsTheInvariant : Prop :=
  (∀ c : Nat, (State.resetOf c).Inv ∧ (State.resetOf c).Serialised ∧ (State.resetOf c).ResetState) ∧
  State.reset.Inv ∧ State.reset.Serialised ∧ State.reset.ResetState

/-- R29 items 1, 2, 3, 5 and 7, R15, the canonical form of memory, and that a device's pointer stands where its
instance's index does (R45): from every state that meets the invariant, a step gives a state that meets it. The spec
marks items 1 to 7 as derived. -/
def Obligations.EveryStepKeepsTheInvariant : Prop :=
  ∀ s t : State, s.Inv → step s = .next t → t.Inv

/-- R29 items 4 and 6: in every state that meets the invariant, an instance whose select is low owns the bus, and at
most one instance has its select low. The spec marks both items as derived. -/
def Obligations.AtMostOneSelectIsLow : Prop :=
  ∀ s : State, s.Inv →
    (∀ (k : Nat) (n : Node), s.insts[k]? = some n → n.eng.csN = false → s.busOwner = some k) ∧
    (∀ (j k : Nat) (m n : Node), s.insts[j]? = some m → s.insts[k]? = some n → m.eng.csN = false → n.eng.csN = false →
      j = k)

/-- R43, R79, R80, R84: the merged trace of the bus is always one the monitor accepts: each instance's block from
`BeginScope` to `EndScope` is contiguous, select is driven and bytes are exchanged only inside it, the exchanges are
numbered from 0 in order, each followed by its gap unless a reset cuts the block short there; and the trace ends where
the instances stand. A step that is no reset adds only events of whole transactions: select rises only after six
exchanges with their gaps, and the scope closes only after that. -/
def Obligations.EveryStepKeepsTheBusSerialised : Prop :=
  ∀ s t : State, s.Inv → s.Serialised → step s = .next t →
    t.Serialised ∧
    ((∀ (k : Nat) (rest : List Move), s.agenda ≠ ⟨k, .reset⟩ :: rest) →
      ∃ es : List (Nat × Event), t.trace = s.trace ++ es ∧ Wire.runWhole s.wire es = some t.wire)

/-- R28: from a state that meets the invariant the only faults are the host's read of a valueless `RDATA`, on its own or
after a wait that ended with `DONE` set, and the next move where it names an instance that is not there: no step of an
instance, and no passing of time, faults. The second fault is the model's (log 18). -/
def Obligations.OnlyAnEarlyReadOfRdataFaults : Prop :=
  ∀ (s : State) (f : Fault), s.Inv → step s = .fault f →
    (∃ (k : Nat) (n : Node) (rest : List Move), s.insts[k]? = some n ∧ n.eng.rdata = .nv ∧ f = .noValue .rdata ∧
      (s.agenda = ⟨k, .readRdata⟩ :: rest ∨
        s.agenda = ⟨k, .collect⟩ :: rest ∧ n.eng.phase = .idle ∧ n.verdict = some .accepted ∧ n.eng.done = true)) ∨
    (∃ (k : Nat) (act : Act) (rest : List Move), s.agenda = ⟨k, act⟩ :: rest ∧ s.insts.length ≤ k ∧
      f = .noSuchInstance k)

/-- R21, R149, R160: only the reset of an instance clears its `ERR`. -/
def Obligations.OnlyResetClearsErr : Prop :=
  ∀ (s t : State) (k : Nat) (n m : Node), step s = .next t → s.insts[k]? = some n → t.insts[k]? = some m →
    n.eng.err = true → m.eng.err = false → ∃ rest : List Move, s.agenda = ⟨k, .reset⟩ :: rest

/-- R17, R20, R170: `RDATA` changes only by the reset of its instance or by a read that completes: by the release step of an
instance whose `OP` is a read's, or by a blocking call of a read command that passed the check; afterwards the instance is
idle with `DONE` set and the read's `OP`. The call as one step is the model's form (log 1). -/
def Obligations.RdataChangesOnlyWhenAReadCompletes : Prop :=
  ∀ (s t : State) (k : Nat) (n m : Node), step s = .next t → s.insts[k]? = some n → t.insts[k]? = some m →
    m.eng.rdata ≠ n.eng.rdata →
    (∃ rest : List Move, s.agenda = ⟨k, .reset⟩ :: rest) ∨
    (m.eng.phase = .idle ∧ m.eng.done = true ∧
      ∃ op : BitVec 3, (op = 0b000#3 ∨ op = 0b010#3 ∨ op = 0b110#3) ∧ m.eng.op = .val op ∧
        (n.eng.phase = .release ∧ n.eng.op = .val op ∨
          n.eng.phase = .idle ∧ ∃ (cw : CommandWord) (rest : List Move) (i : Instr),
            s.agenda = ⟨k, .call cw⟩ :: rest ∧ decode cw = .ok i ∧ i.wellFormed = true ∧
              (∃ a : Byte, i = .rd32 a ∨ i = .rd16h a ∨ i = .rd16l a)))

/-- R23, R173: `BUSCFG` changes only by the host's write, and then only in `IDLE`, or by the reset of its instance. -/
def Obligations.BusCfgChangesOnlyByItsHost : Prop :=
  ∀ (s t : State) (k : Nat) (n m : Node), step s = .next t → s.insts[k]? = some n → t.insts[k]? = some m →
    m.eng.busCfg ≠ n.eng.busCfg →
    ∃ (act : Act) (rest : List Move), s.agenda = ⟨k, act⟩ :: rest ∧
      (act = .reset ∨ (n.eng.phase = .idle ∧
        ((∃ hz, act = .writeClkHz hz) ∨ (∃ b, act = .writeCpol b) ∨ (∃ b, act = .writeCpha b))))

/-- R153, R10: one step concerns one instance, that of its move: every other instance, its engine, its device and what
its host knows, is as it was, and the number of instances does not change. Where no move is to come, or the next one's
host is held, the step is one of the instance whose turn it is, or of none, which is the model's choice (logs 9, 27). -/
def Obligations.AStepConcernsOneInstance : Prop :=
  ∀ s t : State, step s = .next t →
    t.insts.length = s.insts.length ∧ ∀ j : Nat, s.mover ≠ some j → t.insts[j]? = s.insts[j]?

/-- R25, R70: the trace only grows. -/
def Obligations.TheTraceOnlyGrows : Prop :=
  ∀ s t : State, step s = .next t → s.trace <+: t.trace

/-- R89, R61: a run of commands at a ready instance whose transport answers ends after one step each: the agenda is
what stood behind the run, every accepted command has added its sixteen events and no rejected one any, and `ERR` is
set exactly if it was or a command was rejected. Before its first step the run has not ended; after its last it has, if
no further command of the instance stands behind it. The agenda, and the call as one step, are the model's form (logs 1,
2); `ArbiterFair` is no premise of this clause, since a call at a free bus takes it, whoever else waits, which is the model's
choice (log 27). R89, R154: a run submitted step by step, whoever owns the bus or waits for it before any of its commands,
ends too, under the premises `TransportAnswers` of every instance and, with more than one instance, `ArbiterFair`, of which
it takes the part it needs: a choice of the instance for each accepted command. Its events in the trace are then sixteen more
per accepted command. That time passes where a submit is held or nothing is to come is the model's choice (logs 4, 9). -/
def Obligations.ARunOfCommandsEnds : Prop :=
  (∀ (l : List Instr) (s : State) (n : Node) (rest : List Move),
    s.Ready n → n.dev.TransportAnswers → s.agenda = script s.port l ++ rest →
    (l ≠ [] → s.runEnded s.port = false) ∧
    ∃ (t : State) (m : Node), steps l.length s = .next t ∧ t.insts[s.port]? = some m ∧
      t.agenda = rest ∧ t.busOwner = none ∧ m.eng.phase = .idle ∧
      (l ≠ [] → (∀ x ∈ rest, x.who = s.port → x.act.submits = false) → t.runEnded s.port = true) ∧
      t.trace.length = s.trace.length + 16 * (l.countP Instr.wellFormed) ∧
      m.eng.err = (n.eng.err || l.any (fun i => !i.wellFormed))) ∧
  (∀ (l : List Instr) (s : State) (k : Nat) (n : Node),
    s.Inv → s.insts[k]? = some n → n.eng.phase = .idle → s.TransportsAnswer →
    (1 < s.insts.length → s.ArbiterChooses k (l.countP Instr.wellFormed)) → s.agenda = submissions k l →
    ∃ (c : Nat) (t : State) (m : Node), steps c s = .next t ∧ t.insts[k]? = some m ∧
      t.agenda = [] ∧ m.eng.phase = .idle ∧ (l ≠ [] → t.runEnded k = true) ∧
      t.trace.countP (fun e => e.1 == k) = s.trace.countP (fun e => e.1 == k) + 16 * (l.countP Instr.wellFormed) ∧
      m.eng.err = (n.eng.err || l.any (fun i => !i.wellFormed)))

/-- R95, R136: a host that runs `RD16PAIR` at a ready instance makes two transactions, each with its own select bracket,
and copies `RDATA` after each, so that it has both sign-extended halves; an oracle's bytes are twelve draws. And a host
that runs any list of accepted commands this way makes one transaction of each and has a copy of what each read
delivered, in order; an oracle's bytes are draws, six to a command. R82, R89, R154: whoever owns the bus or waits for it, a
host that runs such a list, the first command a read, still gets these copies under the premises `TransportAnswers` of
every instance and, with more than one instance, `ArbiterFair`, of which it takes one choice of the instance: before its first transaction come only events of other
instances, and no copy is taken before its end. The call and the wait as one move, the agenda and how draws are supplied
are the model's form (logs 1, 2, 5, 24), the list of copies too (log 20); that a held host holds the moves behind it and
that a call takes a free bus are its choices (logs 4, 27). -/
def Obligations.TheHostCopiesEveryResult : Prop :=
  (∀ (s : State) (n : Node) (kind : ValueKind) (a : Byte) (rest : List Move),
    s.Ready n → n.dev.TransportAnswers → (Instr.rd16h a).wellFormed = true →
    s.agenda = fetchMoves s.port (readPair kind a) ++ rest →
    ∃ (rx ry : Received) (t : State) (m : Node), steps 4 s = .next t ∧ t.insts[s.port]? = some m ∧ t.agenda = rest ∧
      m.replies = n.replies ++
        [.rdata ((rx[2] ++ rx[3] : HalfWord).signExtend 32), .rdata ((ry[4] ++ ry[5] : HalfWord).signExtend 32)] ∧
      t.trace = s.trace ++
        (frameEvents n.eng.busCfg #v[0x00#8, a, 0x00#8, 0x00#8, 0x00#8, 0x00#8]
          #v[.opc, .adr, .data, .data, .fill, .fill] rx ++
         frameEvents n.eng.busCfg #v[0x00#8, a, 0x00#8, 0x00#8, 0x00#8, 0x00#8]
          #v[.opc, .adr, .fill, .fill, .data, .data] ry).map (fun e => (s.port, e)) ∧
      (n.dev.reference = false → ∀ i : Fin 6,
        rx[i] = n.dev.oracleByte s.draws i.val ∧ ry[i] = n.dev.oracleByte s.draws (6 + i.val))) ∧
  (∀ (l : List Fetch) (s : State) (n : Node) (rest : List Move),
    s.Ready n → n.dev.TransportAnswers → (∀ f ∈ l, f.cmd.wellFormed = true) →
    s.agenda = fetchMoves s.port l ++ rest →
    ∃ (rxs : List Received) (t : State) (m : Node), rxs.length = l.length ∧
      steps (fetchMoves s.port l).length s = .next t ∧ t.insts[s.port]? = some m ∧ t.agenda = rest ∧
      m.eng.err = n.eng.err ∧ m.replies = n.replies ++ fetchCopies (l.zip rxs) ∧
      t.trace = s.trace ++ (fetchEvents n.eng.busCfg (l.zip rxs)).map (fun e => (s.port, e)) ∧
      (n.dev.reference = false → ∀ (q : Nat) (rx : Received), rxs[q]? = some rx →
        ∀ i : Fin 6, rx[i] = n.dev.oracleByte s.draws (6 * q + i.val))) ∧
  (∀ (f : Fetch) (l : List Fetch) (s : State) (n : Node) (rest : List Move),
    s.Inv → s.insts[s.port]? = some n → n.eng.phase = .idle → s.TransportsAnswer →
    (1 < s.insts.length → s.ArbiterChooses s.port 1) →
    f.isRead = true → (∀ g ∈ f :: l, g.cmd.wellFormed = true) →
    s.agenda = fetchMoves s.port (f :: l) ++ rest →
    ∃ (i : Nat) (rxs : List Received) (es : List (Nat × Event)) (t : State) (m : Node),
      rxs.length = l.length + 1 ∧ steps i s = .next t ∧ t.insts[s.port]? = some m ∧ t.agenda = rest ∧
      m.eng.phase = .idle ∧ t.busOwner = none ∧
      m.replies = n.replies ++ fetchCopies ((f :: l).zip rxs) ∧
      (∀ e ∈ es, e.1 ≠ s.port) ∧
      t.trace = s.trace ++ es ++
        (fetchEvents n.eng.busCfg ((f :: l).zip rxs)).map (fun e => (s.port, e)))

/-- R118: the decode of a single changes no bit: two patterns that stand for the same value are the same pattern, NaNs and
the two zeros included. The layout of the pattern is general knowledge, not the spec's source's (log 16). -/
def Obligations.SinglesLoseNoBit : Prop :=
  ∀ w w' : Word, f32 w = f32 w' → w = w'
end

