-- ==== Sys2Proof/Laws/Compose.lean ====
section
/-! SUPPORT. The composition functions and the fields of the command word, bit by bit, and the receive accumulator after a
row of `DATA` exchanges. -/

namespace Sys2Proof.Machine

/-- The bits of `BE16`. -/
theorem getLsbD_be16 (b1 b0 : Byte) (i : Nat) :
    (be16 b1 b0).getLsbD i = if i < 8 then b0.getLsbD i else b1.getLsbD (i - 8) := by
  change (b1 ++ b0 : BitVec (8 + 8)).getLsbD i = _
  simp only [BitVec.getLsbD_append]

/-- The bits of `BE32`. -/
theorem getLsbD_be32 (b3 b2 b1 b0 : Byte) (i : Nat) :
    (be32 b3 b2 b1 b0).getLsbD i =
      if i < 8 then b0.getLsbD i else if i < 16 then b1.getLsbD (i - 8)
      else if i < 24 then b2.getLsbD (i - 16) else b3.getLsbD (i - 24) := by
  change (b3 ++ b2 ++ b1 ++ b0 : BitVec (8 + 8 + 8 + 8)).getLsbD i = _
  simp only [BitVec.getLsbD_append]
  by_cases h0 : i < 8
  · simp [h0]
  by_cases h1 : i < 16
  · rw [if_neg h0, if_neg h0, if_pos h1, if_pos (by omega)]
  by_cases h2 : i < 24
  · rw [if_neg h0, if_neg h0, if_neg h1, if_pos h2, if_neg (by omega), if_pos (by omega), show i - 8 - 8 = i - 16 by omega]
  · rw [if_neg h0, if_neg h0, if_neg h1, if_neg h2, if_neg (by omega), if_neg (by omega),
      show i - 8 - 8 - 8 = i - 24 by omega]

/-- The bits of two halves put together. -/
theorem getLsbD_halves (h l : HalfWord) (i : Nat) :
    (h ++ l : Word).getLsbD i = if i < 16 then l.getLsbD i else h.getLsbD (i - 16) := by
  simp only [BitVec.getLsbD_append]

/-- The bits of the accumulator after a byte has been shifted in. -/
theorem getLsbD_shiftIn (acc : Word) (b : Byte) {i : Nat} (hi : i < 32) :
    (shiftIn acc b).getLsbD i = if i < 8 then b.getLsbD i else acc.getLsbD (i - 8) := by
  change (acc.extractLsb' 0 24 ++ b : BitVec (24 + 8)).getLsbD i = _
  simp only [BitVec.getLsbD_append, BitVec.getLsbD_extractLsb']
  split
  · rfl
  · rw [decide_eq_true (by omega : i - 8 < 24), Bool.true_and, Nat.zero_add]

/-- Four bytes shifted into an accumulator that was cleared (40_transaction_sequence.md R86). -/
theorem shiftIn_four (b3 b2 b1 b0 : Byte) :
    shiftIn (shiftIn (shiftIn (shiftIn 0#32 b3) b2) b1) b0 = be32 b3 b2 b1 b0 := by
  apply BitVec.eq_of_getLsbD_eq
  intro i hi
  rw [getLsbD_be32, getLsbD_shiftIn _ _ hi]
  split
  · rfl
  · rw [getLsbD_shiftIn _ _ (by omega)]
    by_cases h1 : i < 16
    · rw [if_pos h1, if_pos (by omega)]
    · rw [if_neg h1, if_neg (by omega), getLsbD_shiftIn _ _ (by omega)]
      by_cases h2 : i < 24
      · rw [if_pos h2, if_pos (by omega), show i - 8 - 8 = i - 16 by omega]
      · rw [if_neg h2, if_neg (by omega), getLsbD_shiftIn _ _ (by omega), if_pos (by omega),
          show i - 8 - 8 - 8 = i - 24 by omega]

/-- Two bytes shifted into an accumulator that was cleared. -/
theorem shiftIn_two (b1 b0 : Byte) : shiftIn (shiftIn 0#32 b1) b0 = be32 0#8 0#8 b1 b0 := by
  rw [← shiftIn_four]
  congr 2

/-- The low half of the accumulator after two bytes. -/
theorem half_low_be32 (b3 b2 b1 b0 : Byte) : half (be32 b3 b2 b1 b0) .low = be16 b1 b0 := by
  apply BitVec.eq_of_getLsbD_eq
  intro i hi
  rw [half, BitVec.getLsbD_extractLsb', decide_eq_true hi, Bool.true_and, Nat.zero_add, getLsbD_be32, getLsbD_be16]
  by_cases h : i < 8
  · rw [if_pos h, if_pos h]
  · rw [if_neg h, if_neg h, if_pos (by omega)]

/-- The high half of four bytes. -/
theorem half_high_be32 (b3 b2 b1 b0 : Byte) : half (be32 b3 b2 b1 b0) .high = be16 b3 b2 := by
  apply BitVec.eq_of_getLsbD_eq
  intro i hi
  rw [half, BitVec.getLsbD_extractLsb', decide_eq_true hi, Bool.true_and, getLsbD_be32, getLsbD_be16]
  rw [if_neg (by omega), if_neg (by omega)]
  by_cases h : i < 8
  · rw [if_pos h, if_pos (by omega), show 16 + i - 16 = i by omega]
  · rw [if_neg h, if_neg (by omega), show 16 + i - 24 = i - 8 by omega]

/-- The fields of a command word put together from its fields. -/
theorem commandWord_fields (f a : Byte) (d : Word) :
    funcField (commandWord f a d) = f ∧ addrField (commandWord f a d) = a ∧ dataField (commandWord f a d) = d := by
  have key : ∀ i, (commandWord f a d).getLsbD i =
      if i < 32 then d.getLsbD i else if i - 32 < 8 then a.getLsbD (i - 32) else f.getLsbD (i - 32 - 8) := by
    intro i
    change (f ++ a ++ d : BitVec (8 + 8 + 32)).getLsbD i = _
    simp only [BitVec.getLsbD_append]
  refine ⟨?_, ?_, ?_⟩ <;> apply BitVec.eq_of_getLsbD_eq <;> intro i hi
  · rw [funcField, BitVec.getLsbD_extractLsb', decide_eq_true hi, Bool.true_and, key, if_neg (by omega), if_neg (by omega),
      show 40 + i - 32 - 8 = i by omega]
  · rw [addrField, BitVec.getLsbD_extractLsb', decide_eq_true hi, Bool.true_and, key, if_neg (by omega), if_pos (by omega),
      show 32 + i - 32 = i by omega]
  · rw [dataField, BitVec.getLsbD_extractLsb', decide_eq_true hi, Bool.true_and, key, if_pos (by omega), Nat.zero_add]

end Sys2Proof.Machine
end

