-- ==== Sys2Proof/Laws/Memory.lean ====
section
/-! SUPPORT. Reading and writing register bytes, and the canonical form. -/

namespace Sys2Proof.Machine

/-- A read after a write to the same byte gives the byte written. -/
@[simp] theorem read_write_same (m : Memory) (a : Nat) (b : Byte) : (m.write a b).read a = some b := by
  induction m with
  | nil => simp [Memory.write, Memory.read]
  | cons e m ih =>
    obtain ⟨k, c⟩ := e
    simp only [Memory.write]
    split
    · simp [Memory.read]
    · split
      · simp [Memory.read]
      · rename_i h
        simp [Memory.read, Ne.symm h, ih]

/-- A write leaves every other byte alone. -/
theorem read_write_other (m : Memory) {a c : Nat} (b : Byte) (h : c ≠ a) : (m.write a b).read c = m.read c := by
  induction m with
  | nil => simp [Memory.write, Memory.read, Ne.symm h]
  | cons e m ih =>
    obtain ⟨k, d⟩ := e
    simp only [Memory.write]
    split
    · simp [Memory.read, Ne.symm h]
    · split
      · rename_i hk; subst hk; simp [Memory.read, Ne.symm h]
      · simp [Memory.read, ih]

/-- A write above a bound keeps the keys rising from it. -/
theorem write_risingFrom {m : Memory} {a : Nat} (b : Byte) {lo : Option Nat} (hlo : ∀ l ∈ lo, l < a)
    (h : Memory.risingFrom lo m = true) : Memory.risingFrom lo (m.write a b) = true := by
  induction m generalizing lo with
  | nil => cases lo <;> simp_all [Memory.write, Memory.risingFrom]
  | cons e m ih =>
    obtain ⟨k, c⟩ := e
    have hm : Memory.risingFrom (some k) m = true := by cases lo <;> simp_all [Memory.risingFrom]
    have hk : ∀ l ∈ lo, l < k := by cases lo <;> simp_all [Memory.risingFrom]
    simp only [Memory.write]
    split
    · cases lo <;> simp_all [Memory.risingFrom]
    · split
      · cases lo <;> simp_all [Memory.risingFrom]
      · have := ih (lo := some k) (by simp; omega) hm
        cases lo <;> simp_all [Memory.risingFrom]

/-- A write keeps the canonical form. -/
theorem write_wf {m : Memory} (a : Nat) (b : Byte) (h : m.wf = true) : (m.write a b).wf = true :=
  write_risingFrom b (by simp) h

/-- Recording a slot keeps the canonical form. -/
theorem writeSlot_wf {m : Memory} (a b3 b2 b1 b0 : Byte) (h : m.wf = true) : (m.writeSlot a b3 b2 b1 b0).wf = true :=
  write_wf _ _ (write_wf _ _ (write_wf _ _ (write_wf _ _ h)))

/-- A slot reads back byte by byte. -/
theorem read_writeSlot_same (m : Memory) (a b3 b2 b1 b0 : Byte) :
    (m.writeSlot a b3 b2 b1 b0).read (cellKey a 0) = some b3 ∧
    (m.writeSlot a b3 b2 b1 b0).read (cellKey a 1) = some b2 ∧
    (m.writeSlot a b3 b2 b1 b0).read (cellKey a 2) = some b1 ∧
    (m.writeSlot a b3 b2 b1 b0).read (cellKey a 3) = some b0 := by
  refine ⟨?_, ?_, ?_, ?_⟩ <;> unfold Memory.writeSlot <;>
    simp [read_write_other, cellKey]

/-- Recording a slot leaves the bytes of every other slot alone. -/
theorem read_writeSlot_other (m : Memory) (a b3 b2 b1 b0 : Byte) {c : Nat}
    (h : c < cellKey a 0 ∨ cellKey a 3 < c) : (m.writeSlot a b3 b2 b1 b0).read c = m.read c := by
  unfold Memory.writeSlot
  simp only [cellKey] at *
  rw [read_write_other, read_write_other, read_write_other, read_write_other] <;> omega

end Sys2Proof.Machine
end

