-- ==== Sys2Proof/Laws/State.lean ====
section
/-! SUPPORT. The small lemmas of the state's updates, so that no later proof unfolds a record update. -/

namespace Sys2Proof.Machine

section PutNode
variable (s : State) (k : Nat) (n : Node)

@[simp] theorem putNode_insts : (s.putNode k n).insts = s.insts.set k n := rfl
@[simp] theorem putNode_busOwner : (s.putNode k n).busOwner = s.busOwner := rfl
@[simp] theorem putNode_trace : (s.putNode k n).trace = s.trace := rfl
@[simp] theorem putNode_draws : (s.putNode k n).draws = s.draws := rfl
@[simp] theorem putNode_port : (s.putNode k n).port = s.port := rfl
@[simp] theorem putNode_agenda : (s.putNode k n).agenda = s.agenda := rfl
@[simp] theorem putNode_choices : (s.putNode k n).choices = s.choices := rfl
@[simp] theorem putNode_chosen : (s.putNode k n).chosen = s.chosen := rfl

end PutNode

section Emit
variable (s : State) (k : Nat) (e : Event)

@[simp] theorem emit_insts : (s.emit k e).insts = s.insts := rfl
@[simp] theorem emit_busOwner : (s.emit k e).busOwner = s.busOwner := rfl
@[simp] theorem emit_trace : (s.emit k e).trace = s.trace ++ [(k, e)] := rfl
@[simp] theorem emit_draws : (s.emit k e).draws = s.draws := rfl
@[simp] theorem emit_port : (s.emit k e).port = s.port := rfl
@[simp] theorem emit_agenda : (s.emit k e).agenda = s.agenda := rfl
@[simp] theorem emit_choices : (s.emit k e).choices = s.choices := rfl
@[simp] theorem emit_chosen : (s.emit k e).chosen = s.chosen := rfl

end Emit

section Own
variable (s : State) (o : Option Nat)

@[simp] theorem own_insts : (s.own o).insts = s.insts := rfl
@[simp] theorem own_busOwner : (s.own o).busOwner = o := rfl
@[simp] theorem own_trace : (s.own o).trace = s.trace := rfl
@[simp] theorem own_draws : (s.own o).draws = s.draws := rfl
@[simp] theorem own_port : (s.own o).port = s.port := rfl
@[simp] theorem own_agenda : (s.own o).agenda = s.agenda := rfl
@[simp] theorem own_choices : (s.own o).choices = s.choices := rfl
@[simp] theorem own_chosen : (s.own o).chosen = s.chosen := rfl

end Own

section Begin
variable (s : State) (m : Move) (rest : List Move)

@[simp] theorem begin_insts : (s.begin m rest).insts = s.insts := rfl
@[simp] theorem begin_busOwner : (s.begin m rest).busOwner = s.busOwner := rfl
@[simp] theorem begin_trace : (s.begin m rest).trace = s.trace := rfl
@[simp] theorem begin_draws : (s.begin m rest).draws = s.draws := rfl
@[simp] theorem begin_port : (s.begin m rest).port = m.who := rfl
@[simp] theorem begin_agenda : (s.begin m rest).agenda = rest := rfl
@[simp] theorem begin_choices : (s.begin m rest).choices = s.choices := rfl
@[simp] theorem begin_chosen : (s.begin m rest).chosen = s.chosen := rfl

end Begin

section AfterChoice
variable (s : State)

@[simp] theorem afterChoice_insts : s.afterChoice.insts = s.insts := by unfold State.afterChoice; split <;> rfl
@[simp] theorem afterChoice_busOwner : s.afterChoice.busOwner = s.busOwner := by unfold State.afterChoice; split <;> rfl
@[simp] theorem afterChoice_trace : s.afterChoice.trace = s.trace := by unfold State.afterChoice; split <;> rfl
@[simp] theorem afterChoice_draws : s.afterChoice.draws = s.draws := by unfold State.afterChoice; split <;> rfl
@[simp] theorem afterChoice_port : s.afterChoice.port = s.port := by unfold State.afterChoice; split <;> rfl
@[simp] theorem afterChoice_agenda : s.afterChoice.agenda = s.agenda := by unfold State.afterChoice; split <;> rfl

/-- The choices to come after one has been made. -/
@[simp] theorem afterChoice_choice (i : Nat) : s.afterChoice.choice i = s.choice (i + 1) := by
  unfold State.afterChoice State.choice
  split
  · next c cs h => simp [h]
  · next h => simp [h, Nat.add_assoc, Nat.add_comm 1]

end AfterChoice

section Engine
variable (e : Engine) (o : Order) (c : Cause) (d : Latch 32)

@[simp] theorem accept_op : (e.accept o).op = .val o.op := rfl
@[simp] theorem accept_addr : (e.accept o).addr = .val o.addr := rfl
@[simp] theorem accept_wdata : (e.accept o).wdata = .val o.wdata := rfl
@[simp] theorem accept_rxacc : (e.accept o).rxacc = .val 0#32 := rfl
@[simp] theorem accept_rdata : (e.accept o).rdata = e.rdata := rfl
@[simp] theorem accept_phase : (e.accept o).phase = .acquire := rfl
@[simp] theorem accept_idx : (e.accept o).idx = 0#3 := rfl
@[simp] theorem accept_csN : (e.accept o).csN = e.csN := rfl
@[simp] theorem accept_busy : (e.accept o).busy = true := rfl
@[simp] theorem accept_done : (e.accept o).done = false := rfl
@[simp] theorem accept_err : (e.accept o).err = e.err := rfl
@[simp] theorem accept_cause : (e.accept o).cause = e.cause := rfl
@[simp] theorem accept_busCfg : (e.accept o).busCfg = e.busCfg := rfl

@[simp] theorem reject_op : (e.reject c).op = e.op := rfl
@[simp] theorem reject_addr : (e.reject c).addr = e.addr := rfl
@[simp] theorem reject_wdata : (e.reject c).wdata = e.wdata := rfl
@[simp] theorem reject_rxacc : (e.reject c).rxacc = e.rxacc := rfl
@[simp] theorem reject_rdata : (e.reject c).rdata = e.rdata := rfl
@[simp] theorem reject_phase : (e.reject c).phase = e.phase := rfl
@[simp] theorem reject_idx : (e.reject c).idx = e.idx := rfl
@[simp] theorem reject_csN : (e.reject c).csN = e.csN := rfl
@[simp] theorem reject_busy : (e.reject c).busy = e.busy := rfl
@[simp] theorem reject_done : (e.reject c).done = e.done := rfl
@[simp] theorem reject_err : (e.reject c).err = true := rfl
@[simp] theorem reject_cause : (e.reject c).cause = c := rfl
@[simp] theorem reject_busCfg : (e.reject c).busCfg = e.busCfg := rfl

@[simp] theorem released_op : (e.released d).op = e.op := rfl
@[simp] theorem released_addr : (e.released d).addr = e.addr := rfl
@[simp] theorem released_wdata : (e.released d).wdata = e.wdata := rfl
@[simp] theorem released_rxacc : (e.released d).rxacc = e.rxacc := rfl
@[simp] theorem released_rdata : (e.released d).rdata = d := rfl
@[simp] theorem released_phase : (e.released d).phase = .idle := rfl
@[simp] theorem released_idx : (e.released d).idx = e.idx := rfl
@[simp] theorem released_csN : (e.released d).csN = e.csN := rfl
@[simp] theorem released_busy : (e.released d).busy = false := rfl
@[simp] theorem released_done : (e.released d).done = true := rfl
@[simp] theorem released_err : (e.released d).err = e.err := rfl
@[simp] theorem released_cause : (e.released d).cause = e.cause := rfl
@[simp] theorem released_busCfg : (e.released d).busCfg = e.busCfg := rfl

end Engine

section Node
variable (n : Node) (e : Engine)

@[simp] theorem setEng_eng : (n.setEng e).eng = e := rfl
@[simp] theorem setEng_dev : (n.setEng e).dev = n.dev := rfl
@[simp] theorem setEng_verdict : (n.setEng e).verdict = n.verdict := rfl
@[simp] theorem setEng_replies : (n.setEng e).replies = n.replies := rfl

end Node

/-- Putting an instance back over an instance put back. -/
@[simp] theorem putNode_putNode (s : State) (k : Nat) (n m : Node) : (s.putNode k n).putNode k m = s.putNode k m := by
  simp [State.putNode]

/-- The instance put back is there, if the bus has it. -/
theorem getElem_set_self {s : State} {k : Nat} {n m : Node} (h : s.insts[k]? = some n) :
    (s.insts.set k m)[k]? = some m := by
  have := (List.getElem?_eq_some_iff.mp h).1
  simp [this]

/-- Every other instance is as it was. -/
theorem getElem_set_other {s : State} {k j : Nat} (m : Node) (h : j ≠ k) : (s.insts.set k m)[j]? = s.insts[j]? := by
  simp [Ne.symm h]

/-- The instances of a reset bus, each at its place. -/
theorem resetFrom_getElem (k c j : Nat) : (Node.resetFrom k c)[j]? = if j < c then some (Node.reset (k + j)) else none := by
  induction c generalizing k j with
  | zero => simp [Node.resetFrom]
  | succ c ih =>
    cases j with
    | zero => simp [Node.resetFrom]
    | succ j => simp [Node.resetFrom, ih, Nat.add_assoc, Nat.add_comm 1 j]

/-- An instance of a reset bus is in its reset state. -/
theorem resetOf_getElem (c j : Nat) : (State.resetOf c).insts[j]? = if j < c then some (Node.reset j) else none := by
  simp [State.resetOf, resetFrom_getElem]

end Sys2Proof.Machine
end

