-- ==== Sys2Proof/Laws/Device.lean ====
section
/-! SUPPORT. What one exchange does to the device, field by field. -/

namespace Sys2Proof.Machine

section Take
variable (d : Device) (tx : Byte)

@[simp] theorem take_reference : (d.take tx).reference = d.reference := by
  unfold Device.take; dsimp only; split <;> (try split) <;> rfl

@[simp] theorem take_fwId : (d.take tx).fwId = d.fwId := by
  unfold Device.take; dsimp only; split <;> (try split) <;> rfl

@[simp] theorem take_frame : (d.take tx).frame = d.frame ++ [tx] := by
  unfold Device.take; dsimp only; split <;> (try split) <;> rfl

@[simp] theorem take_pointerLost : (d.take tx).pointerLost = d.pointerLost := by
  unfold Device.take; dsimp only; split <;> (try split) <;> rfl

@[simp] theorem take_answers : (d.take tx).answers = d.answers := by
  unfold Device.take; dsimp only; split <;> (try split) <;> rfl

@[simp] theorem take_answersLeft : (d.take tx).answersLeft = d.answersLeft := by
  unfold Device.take; dsimp only; split <;> (try split) <;> rfl

/-- The register bytes after the device has taken a byte: unchanged, or the slot a finished write frame addresses. -/
theorem take_regs : (d.take tx).regs = d.regs ∨
    ∃ a b3 b2 b1, d.frame = [opcWrite, a, b3, b2, b1] ∧ d.reference = true ∧ kindOf a = .config ∧
      (d.take tx).regs = d.regs.writeSlot a b3 b2 b1 tx := by
  unfold Device.take
  dsimp only
  split
  · rename_i op a b3 b2 b1 b0 hf
    split
    · rename_i hc
      obtain ⟨hr, rfl, hk⟩ := hc
      right
      have hl : d.frame = [opcWrite, a, b3, b2, b1] ∧ tx = b0 := by
        have := List.append_inj' (s₁ := d.frame) (t₁ := [tx]) (s₂ := [opcWrite, a, b3, b2, b1]) (t₂ := [b0]) hf rfl
        simpa using this
      obtain ⟨hl, rfl⟩ := hl
      exact ⟨a, b3, b2, b1, hl, hr, hk, rfl⟩
    · left; rfl
  · left; rfl

/-- Only a sixth byte can change the register bytes. -/
theorem take_regs_of_short (h : d.frame.length ≠ 5) : (d.take tx).regs = d.regs := by
  rcases take_regs d tx with h' | ⟨a, b3, b2, b1, hf, -⟩
  · exact h'
  · simp [hf] at h

end Take

section Spend
variable (d : Device)

@[simp] theorem spend_reference : d.spend.reference = d.reference := rfl
@[simp] theorem spend_fwId : d.spend.fwId = d.fwId := rfl
@[simp] theorem spend_regs : d.spend.regs = d.regs := rfl
@[simp] theorem spend_frame : d.spend.frame = d.frame := rfl
@[simp] theorem spend_pointerLost : d.spend.pointerLost = d.pointerLost := rfl
@[simp] theorem spend_answers : d.spend.answers = d.answers := rfl
@[simp] theorem spend_answersLeft : d.spend.answersLeft = d.answersLeft.map (· - 1) := rfl

end Spend

section Selected
variable (d : Device)

@[simp] theorem selected_reference : d.selected.reference = d.reference := rfl
@[simp] theorem selected_fwId : d.selected.fwId = d.fwId := rfl
@[simp] theorem selected_regs : d.selected.regs = d.regs := rfl
@[simp] theorem selected_frame : d.selected.frame = [] := rfl
@[simp] theorem selected_pointerLost : d.selected.pointerLost = d.pointerLost := rfl
@[simp] theorem selected_answers : d.selected.answers = d.answers := rfl
@[simp] theorem selected_answersLeft : d.selected.answersLeft = d.answersLeft := rfl

@[simp] theorem deselected_reference : d.deselected.reference = d.reference := rfl
@[simp] theorem deselected_fwId : d.deselected.fwId = d.fwId := rfl
@[simp] theorem deselected_regs : d.deselected.regs = d.regs := rfl
@[simp] theorem deselected_frame : d.deselected.frame = [] := rfl
@[simp] theorem deselected_answers : d.deselected.answers = d.answers := rfl
@[simp] theorem deselected_answersLeft : d.deselected.answersLeft = d.answersLeft := rfl

/-- Six exchanges make the transaction clean, which restores the device's pointer. -/
theorem deselected_pointerLost_of_clean (h : d.frame.length = 6) : d.deselected.pointerLost = false := by
  simp [Device.deselected, h, frameLen]

end Selected

section Draw
variable (d : Device) (c : Nat)

@[simp] theorem draw_reference : (d.draw c).dev.reference = d.reference := by unfold Device.draw; split <;> rfl
@[simp] theorem draw_fwId : (d.draw c).dev.fwId = d.fwId := by unfold Device.draw; split <;> rfl
@[simp] theorem draw_regs : (d.draw c).dev.regs = d.regs := by unfold Device.draw; split <;> rfl
@[simp] theorem draw_frame : (d.draw c).dev.frame = d.frame := by unfold Device.draw; split <;> rfl
@[simp] theorem draw_pointerLost : (d.draw c).dev.pointerLost = d.pointerLost := by unfold Device.draw; split <;> rfl
@[simp] theorem draw_answersLeft : (d.draw c).dev.answersLeft = d.answersLeft := by unfold Device.draw; split <;> rfl

end Draw

section Exchange
variable (k : Nat) (d : Device) (tx : Byte) (c : Nat)

@[simp] theorem exchange_reference : (d.exchange k tx c).dev.reference = d.reference := by
  unfold Device.exchange; split <;> simp

@[simp] theorem exchange_fwId : (d.exchange k tx c).dev.fwId = d.fwId := by
  unfold Device.exchange; split <;> simp

@[simp] theorem exchange_frame : (d.exchange k tx c).dev.frame = d.frame ++ [tx] := by
  unfold Device.exchange; split <;> simp

@[simp] theorem exchange_pointerLost : (d.exchange k tx c).dev.pointerLost = d.pointerLost := by
  unfold Device.exchange; split <;> simp

@[simp] theorem exchange_answersLeft : (d.exchange k tx c).dev.answersLeft = d.answersLeft.map (· - 1) := by
  unfold Device.exchange; split <;> simp

/-- The register bytes after an exchange are those after the device has taken the byte sent. -/
theorem take_regs_congr {d d' : Device} (hf : d.frame = d'.frame) (hr : d.reference = d'.reference)
    (hm : d.regs = d'.regs) (tx : Byte) : (d.take tx).regs = (d'.take tx).regs := by
  unfold Device.take; dsimp only; rw [hf, hr]; split <;> (try split) <;> simp [hm]

theorem exchange_regs : (d.exchange k tx c).dev.regs = (d.take tx).regs := by
  unfold Device.exchange
  split
  · rfl
  · exact take_regs_congr (by simp) (by simp) (by simp) tx

/-- An exchange keeps the canonical form of the register bytes. -/
theorem exchange_regs_wf (h : d.regs.wf = true) : (d.exchange k tx c).dev.regs.wf = true := by
  rw [exchange_regs]
  rcases take_regs d tx with h' | ⟨a, b3, b2, b1, -, -, -, h'⟩ <;> rw [h']
  · exact h
  · exact writeSlot_wf _ _ _ _ _ h

end Exchange

/-- An abort keeps the canonical form of the register bytes. -/
theorem aborted_regs_wf (d : Device) (w : Option Byte) (c : Nat) (h : d.regs.wf = true) :
    (d.aborted w c).1.regs.wf = true := by
  unfold Device.aborted
  dsimp only
  split
  · exact h
  · split
    · exact writeSlot_wf _ _ _ _ _ h
    · exact h

/-- At reset every device's register bytes are in canonical form. -/
theorem reset_regs_wf {c k : Nat} {n : Node} (h : (State.resetOf c).insts[k]? = some n) : n.dev.regs.wf = true := by
  rw [resetOf_getElem] at h
  split at h
  · cases h; rfl
  · cases h

end Sys2Proof.Machine
end

