-- ==== Sys2Proof/Laws/Ops.lean ====
section
/-! SUPPORT. What each shared operation can do, said once. -/

namespace Sys2Proof.Machine

/-- A result that answers a next state after two operations went through the state between them. -/
theorem andThen_next {r : Result} {f : State → Result} {t : State} (h : andThen r f = .next t) :
    ∃ m, r = .next m ∧ f m = .next t := by
  cases r with
  | next m => exact ⟨m, rfl, h⟩
  | fault e => cases h
  | refused e => cases h

@[simp] theorem andThen_of_next (m : State) (f : State → Result) : andThen (.next m) f = f m := rfl

/-- An operation on an instance the bus has. -/
theorem withNode_some {s : State} {k : Nat} {n : Node} (h : s.insts[k]? = some n) (f : Node → Result) :
    s.withNode k f = f n := by
  simp [State.withNode, h]

/-- An operation on an instance that answers a next state found the instance. -/
theorem withNode_next {s : State} {k : Nat} {f : Node → Result} {t : State} (h : s.withNode k f = .next t) :
    ∃ n, s.insts[k]? = some n ∧ f n = .next t := by
  unfold State.withNode at h
  split at h
  · exact ⟨_, ‹_›, h⟩
  · cases h

/-- Everything `submit` can do: it accepts, it rejects, or the host is held. -/
theorem submit_next {k : Nat} {o : Order} {s t : State} (h : submit k o s = .next t) :
    ∃ n, s.insts[k]? = some n ∧
      ((n.eng.phase = .idle ∧ o.cause = .none ∧ t = s.accept k n o) ∨
       (n.eng.phase = .idle ∧ o.cause ≠ .none ∧ t = s.reject k n o.cause) ∨
       (n.eng.phase ≠ .idle ∧ t = s)) := by
  obtain ⟨n, hn, h⟩ := withNode_next h
  refine ⟨n, hn, ?_⟩
  split at h
  · split at h <;> cases h <;> simp_all
  · cases h; simp_all

/-- Everything `submitIllegal` can do. -/
theorem submitIllegal_next {k : Nat} {s t : State} (h : submitIllegal k s = .next t) :
    ∃ n, s.insts[k]? = some n ∧
      ((n.eng.phase = .idle ∧ t = s.reject k n .illegalFunc) ∨ (n.eng.phase ≠ .idle ∧ t = s)) := by
  obtain ⟨n, hn, h⟩ := withNode_next h
  refine ⟨n, hn, ?_⟩
  split at h <;> cases h <;> simp_all

end Sys2Proof.Machine
end

