-- ==== Sys2Proof/Laws/Sequencer.lean ====
section
/-! SUPPORT. What one step of an instance can do, said once, and what a blocking call comes to. -/

namespace Sys2Proof.Machine

/-- The step of an instance that has no enabled step. -/
inductive Waits (n : Node) (s : State) : Prop where
  | idle (h : n.eng.phase = .idle)
  | busOwned (h : n.eng.phase = .acquire) (j : Nat) (o : s.busOwner = some j)
  | noAnswer (h : n.eng.phase = .exch) (a : n.dev.canAnswer = false)

/-- The steps of an instance, each with what it leaves. -/
inductive Steps (k : Nat) (n : Node) (s : State) : State → Prop where
  | acquire (h : n.eng.phase = .acquire) (o : s.busOwner = none) :
      Steps k n s (((s.putNode k (n.setEng { n.eng with phase := .select })).own (some k)).emit k
        (.beginScope n.eng.busCfg))
  | select (h : n.eng.phase = .select) :
      Steps k n s ((s.putNode k { n with eng := { n.eng with csN := false, phase := .exch }, dev := n.dev.selected }).emit
        k .csLow)
  | exch (h : n.eng.phase = .exch) (c : n.dev.canAnswer = true) (op : BitVec 3) (a : Byte) (wd acc : Word)
      (role : Role) (tx : Byte) (hop : n.eng.op = .val op) (ha : n.eng.addr = .val a) (hwd : n.eng.wdata = .val wd)
      (hacc : n.eng.rxacc = .val acc) (hr : roleOf op n.eng.idx.toNat = some role)
      (ht : txByte op a wd n.eng.idx.toNat = some tx) :
      Steps k n s (exchangeWith k n s acc role tx)
  | gap (h : n.eng.phase = .gap) (hi : n.eng.idx.toNat ≤ 5) :
      Steps k n s ((s.putNode k (n.setEng { n.eng with
        idx := n.eng.idx + 1#3, phase := if n.eng.idx.toNat ≤ 4 then .exch else .deselect })).emit k .gap)
  | deselect (h : n.eng.phase = .deselect) :
      Steps k n s
        ((s.putNode k { n with eng := { n.eng with csN := true, phase := .release }, dev := n.dev.deselected }).emit k
          .csHigh)
  | releaseRead (h : n.eng.phase = .release) (op : BitVec 3) (acc : Word) (hop : n.eng.op = .val op)
      (hrd : op = 0b000#3 ∨ op = 0b010#3 ∨ op = 0b110#3) (hacc : n.eng.rxacc = .val acc) :
      Steps k n s (((s.putNode k (n.setEng (n.eng.released (.val (readResult op acc))))).own none).emit k .endScope)
  | releaseWrite (h : n.eng.phase = .release) (op : BitVec 3) (hop : n.eng.op = .val op)
      (hwr : ¬ (op = 0b000#3 ∨ op = 0b010#3 ∨ op = 0b110#3)) :
      Steps k n s (((s.putNode k (n.setEng (n.eng.released n.eng.rdata))).own none).emit k .endScope)

/-- Everything a step of instance `k` can do where it answers a next state: it waits, or it is one of the steps of
40_transaction_sequence.md R73 to R78. -/
theorem tick_next {k : Nat} {s t : State} (h : tick k s = .next t) :
    ∃ n, s.insts[k]? = some n ∧ ((Waits n s ∧ t = s) ∨ Steps k n s t) := by
  obtain ⟨n, hn, h⟩ := withNode_next h
  refine ⟨n, hn, ?_⟩
  split at h
  · cases h; exact .inl ⟨.idle ‹_›, rfl⟩
  · unfold acquireStep at h
    split at h
    · cases h; exact .inl ⟨.busOwned ‹_› _ ‹_›, rfl⟩
    · cases h; exact .inr (.acquire ‹_› ‹_›)
  · cases h; exact .inr (.select ‹_›)
  · unfold exchangeStep at h
    split at h
    · split at h
      · cases h
      · cases h
      · cases h
      · cases h
      · split at h
        · cases h; exact .inr (.exch ‹_› ‹_› _ _ _ _ _ _ ‹_› ‹_› ‹_› ‹_› ‹_› ‹_›)
        all_goals cases h
    · cases h; exact .inl ⟨.noAnswer ‹_› (by simp_all), rfl⟩
  · unfold gapStep at h
    split at h
    · cases h; exact .inr (.gap ‹_› ‹_›)
    · cases h
  · cases h; exact .inr (.deselect ‹_›)
  · unfold releaseStep at h
    dsimp only at h
    split at h
    · cases h
    · split at h
      · split at h
        · cases h
        · cases h; exact .inr (.releaseRead ‹_› _ _ ‹_› ‹_› ‹_›)
      · cases h; exact .inr (.releaseWrite ‹_› _ ‹_› ‹_›)

/-- A step of R73 to R78 is what `tick` does. -/
theorem tick_of_steps {k : Nat} {n : Node} {s t : State} (hn : s.insts[k]? = some n) (h : Steps k n s t) :
    tick k s = .next t := by
  unfold tick
  rw [withNode_some hn]
  cases h with
  | acquire h o => simp [h, acquireStep, o]
  | select h => simp [h, selectStep]
  | exch h c op a wd acc role tx hop ha hwd hacc hr ht => simp [h, exchangeStep, c, hop, ha, hwd, hacc, hr, ht]
  | gap h hi => simp [h, gapStep, hi]
  | deselect h => simp [h, deselectStep]
  | releaseRead h op acc hop hrd hacc => simp [h, releaseStep, hop, hrd, hacc]
  | releaseWrite h op hop hwr => simp only [h, releaseStep, hop, if_neg hwr]

/-- An instance that waits leaves the state as it is. -/
theorem tick_of_waits {k : Nat} {n : Node} {s : State} (hn : s.insts[k]? = some n) (h : Waits n s) :
    tick k s = .next s := by
  unfold tick
  rw [withNode_some hn]
  cases h with
  | idle h => simp [h]
  | busOwned h j o => simp [h, acquireStep, o]
  | noAnswer h a => simp [h, exchangeStep, a]

/-- One step, then the rest. -/
theorem ticks_succ_of_next {k m : Nat} {s t : State} (h : tick k s = .next t) : ticks k (m + 1) s = ticks k m t := by
  simp [ticks, h]

/-- An instance that waits, waits for good while nobody else moves. -/
theorem ticks_of_waits {k : Nat} {n : Node} {s : State} (hn : s.insts[k]? = some n) (h : Waits n s) (m : Nat) :
    ticks k m s = .next s := by
  induction m with
  | zero => rfl
  | succ m ih => rw [ticks_succ_of_next (tick_of_waits hn h), ih]

/-- Many steps, taken as one step and an induction: what every step keeps, they keep. -/
theorem ticks_keep {k : Nat} {P : State → Prop} (hP : ∀ s t, P s → tick k s = .next t → P t) :
    ∀ (m : Nat) {s t : State}, P s → ticks k m s = .next t → P t
  | 0, s, t, hs, h => by cases h; exact hs
  | m + 1, s, t, hs, h => by
    obtain ⟨u, hu, h⟩ := andThen_next h
    exact ticks_keep hP m (hP s u hs hu) h

/-- Everything a blocking call can do: the host is held, the command is rejected, or it is accepted and the instance
takes its own steps. -/
theorem callCommand_next {o : Order} {s t : State} (h : callCommand o s = .next t) :
    ∃ n, s.insts[s.port]? = some n ∧
      ((n.eng.phase ≠ .idle ∧ t = s) ∨
       (n.eng.phase = .idle ∧ o.cause ≠ .none ∧ t = s.reject s.port n o.cause) ∨
       (n.eng.phase = .idle ∧ o.cause = .none ∧ ticks s.port stepsAfterAccept (s.accept s.port n o) = .next t)) := by
  obtain ⟨n, hn, h⟩ := withNode_next h
  refine ⟨n, hn, ?_⟩
  split at h
  · rename_i hi
    obtain ⟨u, hu, h⟩ := andThen_next h
    obtain ⟨n', hn', hc⟩ := submit_next hu
    obtain rfl : n = n' := by simpa [hn] using hn'
    rcases hc with ⟨-, hc, rfl⟩ | ⟨-, hc, rfl⟩ | ⟨hb, -⟩
    · exact .inr (.inr ⟨hi, hc, h⟩)
    · refine .inr (.inl ⟨hi, hc, ?_⟩)
      have hw : ticks s.port stepsAfterAccept (s.reject s.port n o.cause) = .next (s.reject s.port n o.cause) :=
        ticks_of_waits (n := { n with eng := n.eng.reject o.cause, verdict := some .rejected }) (getElem_set_self hn) (.idle hi) _
      rw [hw] at h
      cases h
      rfl
    · exact absurd hi hb
  · cases h
    exact .inl ⟨‹_›, rfl⟩

/-- A rejected command. -/
theorem callCommand_rejected {o : Order} {s : State} {n : Node} (hn : s.insts[s.port]? = some n)
    (hi : n.eng.phase = .idle) (hc : o.cause ≠ .none) : callCommand o s = .next (s.reject s.port n o.cause) := by
  unfold callCommand
  rw [withNode_some hn, if_pos hi]
  unfold submit
  rw [withNode_some hn, if_pos hi, if_neg hc]
  exact ticks_of_waits (n := { n with eng := n.eng.reject o.cause, verdict := some .rejected }) (getElem_set_self hn) (.idle hi) _

end Sys2Proof.Machine
end

