-- ==== Sys2Proof/Laws/Transaction.lean ====
section
/-! SUPPORT. A whole transaction of a command whose instance is ready: the sixteen steps put together. -/

namespace Sys2Proof.Machine

/-- A run of exchanges with the device of instance `k`: the bytes received, the device and the counter after it. -/
def exchanges (k : Nat) : Device → Nat → List Byte → List Byte × Device × Nat
  | d, c, [] => ([], d, c)
  | d, c, t :: ts =>
    let r := d.exchange k t c
    let q := exchanges k r.dev r.draws ts
    (r.rx :: q.1, q.2)

/-- `RXACC` after exchanges of the given roles that received the given bytes. -/
def accumulated : Word → List Role → List Byte → Word
  | acc, r :: rs, b :: bs => accumulated (accumulate r acc b) rs bs
  | acc, _, _ => acc

/-- The bus in mid-transaction of instance `k`, whose host knows what it knows in `n`. -/
def flight (s : State) (k : Nat) (n : Node) (e : Engine) (d : Device) (c : Nat) (tr : List (Nat × Event)) : State :=
  { s with insts := s.insts.set k { n with eng := e, dev := d }, busOwner := some k, draws := c,
           trace := s.trace ++ tr }

theorem flight_here {s : State} {k : Nat} (hk : k < s.insts.length) (n : Node) (e : Engine) (d : Device) (c : Nat)
    (tr : List (Nat × Event)) : (flight s k n e d c tr).insts[k]? = some { n with eng := e, dev := d } := by
  simp [flight, hk]

/-- One exchange and its gap. -/
theorem ticks_exchange {s : State} {k m : Nat} {n : Node} {e : Engine} {d : Device} {c : Nat}
    {tr : List (Nat × Event)} {op : BitVec 3} {a : Byte} {wd acc : Word} {role : Role} {tx : Byte} {A : Answer}
    (hA : d.exchange k tx c = A) (hk : k < s.insts.length) (hp : e.phase = .exch) (hc : d.canAnswer = true) (hop : e.op = .val op)
    (ha : e.addr = .val a) (hwd : e.wdata = .val wd) (hacc : e.rxacc = .val acc)
    (hr : roleOf op e.idx.toNat = some role) (ht : txByte op a wd e.idx.toNat = some tx) (hi : e.idx.toNat ≤ 5) :
    ticks k (m + 2) (flight s k n e d c tr) =
      ticks k m (flight s k n
        { e with rxacc := .val (accumulate role acc A.rx), idx := e.idx + 1#3,
                 phase := if e.idx.toNat ≤ 4 then .exch else .deselect }
        A.dev A.draws (tr ++ [(k, .xfer e.idx.toNat role tx A.rx), (k, .gap)])) := by
  subst hA
  have h1 := tick_of_steps (flight_here hk n e d c tr) (.exch hp hc op a wd acc role tx hop ha hwd hacc hr ht)
  rw [ticks_succ_of_next h1]
  have hn : (exchangeWith k { n with eng := e, dev := d } (flight s k n e d c tr) acc role tx).insts[k]? =
      some { n with eng := { e with rxacc := .val (accumulate role acc (d.exchange k tx c).rx), phase := .gap },
                    dev := (d.exchange k tx c).dev } := by
    simp [exchangeWith, flight, hk]
  rw [ticks_succ_of_next (tick_of_steps hn (.gap rfl hi))]
  simp [exchangeWith, flight, State.putNode, State.emit, Node.setEng]

/-- What the release step leaves in `RDATA`. -/
def delivered (op : BitVec 3) (acc : Word) (old : Latch 32) : Latch 32 :=
  if op = 0b000#3 ∨ op = 0b010#3 ∨ op = 0b110#3 then .val (readResult op acc) else old

/-- The deselect step and the release step. -/
theorem ticks_finish {s : State} {k : Nat} {n : Node} {e : Engine} {d : Device} {c : Nat}
    {tr : List (Nat × Event)} {op : BitVec 3} {acc : Word} (hk : k < s.insts.length) (hp : e.phase = .deselect)
    (hop : e.op = .val op) (hacc : e.rxacc = .val acc) :
    ticks k 2 (flight s k n e d c tr) = .next
      { s with
        insts := s.insts.set k
          { n with
            eng := { e with csN := true, rdata := delivered op acc e.rdata, busy := false, done := true, phase := .idle }
            dev := d.deselected }
        busOwner := none, draws := c, trace := s.trace ++ (tr ++ [(k, .csHigh), (k, .endScope)]) } := by
  rw [ticks_succ_of_next (tick_of_steps (flight_here hk ..) (.deselect hp))]
  generalize hs : State.emit _ k Event.csHigh = s'
  have h : s'.insts[k]? = some { n with eng := { e with csN := true, phase := .release }, dev := d.deselected } := by
    subst hs; exact getElem_set_self (flight_here hk ..)
  by_cases hrd : op = 0b000#3 ∨ op = 0b010#3 ∨ op = 0b110#3
  · rw [ticks_succ_of_next (tick_of_steps h (.releaseRead rfl op acc hop hrd hacc))]
    subst hs
    simp [ticks, hrd, delivered, flight, State.putNode, State.emit, State.own, Node.setEng, Engine.released]
  · rw [ticks_succ_of_next (tick_of_steps h (.releaseWrite rfl op hop hrd))]
    subst hs
    simp [ticks, hrd, delivered, flight, State.putNode, State.emit, State.own, Node.setEng, Engine.released]

/-- The patience of the transport after one exchange. -/
theorem canAnswer_of_left {d : Device} {m : Nat} (h : ∀ l, d.answersLeft = some l → m + 1 ≤ l) : d.canAnswer = true := by
  unfold Device.canAnswer
  cases hl : d.answersLeft with
  | none => rfl
  | some l => have := h l hl; simp; omega

theorem left_after {d : Device} {m k : Nat} {tx : Byte} {c : Nat} {A : Answer} (hA : d.exchange k tx c = A)
    (h : ∀ l, d.answersLeft = some l → m + 1 ≤ l) : ∀ l, A.dev.answersLeft = some l → m ≤ l := by
  subst hA
  intro l hl
  rw [exchange_answersLeft] at hl
  cases h' : d.answersLeft with
  | none => simp [h'] at hl
  | some q => have := h q h'; simp [h'] at hl; omega

/-- An accepted command of a ready instance runs to its end: the sixteen events, the result, and the device after six
exchanges. -/
theorem callCommand_ready {o : Order} {s : State} {n : Node} (hr : s.Ready n) (hc : o.cause = .none)
    {t0 t1 t2 t3 t4 t5 : Byte} {q0 q1 q2 q3 q4 q5 : Role}
    (ht : [0, 1, 2, 3, 4, 5].map (txByte o.op o.addr o.wdata) = [t0, t1, t2, t3, t4, t5].map some)
    (hq : [0, 1, 2, 3, 4, 5].map (roleOf o.op) = [q0, q1, q2, q3, q4, q5].map some)
    {x0 x1 x2 x3 x4 x5 : Byte} {dev : Device} {draws : Nat}
    (hx : exchanges s.port n.dev.selected s.draws [t0, t1, t2, t3, t4, t5] = ([x0, x1, x2, x3, x4, x5], dev, draws)) :
    callCommand o s = .next (s.afterCommand n
      { n.eng with
        op := .val o.op, addr := .val o.addr, wdata := .val o.wdata
        rxacc := .val (accumulated 0#32 [q0, q1, q2, q3, q4, q5] [x0, x1, x2, x3, x4, x5])
        rdata := delivered o.op (accumulated 0#32 [q0, q1, q2, q3, q4, q5] [x0, x1, x2, x3, x4, x5]) n.eng.rdata
        phase := .idle, idx := 6#3, csN := true, busy := false, done := true }
      dev.deselected draws
      (frameEvents n.eng.busCfg #v[t0, t1, t2, t3, t4, t5] #v[q0, q1, q2, q3, q4, q5] #v[x0, x1, x2, x3, x4, x5])) := by
  obtain ⟨hn, hi, hb, ha⟩ := hr
  have hk : s.port < s.insts.length := (List.getElem?_eq_some_iff.mp hn).1
  simp only [List.map_cons, List.map_nil, List.cons.injEq, and_true] at ht hq
  obtain ⟨ht0, ht1, ht2, ht3, ht4, ht5⟩ := ht
  obtain ⟨hq0, hq1, hq2, hq3, hq4, hq5⟩ := hq
  simp only [exchanges] at hx
  generalize hA0 : n.dev.selected.exchange s.port t0 s.draws = A0 at hx
  generalize hA1 : A0.dev.exchange s.port t1 A0.draws = A1 at hx
  generalize hA2 : A1.dev.exchange s.port t2 A1.draws = A2 at hx
  generalize hA3 : A2.dev.exchange s.port t3 A2.draws = A3 at hx
  generalize hA4 : A3.dev.exchange s.port t4 A3.draws = A4 at hx
  generalize hA5 : A4.dev.exchange s.port t5 A4.draws = A5 at hx
  simp only [Prod.mk.injEq, List.cons.injEq, and_true] at hx
  obtain ⟨⟨rfl, rfl, rfl, rfl, rfl, rfl⟩, rfl, rfl⟩ := hx
  -- the patience of the transport, exchange by exchange
  have l0 : ∀ l, n.dev.selected.answersLeft = some l → 5 + 1 ≤ l := by
    intro l hl
    have hl' : n.dev.answersLeft = some l := hl
    simpa [Device.answersSix, hl'] using ha
  have l1 := left_after hA0 l0
  have l2 := left_after (m := 4) hA1 l1
  have l3 := left_after (m := 3) hA2 l2
  have l4 := left_after (m := 2) hA3 l3
  have l5 := left_after (m := 1) hA4 l4
  unfold callCommand
  rw [withNode_some hn, if_pos hi]
  unfold submit
  rw [withNode_some hn, if_pos hi, if_pos hc, andThen_of_next]
  -- acquire and select
  have h1 : (s.accept s.port n o).insts[s.port]? = some { n with eng := n.eng.accept o, verdict := some .accepted } :=
    getElem_set_self hn
  rw [stepsAfterAccept, ticks_succ_of_next (tick_of_steps h1 (.acquire rfl hb))]
  generalize hs1 : State.emit _ s.port (Event.beginScope _) = s1
  have h2 : s1.insts[s.port]? =
      some { n with eng := { n.eng.accept o with phase := .select }, verdict := some .accepted } := by
    subst hs1; simp [State.accept, hk, Node.setEng]
  rw [ticks_succ_of_next (tick_of_steps h2 (.select rfl))]
  generalize hs2 : State.emit _ s.port Event.csLow = s2
  have h3 : s2 = flight s s.port { n with verdict := some .accepted } { n.eng.accept o with phase := .exch, csN := false }
        n.dev.selected s.draws [(s.port, .beginScope n.eng.busCfg), (s.port, .csLow)] := by
    subst hs2 hs1; simp [flight, State.accept, State.putNode, State.emit, State.own]
  rw [h3]
  -- six exchanges with their gaps
  rw [ticks_exchange hA0 hk rfl (canAnswer_of_left l0) rfl rfl rfl rfl hq0 ht0 (by simp),
    ticks_exchange hA1 hk rfl (canAnswer_of_left l1) rfl rfl rfl rfl hq1 ht1 (by simp),
    ticks_exchange hA2 hk rfl (canAnswer_of_left l2) rfl rfl rfl rfl hq2 ht2 (by simp),
    ticks_exchange hA3 hk rfl (canAnswer_of_left l3) rfl rfl rfl rfl hq3 ht3 (by simp),
    ticks_exchange hA4 hk rfl (canAnswer_of_left l4) rfl rfl rfl rfl hq4 ht4 (by simp),
    ticks_exchange hA5 hk rfl (canAnswer_of_left l5) rfl rfl rfl rfl hq5 ht5 (by simp)]
  rw [ticks_finish hk rfl rfl rfl]
  simp [accumulated, State.afterCommand, frameEvents, Engine.accept]

end Sys2Proof.Machine
end

