-- ==== Sys2Proof/Laws/Exchanges.lean ====
section
/-! SUPPORT. A run of exchanges with one device: what it leaves of the device and what it receives. -/

namespace Sys2Proof.Machine

/-- What a run of exchanges keeps of the device, and the frame it leaves. -/
theorem exchanges_keep (k : Nat) (ts : List Byte) (d : Device) (c : Nat) :
    (exchanges k d c ts).2.1.frame = d.frame ++ ts ∧ (exchanges k d c ts).2.1.reference = d.reference ∧
    (exchanges k d c ts).2.1.fwId = d.fwId ∧ (exchanges k d c ts).2.1.pointerLost = d.pointerLost ∧
    (exchanges k d c ts).1.length = ts.length := by
  induction ts generalizing d c with
  | nil => simp [exchanges]
  | cons t ts ih =>
    obtain ⟨h1, h2, h3, h4, h5⟩ := ih (d.exchange k t c).dev (d.exchange k t c).draws
    simp [exchanges, h1, h2, h3, h4, h5]

/-- A whole frame changes the register bytes only if it is a write frame to a configuration register of the reference
device. -/
theorem exchanges_regs (k : Nat) (d : Device) (c : Nat) (hf : d.frame = []) (t0 t1 t2 t3 t4 t5 : Byte) :
    (exchanges k d c [t0, t1, t2, t3, t4, t5]).2.1.regs =
      if d.reference = true ∧ t0 = opcWrite ∧ kindOf t1 = .config then d.regs.writeSlot t1 t2 t3 t4 t5 else d.regs := by
  have five : ∀ (ts : List Byte) (d : Device) (c : Nat), d.frame.length + ts.length ≤ 5 →
      (exchanges k d c ts).2.1.regs = d.regs := by
    intro ts
    induction ts with
    | nil => intro d c _; rfl
    | cons t ts ih =>
      intro d c h
      simp only [List.length_cons] at h
      simp only [exchanges]
      rw [ih _ _ (by simp; omega), exchange_regs, take_regs_of_short _ _ (by omega)]
  have split : ∀ (ts : List Byte) (t : Byte) (d : Device) (c : Nat), (exchanges k d c (ts ++ [t])).2.1 =
      ((exchanges k d c ts).2.1.exchange k t (exchanges k d c ts).2.2).dev := by
    intro ts
    induction ts with
    | nil => intro t d c; rfl
    | cons u ts ih => intro t d c; simp only [List.cons_append, exchanges]; exact ih ..
  have h := split [t0, t1, t2, t3, t4] t5 d c
  simp only [List.cons_append, List.nil_append] at h
  obtain ⟨hf', hr, -⟩ := exchanges_keep k [t0, t1, t2, t3, t4] d c
  rw [h, exchange_regs]
  have hm := five [t0, t1, t2, t3, t4] d c (by simp [hf])
  generalize (exchanges k d c [t0, t1, t2, t3, t4]).2.1 = e at hf' hr hm
  unfold Device.take
  simp only [hf', hf, List.nil_append, List.cons_append, hr]
  split <;> simp_all

/-- An exchange whose answer R46 does not fix receives the next draw. -/
theorem exchange_of_draw {k : Nat} {d : Device} (h : d.reference = false ∨ d.pointerLost = true) (t : Byte) (c : Nat) :
    d.exchange k t c = { d.draw c with dev := ((d.draw c).dev.take t).spend } := by
  have : d.fixedAnswer k = none := by unfold Device.fixedAnswer; rcases h with h | h <;> simp [h]
  unfold Device.exchange
  rw [this]

/-- The draws of a run of exchanges, one after the other (20_memory.md R44). -/
theorem exchanges_draws (k : Nat) (ts : List Byte) (d : Device) (c : Nat)
    (h : d.reference = false ∨ d.pointerLost = true) :
    (exchanges k d c ts).1 = (List.range ts.length).map (d.oracleByte c) := by
  induction ts generalizing d c with
  | nil => rfl
  | cons t ts ih =>
    simp only [exchanges, List.length_cons, List.range_succ_eq_map, List.map_cons, List.map_map]
    rw [exchange_of_draw h]
    unfold Device.draw
    cases ha : d.answers with
    | nil =>
      rw [ih _ _ (by simpa using h)]
      simp [Device.oracleByte, ha, Function.comp_def, Nat.add_assoc, Nat.add_comm 1]
    | cons b bs =>
      rw [ih _ _ (by simpa using h)]
      simp [Device.oracleByte, ha, Function.comp_def]

/-- What a run of draws leaves lined up, and the counter after it. -/
theorem exchanges_left (k : Nat) (ts : List Byte) (d : Device) (c : Nat)
    (h : d.reference = false ∨ d.pointerLost = true) :
    (exchanges k d c ts).2.1.answers = d.answers.drop ts.length ∧
    (exchanges k d c ts).2.2 = c + (ts.length - d.answers.length) := by
  induction ts generalizing d c with
  | nil => exact ⟨rfl, by simp [exchanges]⟩
  | cons t ts ih =>
    simp only [exchanges, List.length_cons]
    rw [exchange_of_draw h]
    unfold Device.draw
    cases ha : d.answers with
    | nil =>
      obtain ⟨h1, h2⟩ := ih ((d.take t).spend) (c + 1) (by simpa using h)
      refine ⟨h1.trans (by simp [ha]), h2.trans (by simp [ha]; omega)⟩
    | cons b bs =>
      obtain ⟨h1, h2⟩ := ih ((({ d with answers := bs } : Device).take t).spend) c (by simpa using h)
      exact ⟨h1.trans (by simp), h2.trans (by simp)⟩

/-- The draws of a device from which `i` have been taken are those that follow. -/
theorem oracleByte_later (d d' : Device) (c i j : Nat) (h : d'.answers = d.answers.drop i) :
    d'.oracleByte (c + (i - d.answers.length)) j = d.oracleByte c (i + j) := by
  unfold Device.oracleByte
  rw [h, List.getD_eq_getElem?_getD, List.getD_eq_getElem?_getD, List.getElem?_drop, List.length_drop]
  congr 2
  omega

end Sys2Proof.Machine
end

