-- ==== Sys2Proof/Laws/Moves.lean ====
section
/-! SUPPORT. Everything one step of the bus can do, said once, and the principle every invariant is proved by. -/

namespace Sys2Proof.Machine

/-- A command runs as the blocking call of what it latches. -/
theorem exec_eq_callCommand (i : Instr) (s : State) : exec i s = callCommand (commandOrder i) s := by cases i <;> rfl

/-- A step of an instance touches neither the agenda nor the port. -/
theorem tick_agenda_port {k : Nat} {s t : State} (h : tick k s = .next t) : t.agenda = s.agenda ∧ t.port = s.port := by
  obtain ⟨n, -, (⟨-, rfl⟩ | h)⟩ := tick_next h
  · exact ⟨rfl, rfl⟩
  · cases h <;> exact ⟨rfl, rfl⟩

/-- A step of an instance leaves the arbiter's choices to come. -/
theorem tick_choices {k : Nat} {s t : State} (h : tick k s = .next t) :
    t.choices = s.choices ∧ t.chosen = s.chosen := by
  obtain ⟨n, -, (⟨-, rfl⟩ | h)⟩ := tick_next h
  · exact ⟨rfl, rfl⟩
  · cases h <;> exact ⟨rfl, rfl⟩

/-- Settling whose turn it is makes at most one choice. -/
theorem turn_snd (s : State) : s.turn.2 = s ∨ s.turn.2 = s.afterChoice := by
  unfold State.turn
  split
  · exact .inl rfl
  · split
    · exact .inl rfl
    · exact .inl rfl
    · exact .inr rfl

/-- Everything the passing of time can do. -/
theorem advance_next {s t : State} (h : advance s = .next t) :
    ∃ u, (u = s ∨ u = s.afterChoice) ∧
      ((s.turn.1 = none ∧ t = u) ∨ ∃ k, s.turn.1 = some k ∧ tick k u = .next t) := by
  refine ⟨s.turn.2, turn_snd s, ?_⟩
  unfold advance at h
  generalize s.turn = x at h ⊢
  obtain ⟨_ | k, u⟩ := x
  · cases h; exact .inl ⟨rfl, rfl⟩
  · exact .inr ⟨k, rfl, h⟩

/-- While the bus is owned, time passes for its owner. -/
theorem advance_of_owner {s : State} {j : Nat} (h : s.busOwner = some j) : advance s = tick j s := by
  simp [advance, State.turn, h]

/-- The bus after the reset of instance `k`. -/
def State.afterReset (s : State) (k : Nat) (n : Node) : State :=
  { s.putNode k { n with eng := Engine.reset k, dev := (n.deviceAfterReset s.draws).1 } with
    busOwner := if s.busOwner = some k then none else s.busOwner
    trace := s.trace ++ resetEvents k n s
    draws := (n.deviceAfterReset s.draws).2 }

/-- Everything a reset can do. -/
theorem resetInstance_next {k : Nat} {s t : State} (h : resetInstance k s = .next t) :
    ∃ n, s.insts[k]? = some n ∧ t = s.afterReset k n := by
  obtain ⟨n, hn, h⟩ := withNode_next h
  cases h
  exact ⟨n, hn, rfl⟩

/-- Everything a host's read of `RDATA` can do. -/
theorem readRdata_next {k : Nat} {s t : State} (h : readRdata k s = .next t) :
    ∃ n v, s.insts[k]? = some n ∧ n.eng.rdata = .val v ∧ t = s.answer k n (.rdata v) := by
  obtain ⟨n, hn, h⟩ := withNode_next h
  split at h
  · cases h
  · cases h; exact ⟨n, _, hn, ‹_›, rfl⟩

/-- Everything a host back from its wait can do. -/
theorem collect_next {k : Nat} {s t : State} (h : collect k s = .next t) :
    ∃ n, s.insts[k]? = some n ∧
      ((n.hasResult = true ∧ ∃ v, n.eng.rdata = .val v ∧ t = s.answer k n (.rdata v)) ∨
        (n.hasResult = false ∧ t = s.answer k n .noResult)) := by
  obtain ⟨n, hn, h⟩ := withNode_next h
  split at h
  · obtain ⟨n', v, hn', hv, rfl⟩ := readRdata_next h
    obtain rfl : n = n' := Option.some.inj (hn.symm.trans hn')
    exact ⟨n, hn, .inl ⟨‹_›, v, hv, rfl⟩⟩
  · cases h; exact ⟨n, hn, .inr ⟨Bool.eq_false_iff.mpr ‹_›, rfl⟩⟩

/-- The host's writes of `BUSCFG`. -/
def Act.writes : Act → BusCfg → BusCfg → Prop
  | .writeClkHz hz, c, c' => 0 < hz ∧ c' = { c with clkHz := hz }
  | .writeCpol b, c, c' => c' = { c with cpol := b }
  | .writeCpha b, c, c' => c' = { c with cpha := b }
  | .call _, _, _ | .submit _, _, _ | .tick, _, _ | .reset, _, _ | .readRdata, _, _ | .collect, _, _
  | .readStatus, _, _ | .readCause, _, _ | .readBusCfg, _, _ => False

/-- The host's reads, with what they answer. -/
def Act.reads : Act → Node → Reply → Prop
  | .readRdata, n, r => ∃ v, n.eng.rdata = .val v ∧ r = .rdata v
  | .collect, n, r => n.eng.phase = .idle ∧
      (n.hasResult = true ∧ (∃ v, n.eng.rdata = .val v ∧ r = .rdata v) ∨ n.hasResult = false ∧ r = .noResult)
  | .readStatus, n, r => r = .status n.eng.statusWord
  | .readCause, n, r => r = .cause n.eng.causeWord
  | .readBusCfg, n, r => r = .busCfg n.eng.busCfg
  | .call _, _, _ | .submit _, _, _ | .tick, _, _ | .reset, _, _ | .writeClkHz _, _, _ | .writeCpol _, _, _
  | .writeCpha _, _, _ => False

/-- With nothing to come, the step is that of the instance whose turn it is. -/
theorem mover_of_nil {s : State} (h : s.agenda = []) : s.mover = s.turn.1 := by simp [State.mover, h]

/-- A move that no busy instance holds concerns its instance. -/
theorem mover_of_not_held {s : State} {m : Move} {rest : List Move} (h : s.agenda = m :: rest)
    (hm : m.act.held = false) : s.mover = some m.who := by
  simp [State.mover, h, hm]

/-- A move of an idle instance concerns it. -/
theorem mover_of_idle {s : State} {m : Move} {rest : List Move} {n : Node} (h : s.agenda = m :: rest)
    (hn : s.insts[m.who]? = some n) (hi : n.eng.phase = .idle) : s.mover = some m.who := by
  simp [State.mover, h, State.busyAt, hn, hi]

/-- While its instance is busy a held move leaves the step to the instance whose turn it is. -/
theorem mover_of_busy {s : State} {m : Move} {rest : List Move} {n : Node} (h : s.agenda = m :: rest)
    (hm : m.act.held = true) (hn : s.insts[m.who]? = some n) (hi : n.eng.phase ≠ .idle) : s.mover = s.turn.1 := by
  simp [State.mover, h, hm, State.busyAt, hn, hi]

/-- What one step of the bus can do. -/
inductive Moves (s t : State) : Prop where
  /-- nothing is to come, or the next move's host is held: time passes -/
  | wait (h : advance s = .next t) (hk : s.mover = s.turn.1)
      (why : s.agenda = [] ∨ ∃ (m : Move) (rest : List Move) (n : Node), s.agenda = m :: rest ∧ m.act.held = true ∧
        s.insts[m.who]? = some n ∧ n.eng.phase ≠ .idle)
  | run (k : Nat) (cw : CommandWord) (rest : List Move) (n : Node) (i : Instr) (ha : s.agenda = ⟨k, .call cw⟩ :: rest)
      (hn : s.insts[k]? = some n) (hi : n.eng.phase = .idle) (hd : decode cw = .ok i)
      (h : exec i (s.begin ⟨k, .call cw⟩ rest) = .next t)
  | submit (k : Nat) (cw : CommandWord) (rest : List Move) (n : Node) (i : Instr)
      (ha : s.agenda = ⟨k, .submit cw⟩ :: rest) (hn : s.insts[k]? = some n) (hi : n.eng.phase = .idle)
      (hd : decode cw = .ok i)
      (h : Sys2Proof.Machine.submit k (commandOrder i) (s.begin ⟨k, .submit cw⟩ rest) = .next t)
  | illegal (k : Nat) (act : Act) (rest : List Move) (n : Node) (ha : s.agenda = ⟨k, act⟩ :: rest)
      (hact : ∃ cw, act = .call cw ∨ act = .submit cw) (hn : s.insts[k]? = some n) (hi : n.eng.phase = .idle)
      (h : t = (s.begin ⟨k, act⟩ rest).reject k n .illegalFunc)
  | tick (k : Nat) (rest : List Move) (ha : s.agenda = ⟨k, .tick⟩ :: rest)
      (h : Sys2Proof.Machine.tick k (s.begin ⟨k, .tick⟩ rest) = .next t)
  | reset (k : Nat) (rest : List Move) (n : Node) (ha : s.agenda = ⟨k, .reset⟩ :: rest) (hn : s.insts[k]? = some n)
      (h : t = (s.begin ⟨k, .reset⟩ rest).afterReset k n)
  | read (k : Nat) (act : Act) (rest : List Move) (n : Node) (r : Reply) (ha : s.agenda = ⟨k, act⟩ :: rest)
      (hr : act.reads n r) (hk : s.mover = some k) (hn : s.insts[k]? = some n) (h : t = (s.begin ⟨k, act⟩ rest).answer k n r)
  | write (k : Nat) (act : Act) (rest : List Move) (n : Node) (c : BusCfg) (ha : s.agenda = ⟨k, act⟩ :: rest)
      (hw : act.writes n.eng.busCfg c) (hn : s.insts[k]? = some n) (hi : n.eng.phase = .idle)
      (h : t = (s.begin ⟨k, act⟩ rest).putNode k (n.setEng { n.eng with busCfg := c }))

/-- A step that does a move done by `fetch`. -/
theorem step_of_done {s : State} {r : Result} (h : fetch s = .done r) : step s = r := by unfold step; rw [h]

theorem whenIdle_of_idle {m : Move} {s : State} {n : Node} (go : Fetched) (h : s.insts[m.who]? = some n)
    (hi : n.eng.phase = .idle) : whenIdle m s go = go := by
  simp [whenIdle, h, hi]

theorem whenIdle_of_busy {m : Move} {s : State} {n : Node} (go : Fetched) (h : s.insts[m.who]? = some n)
    (hi : n.eng.phase ≠ .idle) : whenIdle m s go = .done (advance s) := by
  simp [whenIdle, h, hi]

theorem whenIdle_of_absent {m : Move} {s : State} (go : Fetched) (h : s.insts[m.who]? = none) :
    whenIdle m s go = .done (.fault (.noSuchInstance m.who)) := by
  simp [whenIdle, h]

/-- Everything a step of the bus can do where it answers a next state. -/
theorem step_next {s t : State} (h : step s = .next t) : Moves s t := by
  cases ha : s.agenda with
  | nil =>
    have hf : fetch s = .done (advance s) := by unfold fetch; rw [ha]
    rw [step_of_done hf] at h
    exact .wait h (mover_of_nil ha) (.inl ha)
  | cons m rest =>
    obtain ⟨k, act⟩ := m
    -- the acts that wait for an idle instance
    have held : ∀ go : Fetched, act.held = true → fetch s = whenIdle ⟨k, act⟩ s go →
        (∀ n, s.insts[k]? = some n → n.eng.phase = .idle → fetch s = go → Moves s t) → Moves s t := by
      intro go hheld hf hgo
      cases hn : s.insts[k]? with
      | none =>
        rw [whenIdle_of_absent (m := ⟨k, act⟩) go hn] at hf
        rw [step_of_done hf] at h
        cases h
      | some n =>
        by_cases hi : n.eng.phase = .idle
        · rw [whenIdle_of_idle (m := ⟨k, act⟩) go hn hi] at hf
          exact hgo n hn hi hf
        · rw [whenIdle_of_busy (m := ⟨k, act⟩) go hn hi] at hf
          rw [step_of_done hf] at h
          exact .wait h (mover_of_busy ha hheld hn hi) (.inr ⟨_, _, n, ha, hheld, hn, hi⟩)
    cases act with
    | call cw =>
      refine held _ rfl (by unfold fetch; rw [ha]) fun n hn hi hf => ?_
      cases hd : decode cw with
      | ok i =>
        rw [hd] at hf
        have : step s = exec i (s.begin ⟨k, .call cw⟩ rest) := by unfold step; rw [hf]
        rw [this] at h
        exact .run k cw rest n i ha hn hi hd h
      | error e =>
        rw [hd] at hf
        rw [step_of_done hf] at h
        obtain ⟨n', hn', (⟨-, h⟩ | ⟨hb, -⟩)⟩ := submitIllegal_next h
        · obtain rfl : n = n' := Option.some.inj (hn.symm.trans hn')
          exact .illegal k _ rest n ha ⟨cw, .inl rfl⟩ hn hi h
        · obtain rfl : n = n' := Option.some.inj (hn.symm.trans hn')
          exact absurd hi hb
    | submit cw =>
      refine held _ rfl (by unfold fetch; rw [ha]) fun n hn hi hf => ?_
      cases hd : decode cw with
      | ok i =>
        rw [hd] at hf
        rw [step_of_done hf] at h
        exact .submit k cw rest n i ha hn hi hd h
      | error e =>
        rw [hd] at hf
        rw [step_of_done hf] at h
        obtain ⟨n', hn', (⟨-, h⟩ | ⟨hb, -⟩)⟩ := submitIllegal_next h
        · obtain rfl : n = n' := Option.some.inj (hn.symm.trans hn')
          exact .illegal k _ rest n ha ⟨cw, .inr rfl⟩ hn hi h
        · obtain rfl : n = n' := Option.some.inj (hn.symm.trans hn')
          exact absurd hi hb
    | tick =>
      rw [step_of_done (by unfold fetch; rw [ha])] at h
      exact .tick k rest ha h
    | reset =>
      rw [step_of_done (by unfold fetch; rw [ha])] at h
      obtain ⟨n, hn, h⟩ := resetInstance_next h
      exact .reset k rest n ha hn h
    | readRdata =>
      rw [step_of_done (by unfold fetch; rw [ha])] at h
      obtain ⟨n, v, hn, hv, rfl⟩ := readRdata_next h
      exact .read k _ rest n _ ha ⟨v, hv, rfl⟩ (mover_of_not_held ha rfl) hn rfl
    | collect =>
      refine held _ rfl (by unfold fetch; rw [ha]) fun n hn hi hf => ?_
      rw [step_of_done hf] at h
      have hk : s.mover = some k := mover_of_idle ha hn hi
      obtain ⟨n', hn', ⟨hr, v, hv, rfl⟩ | ⟨hr, rfl⟩⟩ := collect_next h <;>
        obtain rfl : n = n' := Option.some.inj (hn.symm.trans hn')
      · exact .read k _ rest n _ ha ⟨hi, .inl ⟨hr, v, hv, rfl⟩⟩ hk hn rfl
      · exact .read k _ rest n _ ha ⟨hi, .inr ⟨hr, rfl⟩⟩ hk hn rfl
    | readStatus =>
      rw [step_of_done (by unfold fetch; rw [ha])] at h
      obtain ⟨n, hn, h⟩ := withNode_next h
      cases h; exact .read k _ rest n _ ha rfl (mover_of_not_held ha rfl) hn rfl
    | readCause =>
      rw [step_of_done (by unfold fetch; rw [ha])] at h
      obtain ⟨n, hn, h⟩ := withNode_next h
      cases h; exact .read k _ rest n _ ha rfl (mover_of_not_held ha rfl) hn rfl
    | readBusCfg =>
      rw [step_of_done (by unfold fetch; rw [ha])] at h
      obtain ⟨n, hn, h⟩ := withNode_next h
      cases h; exact .read k _ rest n _ ha rfl (mover_of_not_held ha rfl) hn rfl
    | writeClkHz hz =>
      refine held _ rfl (by unfold fetch; rw [ha]) fun n hn hi hf => ?_
      rw [step_of_done hf] at h
      unfold writeClkHz at h
      split at h
      · cases h
      · obtain ⟨n', hn', h⟩ := withNode_next h
        obtain rfl : n = n' := Option.some.inj (hn.symm.trans hn')
        cases h
        exact .write k _ rest n _ ha ⟨by omega, rfl⟩ hn hi rfl
    | writeCpol b =>
      refine held _ rfl (by unfold fetch; rw [ha]) fun n hn hi hf => ?_
      rw [step_of_done hf] at h
      obtain ⟨n', hn', h⟩ := withNode_next h
      obtain rfl : n = n' := Option.some.inj (hn.symm.trans hn')
      cases h
      exact .write k _ rest n _ ha rfl hn hi rfl
    | writeCpha b =>
      refine held _ rfl (by unfold fetch; rw [ha]) fun n hn hi hf => ?_
      rw [step_of_done hf] at h
      obtain ⟨n', hn', h⟩ := withNode_next h
      obtain rfl : n = n' := Option.some.inj (hn.symm.trans hn')
      cases h
      exact .write k _ rest n _ ha rfl hn hi rfl

/-- What has to keep `P` for every step of the bus but a reset to keep it. -/
structure MovesKeep (P : State → Prop) : Prop where
  begin : ∀ (s : State) (m : Move) (rest : List Move), P s → P (s.begin m rest)
  choice : ∀ s : State, P s → P s.afterChoice
  steps : ∀ (s t : State) (k : Nat) (n : Node), P s → s.insts[k]? = some n → Steps k n s t → P t
  accept : ∀ (s : State) (k : Nat) (n : Node) (i : Instr), P s → s.insts[k]? = some n → n.eng.phase = .idle →
    P (s.accept k n (commandOrder i))
  reject : ∀ (s : State) (k : Nat) (n : Node) (c : Cause), P s → s.insts[k]? = some n → n.eng.phase = .idle →
    P (s.reject k n c)
  answer : ∀ (s : State) (k : Nat) (n : Node) (r : Reply), P s → s.insts[k]? = some n → P (s.answer k n r)
  write : ∀ (s : State) (k : Nat) (n : Node) (act : Act) (c : BusCfg), P s → s.insts[k]? = some n →
    n.eng.phase = .idle → act.writes n.eng.busCfg c → P (s.putNode k (n.setEng { n.eng with busCfg := c }))

/-- What has to keep `P` for every step of the bus to keep it. -/
structure StepKeeps (P : State → Prop) : Prop extends MovesKeep P where
  reset : ∀ (s : State) (k : Nat) (n : Node), P s → s.insts[k]? = some n → P (s.afterReset k n)

/-- A step of an instance keeps what its steps keep. -/
theorem MovesKeep.tick {P : State → Prop} (hP : MovesKeep P) {k : Nat} {s t : State} (hs : P s)
    (h : Sys2Proof.Machine.tick k s = .next t) : P t := by
  obtain ⟨n, hn, (⟨-, rfl⟩ | h)⟩ := tick_next h
  · exact hs
  · exact hP.steps s t k n hs hn h

/-- The passing of time keeps it. -/
theorem MovesKeep.advance {P : State → Prop} (hP : MovesKeep P) {s t : State} (hs : P s)
    (h : Sys2Proof.Machine.advance s = .next t) : P t := by
  obtain ⟨u, hu, h⟩ := advance_next h
  have hPu : P u := by
    rcases hu with rfl | rfl
    · exact hs
    · exact hP.choice s hs
  rcases h with ⟨-, rfl⟩ | ⟨k, -, h⟩
  · exact hPu
  · exact hP.tick hPu h

/-- A command keeps it. -/
theorem MovesKeep.exec {P : State → Prop} (hP : MovesKeep P) {i : Instr} {s t : State} (hs : P s)
    (h : Sys2Proof.Machine.exec i s = .next t) : P t := by
  rw [exec_eq_callCommand] at h
  obtain ⟨n, hn, (⟨-, rfl⟩ | ⟨hi, -, rfl⟩ | ⟨hi, -, h⟩)⟩ := callCommand_next h
  · exact hs
  · exact hP.reject s _ n _ hs hn hi
  · exact ticks_keep (fun u v hu hv => hP.tick hu hv) _ (hP.accept s _ n i hs hn hi) h

/-- A step of the bus either keeps it or is the reset of an instance. -/
theorem MovesKeep.step {P : State → Prop} (hP : MovesKeep P) {s t : State} (hs : P s)
    (h : Sys2Proof.Machine.step s = .next t) :
    P t ∨ ∃ (k : Nat) (rest : List Move) (n : Node), s.agenda = ⟨k, .reset⟩ :: rest ∧ s.insts[k]? = some n ∧
      t = (s.begin ⟨k, .reset⟩ rest).afterReset k n := by
  cases step_next h with
  | wait h hk why => exact .inl (hP.advance hs h)
  | run k cw rest n i ha hn hi hd h => exact .inl (hP.exec (hP.begin s _ _ hs) h)
  | submit k cw rest n i ha hn hi hd h =>
    have hb := hP.begin s ⟨k, .submit cw⟩ rest hs
    obtain ⟨n, hn, (⟨hi, -, rfl⟩ | ⟨hi, -, rfl⟩ | ⟨-, rfl⟩)⟩ := submit_next h
    · exact .inl (hP.accept _ k n i hb hn hi)
    · exact .inl (hP.reject _ k n _ hb hn hi)
    · exact .inl hb
  | illegal k act rest n ha hact hn hi h => subst h; exact .inl (hP.reject _ k n _ (hP.begin s _ _ hs) hn hi)
  | tick k rest ha h => exact .inl (hP.tick (hP.begin s _ _ hs) h)
  | reset k rest n ha hn h => exact .inr ⟨k, rest, n, ha, hn, h⟩
  | read k act rest n r ha hr hk hn h => subst h; exact .inl (hP.answer _ k n r (hP.begin s _ _ hs) hn)
  | write k act rest n c ha hw hn hi h =>
    subst h; exact .inl (hP.write _ k n act c (hP.begin s _ _ hs) hn hi hw)

/-- Every step of the bus keeps it. -/
theorem StepKeeps.step {P : State → Prop} (hP : StepKeeps P) {s t : State} (hs : P s)
    (h : Sys2Proof.Machine.step s = .next t) : P t := by
  rcases hP.toMovesKeep.step hs h with h | ⟨k, rest, n, -, hn, rfl⟩
  · exact h
  · exact hP.reset _ k n (hP.begin s _ _ hs) hn

/-- No step of an instance changes the choices to come. -/
theorem tick_choice {k : Nat} {s t : State} (h : tick k s = .next t) (i : Nat) : t.choice i = s.choice i := by
  obtain ⟨h₁, h₂⟩ := tick_choices h
  rw [State.choice, State.choice, h₁, h₂]

/-- A fair arbiter stays fair after any number of choices. -/
theorem State.ArbiterFair.afterChoice {s : State} {k : Nat} (h : s.ArbiterFair k) : s.afterChoice.ArbiterFair k := by
  intro j
  obtain ⟨i, hi, hk⟩ := h (j + 1)
  refine ⟨i - 1, by omega, ?_⟩
  rw [afterChoice_choice, Nat.sub_add_cancel (by omega), hk]

/-- A fair arbiter chooses an instance as often as a claim needs. -/
theorem State.ArbiterFair.chooses {s : State} {k : Nat} (h : s.ArbiterFair k) (m : Nat) : s.ArbiterChooses k m := by
  have later : ∀ m j : Nat, ∃ places : List Nat, places.length = m ∧ places.Pairwise (· < ·) ∧
      ∀ i ∈ places, j ≤ i ∧ s.choice i = k := by
    intro m
    induction m with
    | zero => exact fun _ => ⟨[], rfl, .nil, by simp⟩
    | succ m ih =>
      intro j
      obtain ⟨i, hi, hk⟩ := h j
      obtain ⟨places, hl, hp, ha⟩ := ih (i + 1)
      refine ⟨i :: places, by simp [hl], List.pairwise_cons.mpr ⟨fun x hx => (ha x hx).1, hp⟩, ?_⟩
      rintro x (_ | ⟨_, hx⟩)
      · exact ⟨hi, hk⟩
      · exact ⟨by have := (ha x hx).1; omega, (ha x hx).2⟩
  obtain ⟨places, hl, hp, ha⟩ := later m 0
  exact ⟨places, hl, hp, fun i hi => (ha i hi).2⟩

/-- No step of the bus ends the fairness of its arbiter. -/
theorem stepKeeps_arbiterFair (k : Nat) : StepKeeps (State.ArbiterFair · k) where
  begin _ _ _ h := h
  choice _ h := h.afterChoice
  steps _ _ _ _ h hn hs j := by simpa only [tick_choice (tick_of_steps hn hs)] using h j
  accept _ _ _ _ h _ _ := h
  reject _ _ _ _ h _ _ := h
  answer _ _ _ _ h _ := h
  write _ _ _ _ _ h _ _ _ := h
  reset _ _ _ h _ := h

/-- The premise `GapElapses` holds in every state of the invariant: the model has no time. -/
theorem State.Inv.gapElapses {s : State} (h : s.Inv) : s.GapElapses := by
  intro k n hn hp
  refine ⟨_, tick_of_steps hn (.gap hp ((h.engines k n hn).idx_running (.inr hp))), ?_⟩
  have hk := (List.getElem?_eq_some_iff.mp hn).1
  by_cases hi : n.eng.idx.toNat ≤ 4 <;> simp [hk, hi]

end Sys2Proof.Machine
end

