-- ==== Sys2Proof/Laws/Named.lean ====
section
/-! SUPPORT. How many registers the named operations read, and what `SETMISC` writes. -/

namespace Sys2Proof.Machine

/-- An entry has as many addresses as registers. -/
@[simp] theorem length_addrs (m : RegMap) (e : RegList) : (m.addrs e).length = m.partCount e := by simp [RegMap.addrs]

/-- There is one temperature register (43_compose_decode.md R129). -/
theorem addrs_temperature (m : RegMap) : m.addrs .temperature = [m.regAddr ⟨.temperature, 0⟩] := rfl

/-- A processed triplet has three registers, one per axis (43_compose_decode.md R130). -/
theorem addrs_processedAxes (m : RegMap) (s : Sensor) : m.addrs (.processedAxes s) =
    [m.regAddr ⟨.processedAxes s, 0⟩, m.regAddr ⟨.processedAxes s, 1⟩, m.regAddr ⟨.processedAxes s, 2⟩] := rfl

/-- A pair is two reads. -/
@[simp] theorem length_readPair (k : ValueKind) (a : Byte) : (readPair k a).length = 2 := rfl

/-- `BULKPROC` reads nine axes and every processed timestamp. -/
theorem length_bulkProc {m : RegMap} {misc : Option MiscTable} {l : List Fetch} (h : NamedOp.bulkProc.expand m misc = .ok l) :
    l.length = 9 + m.parts .processedTimestamps := by
  cases h
  simp [readWords, Sensor.all, RegMap.partCount, RegList.fixedParts]
  omega

/-- `BULKRAW` reads a pair of halves per raw register, every raw timestamp, and the temperature register last. -/
theorem length_bulkRaw {m : RegMap} {misc : Option MiscTable} {l : List Fetch} (h : NamedOp.bulkRaw.expand m misc = .ok l) :
    l.length = 2 * (m.parts (.rawAxes .gyro) + m.parts (.rawAxes .accel) + m.parts (.rawAxes .mag)) +
      m.parts .rawTimestamps + 1 := by
  cases h
  simp [readWords, Sensor.all, RegMap.partCount, RegList.fixedParts]
  omega

/-- `SETMISC` by a table is one `WR32` of the table's payload, whatever the table (43_compose_decode.md R137; log 28). -/
theorem expand_setMisc (m : RegMap) (t : MiscTable) (pps zg q mag : Bool) :
    (NamedOp.setMisc pps zg q mag).expand m (some t) =
      .ok [⟨.wr32 (m.regAddr ⟨.miscSettings, 0⟩) (t.pack pps zg q mag), .none⟩] := rfl

/-- By a table that meets R128's constraints, no payload has a bit outside the settings sub-field (item 1), and the row that
the source gives has the PPS bit and none of the other bits of the `zg` and `mag` branches (items 2 and 3). -/
theorem MiscTable.pack_of_ok {t : MiscTable} (h : t.ok = true) :
    (∀ pps zg q mag : Bool, t.pack pps zg q mag &&& ~~~t.subfield = 0#32) ∧
    t.pack true false true false &&& t.ppsMask ≠ 0#32 ∧
    t.pack true false true false &&& t.zgMagBits &&& ~~~t.ppsMask = 0#32 := by
  simp only [MiscTable.ok, Bool.and_eq_true, List.all_eq_true, beq_iff_eq, bne_iff_ne] at h
  obtain ⟨⟨rows, pps⟩, others⟩ := h
  exact ⟨fun _ _ _ _ => rows _ (by simp [MiscTable.pack]), pps, others⟩

end Sys2Proof.Machine
end

