-- ==== Sys2Proof/Laws/PerInstr.lean ====
section
/-! SUPPORT. A law of every command as syntax: what the bits of its function code mean (30_encoding.md R52). -/

namespace Sys2Proof.Laws.FuncBits

/-- The bits of the function code in the command word of `i`: the upper five are zero, bit 0 says that it is a write,
bit 1 that it does not take the whole slot, and bit 2 that it takes the second half (30_encoding.md R52). -/
def Statement (i : Instr) : Prop :=
  (encode i).extractLsb' 43 5 = 0#5 ∧
  ((encode i).getLsbD 40 = true ↔ (∃ a v, i = .wr32 a v) ∨ ∃ a, i = .wrcmd a) ∧
  ((encode i).getLsbD 41 = true ↔ (∃ a, i = .rd16h a) ∨ (∃ a, i = .rd16l a) ∨ ∃ a, i = .wrcmd a) ∧
  ((encode i).getLsbD 42 = true ↔ ∃ a, i = .rd16l a)

/-- The function code of a command word put together. -/
theorem high_bits (f a : Byte) (d : Word) :
    (commandWord f a d).extractLsb' 43 5 = f.extractLsb' 3 5 ∧
    ∀ j, (commandWord f a d).getLsbD (40 + j) = f.getLsbD j := by
  have key : ∀ j, (commandWord f a d).getLsbD (40 + j) = f.getLsbD j := by
    intro j
    change (f ++ a ++ d : BitVec (8 + 8 + 32)).getLsbD (40 + j) = _
    simp only [BitVec.getLsbD_append]
    rw [if_neg (by omega), if_neg (by omega), show 40 + j - 32 - 8 = j by omega]
  refine ⟨?_, key⟩
  apply BitVec.eq_of_getLsbD_eq
  intro i hi
  rw [BitVec.getLsbD_extractLsb', BitVec.getLsbD_extractLsb', show 43 + i = 40 + (3 + i) by omega, key]

theorem rd32 (a : Byte) : Statement (.rd32 a) := by
  obtain ⟨h, k⟩ := high_bits 0x00#8 a 0#32
  refine ⟨h.trans (by decide), ?_, ?_, ?_⟩
  · exact iff_of_false (by rw [show (encode (.rd32 a)).getLsbD 40 = _ from k 0]; decide) (by simp)
  · exact iff_of_false (by rw [show (encode (.rd32 a)).getLsbD 41 = _ from k 1]; decide) (by simp)
  · exact iff_of_false (by rw [show (encode (.rd32 a)).getLsbD 42 = _ from k 2]; decide) (by simp)

theorem wr32 (a : Byte) (v : Word) : Statement (.wr32 a v) := by
  obtain ⟨h, k⟩ := high_bits 0x01#8 a v
  refine ⟨h.trans (by decide), ?_, ?_, ?_⟩
  · exact iff_of_true (by rw [show (encode (.wr32 a v)).getLsbD 40 = _ from k 0]; decide) (.inl ⟨a, v, rfl⟩)
  · exact iff_of_false (by rw [show (encode (.wr32 a v)).getLsbD 41 = _ from k 1]; decide) (by simp)
  · exact iff_of_false (by rw [show (encode (.wr32 a v)).getLsbD 42 = _ from k 2]; decide) (by simp)

theorem rd16h (a : Byte) : Statement (.rd16h a) := by
  obtain ⟨h, k⟩ := high_bits 0x02#8 a 0#32
  refine ⟨h.trans (by decide), ?_, ?_, ?_⟩
  · exact iff_of_false (by rw [show (encode (.rd16h a)).getLsbD 40 = _ from k 0]; decide) (by simp)
  · exact iff_of_true (by rw [show (encode (.rd16h a)).getLsbD 41 = _ from k 1]; decide) (.inl ⟨a, rfl⟩)
  · exact iff_of_false (by rw [show (encode (.rd16h a)).getLsbD 42 = _ from k 2]; decide) (by simp)

theorem wrcmd (a : Byte) : Statement (.wrcmd a) := by
  obtain ⟨h, k⟩ := high_bits 0x03#8 a 0#32
  refine ⟨h.trans (by decide), ?_, ?_, ?_⟩
  · exact iff_of_true (by rw [show (encode (.wrcmd a)).getLsbD 40 = _ from k 0]; decide) (.inr ⟨a, rfl⟩)
  · exact iff_of_true (by rw [show (encode (.wrcmd a)).getLsbD 41 = _ from k 1]; decide) (.inr (.inr ⟨a, rfl⟩))
  · exact iff_of_false (by rw [show (encode (.wrcmd a)).getLsbD 42 = _ from k 2]; decide) (by simp)

theorem rd16l (a : Byte) : Statement (.rd16l a) := by
  obtain ⟨h, k⟩ := high_bits 0x06#8 a 0#32
  refine ⟨h.trans (by decide), ?_, ?_, ?_⟩
  · exact iff_of_false (by rw [show (encode (.rd16l a)).getLsbD 40 = _ from k 0]; decide) (by simp)
  · exact iff_of_true (by rw [show (encode (.rd16l a)).getLsbD 41 = _ from k 1]; decide) (.inr (.inl ⟨a, rfl⟩))
  · exact iff_of_true (by rw [show (encode (.rd16l a)).getLsbD 42 = _ from k 2]; decide) ⟨a, rfl⟩

end Sys2Proof.Laws.FuncBits
end

