-- ==== Sys2Proof/Tests/Slice0.lean ====
section
/-! SUPPORT. The model's own tests: expected results from 95_test_vectors.md or worked by hand from the rules, and for
every statement with hypotheses a witness that meets them. -/

namespace Sys2Proof.Tests

open Sys2Proof.Machine

/-! ### Small states -/

/-- A `BUSCFG` written out. -/
def cfg : BusCfg := { clkHz := 1, bitOrder := .msbFirst, cpol := false, cpha := false }

/-- An idle engine, as at reset, with a `BUSCFG` written out. -/
def idleEngine : Engine := { Engine.reset 0 with busCfg := cfg }

/-- An engine in flight: the latches of `RD16L 0x6D`, at phase `p` and index `i`. -/
def flightEngine (p : Phase) (i : BitVec 3) : Engine :=
  { idleEngine with op := .val 0b110#3, addr := .val 0x6D#8, wdata := .val 0#32, rxacc := .val 0#32, phase := p, idx := i
                    csN := !p.selectLow, busy := true }

/-- An oracle with six answers lined up. -/
def sixAnswers (b0 b1 b2 b3 b4 b5 : Byte) : Device := { Device.oracle with answers := [b0, b1, b2, b3, b4, b5] }

/-- A reference device. -/
def refDevice : Device := { Device.oracle with reference := true }

/-- A bus of one instance. -/
def bus (e : Engine) (d : Device) (owner : Option Nat := none) (agenda : List Move := []) : State :=
  { insts := [{ eng := e, dev := d, verdict := none, replies := [] }], busOwner := owner, trace := [], draws := 0, port := 0
    agenda := agenda, choices := [], chosen := 0 }

/-- A look at the outcome of a step. -/
def look {α : Type} (r : Result) (f : State → α) : Option α :=
  match r with
  | .next s => some (f s)
  | .fault _ => none
  | .refused _ => none

/-- The first instance's engine after a step. -/
def engineOf {α : Type} (r : Result) (f : Engine → α) : Option (Option α) := look r fun s => s.insts[0]?.map fun n => f n.eng

/-- The bytes sent in a step. -/
def sentIn (r : Result) : Option (List Byte) := look r fun s => sentBytes (s.trace.map Prod.snd)

/-- The fault a step ends in. -/
def faultOf (r : Result) : Option Fault :=
  match r with
  | .fault f => some f
  | .next _ => none
  | .refused _ => none

/-! ### WellFormed: an ill-formed term for each check -/

theorem test_rd32_unmapped : (Instr.rd32 0x30#8).wellFormed = false := by decide
theorem test_rd16h_unmapped : (Instr.rd16h 0x27#8).wellFormed = false := by decide
theorem test_rd16l_unmapped : (Instr.rd16l 0xB4#8).wellFormed = false := by decide
theorem test_wr32_unmapped : (Instr.wr32 0xFF#8 0#32).wellFormed = false := by decide
theorem test_wr32_data : (Instr.wr32 0x60#8 1#32).wellFormed = false := by decide
theorem test_wr32_command : (Instr.wr32 0xAB#8 0#32).wellFormed = false := by decide
theorem test_wrcmd_unmapped : (Instr.wrcmd 0xA9#8).wellFormed = false := by decide
theorem test_wrcmd_config : (Instr.wrcmd 0x05#8).wellFormed = false := by decide
theorem test_wrcmd_data : (Instr.wrcmd 0x60#8).wellFormed = false := by decide
theorem test_range_ends_are_well_formed :
    ([0x00#8, 0x26#8, 0x55#8, 0x8B#8, 0xAA#8, 0xB3#8].all fun a => (Instr.rd32 a).wellFormed) = true := by decide

/-! ### Decoding: words written out bit by bit (func, addr, data) -/

/-- D1 of 95_test_vectors.md. -/
theorem test_decode_rd32 :
    decode 0b00000000_01100101_00000000000000000000000000000000#48 = .ok (.rd32 0x65#8) := by decide
/-- D3. -/
theorem test_decode_wr32 :
    decode 0b00000001_00000101_00110010001010000000000000000000#48 = .ok (.wr32 0x05#8 0x32280000#32) := by decide
/-- D4. -/
theorem test_decode_rd16h :
    decode 0b00000010_01101101_00000000000000000000000000000000#48 = .ok (.rd16h 0x6D#8) := by decide
/-- D7. -/
theorem test_decode_wrcmd :
    decode 0b00000011_10101101_11011110101011011011111011101111#48 = .ok (.wrcmd 0xAD#8) := by decide
/-- D5. -/
theorem test_decode_rd16l :
    decode 0b00000110_01101101_00000000000000000000000000000000#48 = .ok (.rd16l 0x6D#8) := by decide
/-- D9, D10, D11. -/
theorem test_decode_reserved :
    decode 0x056500000000#48 = .error (.illegalFunc 0x05#8) ∧ decode 0x076500000000#48 = .error (.illegalFunc 0x07#8) ∧
    decode 0x086500000000#48 = .error (.illegalFunc 0x08#8) := by decide
/-- The table's word is the command word (30_encoding.md R63). -/
theorem test_table_word : decodeTableWord 48 0x010532280000 = some (.wr32 0x05#8 0x32280000#32) := by decide
theorem test_table_word_reserved : decodeTableWord 48 0xFF3000000000 = none := by decide

/-! ### Fetching from reset -/

/-- Placed as the next move of the reset state, a word's command is what `step` runs. -/
theorem test_fetch_from_reset (w : Nat) (i : Instr) (h : decode (BitVec.ofNat 48 (w % 2 ^ 48)) = .ok i) :
    step (State.reset.withFetchWord 48 w) = exec i State.reset := by
  have hf : fetch (State.reset.withFetchWord 48 w) = .run i State.reset := by
    change (match decode (BitVec.ofNat 48 (w % 2 ^ 48)) with
      | .ok i => Fetched.run i State.reset
      | .error _ => Fetched.done (submitIllegal 0 State.reset)) = _
    rw [h]
  unfold step
  rw [hf]
/-- From reset, `RD32 0` runs to its end. -/
theorem test_fetch_completes :
    engineOf (step (State.reset.withFetchWord 48 0)) (fun e => (e.phase, e.done, e.err)) =
      some (some (.idle, true, false)) := by decide

/-! ### The commands, from the vectors -/

/-- R1: `RD32 0x65`. -/
theorem test_rd32_value :
    engineOf (exec (.rd32 0x65#8) (bus idleEngine (sixAnswers 0#8 0#8 0x12#8 0x34#8 0x56#8 0x78#8))) Engine.rdata =
      some (some (.val 0x12345678#32)) := by decide
/-- The frame of every read is `[00 a 00 00 00 00]`. -/
theorem test_rd32_frame :
    sentIn (exec (.rd32 0x65#8) (bus idleEngine Device.oracle)) =
      some [0x00#8, 0x65#8, 0x00#8, 0x00#8, 0x00#8, 0x00#8] := by decide
/-- R6: `RD16H 0x6D` is sign-extended. -/
theorem test_rd16h_sign :
    engineOf (exec (.rd16h 0x6D#8) (bus idleEngine (sixAnswers 0#8 0#8 0xC5#8 0x7A#8 0x3A#8 0x2E#8))) Engine.rdata =
      some (some (.val 0xFFFFC57A#32)) := by decide
/-- R9. -/
theorem test_rd16h_positive :
    engineOf (exec (.rd16h 0x6D#8) (bus idleEngine (sixAnswers 0#8 0#8 0x7F#8 0xFF#8 0x80#8 0x01#8))) Engine.rdata =
      some (some (.val 0x00007FFF#32)) := by decide
/-- R14: `RD16L 0x6D`; the bytes of the opcode and address exchanges are ignored. -/
theorem test_rd16l_value :
    engineOf (exec (.rd16l 0x6D#8) (bus idleEngine (sixAnswers 0xAA#8 0xBB#8 0xC5#8 0x7A#8 0x3A#8 0x2E#8)))
      (fun e => (e.rdata, e.rxacc)) = some (some (.val 0x00003A2E#32, .val 0x00003A2E#32)) := by decide
/-- R10. -/
theorem test_rd16l_sign :
    engineOf (exec (.rd16l 0x6D#8) (bus idleEngine (sixAnswers 0#8 0#8 0#8 0#8 0xFF#8 0xFF#8))) Engine.rdata =
      some (some (.val 0xFFFFFFFF#32)) := by decide
/-- W1: the frame of `WR32 0x05, 0x32280000`; `RDATA` holds what it held. -/
theorem test_wr32_frame :
    sentIn (exec (.wr32 0x05#8 0x32280000#32) (bus idleEngine Device.oracle)) =
      some [0x01#8, 0x05#8, 0x32#8, 0x28#8, 0x00#8, 0x00#8] ∧
    engineOf (exec (.wr32 0x05#8 0x32280000#32) (bus idleEngine Device.oracle)) Engine.rdata = some (some .nv) := by
  decide
/-- W5: `reg[0x10] <- 0x01020304` in the reference device, its bytes in wire order. -/
theorem test_wr32_reference :
    look (exec (.wr32 0x10#8 0x01020304#32) (bus idleEngine refDevice)) (fun s => s.insts[0]?.map fun n => n.dev.regs) =
      some (some [(64, 0x01#8), (65, 0x02#8), (66, 0x03#8), (67, 0x04#8)]) := by decide
/-- W7: the payload of `WRCMD 0xB3` is zero whatever the data field holds. -/
theorem test_wrcmd_frame :
    sentIn (step (bus idleEngine Device.oracle none [⟨0, .call 0x03B3FFFFFFFF#48⟩])) =
      some [0x01#8, 0xB3#8, 0x00#8, 0x00#8, 0x00#8, 0x00#8] := by decide
/-- D17: `WRCMD` of a data register is rejected and moves no select line. -/
theorem test_wrcmd_rejected :
    look (exec (.wrcmd 0x60#8) (bus idleEngine Device.oracle)) (fun s =>
      (s.trace, s.insts[0]?.map fun n => (n.eng.err, n.eng.cause, n.verdict))) =
      some ([], some (true, .illegalAccess, some .rejected)) := by decide

/-! ### Rejection, priority, sequencing, reset -/

/-- D12: a reserved function code wins over an unmapped address. -/
theorem test_reserved_wins :
    engineOf (step (bus idleEngine Device.oracle none [⟨0, .submit 0xFF3000000000#48⟩])) (fun e => (e.err, e.causeWord)) =
      some (some (true, 1#2)) := by decide
/-- D13 and D20: unmapped addresses. -/
theorem test_unmapped_is_illegal_addr :
    engineOf (step (bus idleEngine Device.oracle none [⟨0, .submit 0x003000000000#48⟩])) Engine.causeWord = some (some 2#2) ∧
    engineOf (step (bus idleEngine Device.oracle none [⟨0, .submit 0x01FF00000000#48⟩])) Engine.causeWord =
      some (some 2#2) := by decide
/-- The accept row of 95_test_vectors.md section 2.8. -/
theorem test_accept_row :
    engineOf (step (bus idleEngine Device.oracle none [⟨0, .submit 0x066D00000000#48⟩]))
      (fun e => (e.phase, e.idx, e.csN)) = some (some (.acquire, 0#3, true)) ∧
    engineOf (step (bus idleEngine Device.oracle none [⟨0, .submit 0x066D00000000#48⟩]))
      (fun e => (e.rxacc, e.busy, e.done)) = some (some (.val 0#32, true, false)) := by decide
/-- The exchange row with `IDX = 4` of section 2.8. -/
theorem test_exchange_row :
    engineOf (step (bus (flightEngine .exch 4#3) { Device.oracle with answers := [0x3A#8] } (some 0) [⟨0, .tick⟩]))
      (fun e => (e.phase, e.idx, e.rxacc)) = some (some (.gap, 4#3, .val 0x0000003A#32)) := by decide
/-- The last gap row of section 2.8. -/
theorem test_last_gap_row :
    engineOf (step (bus (flightEngine .gap 5#3) Device.oracle (some 0) [⟨0, .tick⟩])) (fun e => (e.phase, e.idx)) =
      some (some (.deselect, 6#3)) := by decide
/-- X2: a reset in `GAP` emits `CsHigh` and `EndScope`, frees the bus and leaves the device's pointer undefined. -/
theorem test_reset_in_gap :
    look (step (bus (flightEngine .gap 2#3) Device.oracle (some 0) [⟨0, .reset⟩])) (fun s => (s.trace, s.busOwner)) =
      some ([(0, .csHigh), (0, .endScope)], none) ∧
    look (step (bus (flightEngine .gap 2#3) Device.oracle (some 0) [⟨0, .reset⟩])) (fun s =>
      s.insts[0]?.map fun n => (n.eng.phase, n.eng.rdata, n.dev.pointerLost)) = some (some (.idle, .nv, true)) := by decide
/-- X3: a reset in `ACQUIRE` emits nothing, and the device saw nothing. -/
theorem test_reset_in_acquire :
    look (step (bus (flightEngine .acquire 0#3) Device.oracle none [⟨0, .reset⟩])) (fun s =>
      (s.trace, s.insts[0]?.map fun n => n.dev.pointerLost)) = some ([], some false) := by decide
/-- X4: a reset in `SELECT` emits `EndScope` only. -/
theorem test_reset_in_select :
    look (step (bus (flightEngine .select 0#3) Device.oracle (some 0) [⟨0, .reset⟩])) State.trace =
      some [(0, .endScope)] := by decide
/-- X5: the host's read of `RDATA` right after reset is the model fault. -/
theorem test_early_rdata_faults :
    faultOf (step (bus idleEngine Device.oracle none [⟨0, .readRdata⟩])) = some (.noValue .rdata) := by decide
/-- A `CLK_HZ` of zero is refused. -/
theorem test_zero_clock_is_refused :
    (match step (bus idleEngine Device.oracle none [⟨0, .writeClkHz 0⟩]) with
     | .refused f => some f
     | .next _ => none
     | .fault _ => none) = some .clockNotPositive := by decide

/-! ### Composition, typed decoding, packing -/

/-- C1 to C7 of 95_test_vectors.md. -/
theorem test_compose :
    be16 0xC5#8 0x7A#8 = 0xC57A#16 ∧ be32 0x12#8 0x34#8 0x56#8 0x78#8 = 0x12345678#32 ∧
    split32 0x12345678#32 = (0x12#8, 0x34#8, 0x56#8, 0x78#8) ∧ half 0xC57A3A2E#32 .high = 0xC57A#16 ∧
    half 0xC57A3A2E#32 .low = 0x3A2E#16 ∧ sext32 0x8000#16 = 0xFFFF8000#32 ∧ sext32 0x7FFF#16 = 0x00007FFF#32 := by decide
/-- T17 to T20 and T26. -/
theorem test_erate :
    erate 0xFFFF#16 = -1 / 16 ∧ erate 0x0320#16 = 50 ∧ erate 0x8000#16 = -2048 ∧ i32 0xFFFFFFFE#32 = -2 := by
  simp [erate, rateDiv, i32]; norm_num
/-- T2: `QUAT(29789)` is within 4 millionths of 1. -/
theorem test_quat : |quat 0x745D#16 - 1| < 4 / 1000000 := by
  simp [quat, qDiv]; norm_num [abs_lt]
/-- T10: `EULER(9102)` is within 0.003 of 100. -/
theorem test_euler : |euler 0x238E#16 - 100| < 3 / 1000 := by
  simp [euler, eulerDiv]; norm_num [abs_lt]
/-- A NaN keeps its sign and its payload. -/
theorem test_f32_nan :
    f32 0x7FC00001#32 = .nan false 0x400001#23 ∧ f32 0xFFC00001#32 = .nan true 0x400001#23 ∧
    f32 0xFF800000#32 = .infinity true := by
  refine ⟨?_, ?_, ?_⟩ <;> simp [f32]
/-- T21, T22, T24 and the negative zero of R5. -/
theorem test_f32 :
    f32 0x3F800000#32 = .finite false 1 ∧ f32 0xC0200000#32 = .finite true (5 / 2) ∧
    f32 0x7F800000#32 = .infinity false ∧ f32 0x80000000#32 = .finite true 0 := by
  refine ⟨?_, ?_, ?_, ?_⟩ <;> simp [f32, singleMagnitude] <;> norm_num [Rat.mkRat_eq_div]
/-- P6, P7. -/
theorem test_pack_all : packAll 3 20#8 = 0x00000014#32 ∧ packAll 0 20#8 = 0x14000000#32 := by decide

/-! ### Witnesses: for every statement with hypotheses, a state and operands that meet them all together -/

/-- The one instance of `bus`. -/
def node (e : Engine) (d : Device) : Node := { eng := e, dev := d, verdict := none, replies := [] }

/-- Words that meet the six premises of `DecodeFollowsMatchAndMask`, the last with the code between the defined ones. -/
theorem witness_match_and_mask :
    0x006500000000#48 &&& 0xFF0000000000#48 = 0x000000000000#48 ∧
    0x0126FFFFFFFF#48 &&& 0xFF0000000000#48 = 0x010000000000#48 ∧
    0x026D00000000#48 &&& 0xFF0000000000#48 = 0x020000000000#48 ∧
    0x03AD00000000#48 &&& 0xFF0000000000#48 = 0x030000000000#48 ∧
    0x066D00000000#48 &&& 0xFF0000000000#48 = 0x060000000000#48 ∧
    (∀ m ∈ [0x000000000000#48, 0x010000000000#48, 0x020000000000#48, 0x030000000000#48, 0x060000000000#48],
      0x046500000000#48 &&& 0xFF0000000000#48 ≠ m) := by simp

/-- `DecodeInvertsEncode`, second clause. -/
theorem witness_decode_ok : decode 0x03ADDEADBEEF#48 = .ok (.wrcmd 0xAD#8) := by decide

/-- `CheckIsTheAccessMatrix`: each of the three answers is given, at the ends of the ranges. -/
theorem witness_check :
    check (.wr32 0x26#8 0#32) = .none ∧ check (.wr32 0x27#8 0#32) = .illegalAddr ∧
    check (.wr32 0x55#8 0#32) = .illegalAccess ∧ check (.wrcmd 0xAA#8) = .none ∧ check (.wrcmd 0xA9#8) = .illegalAddr ∧
    check (.rd32 0xB3#8) = .none ∧ check (.rd32 0xB4#8) = .illegalAddr := by decide

/-- A register map whose images lie in the ranges of their kinds: two registers for the raw axes of a sensor, one for each
other entry the spec gives no number for. -/
def map : RegMap :=
  { regAddr := fun r =>
      match r.entry with
      | .rates | .homePosition | .trim | .calibration | .miscSettings => 0x08#8
      | .firmwareQuery | .trigger _ => 0xB3#8
      | .health | .rawAxes _ | .rawTimestamps | .temperature | .processedAxes _ | .processedTimestamps | .quaternion
      | .eulerAngles | .eulerRates | .positionVelocity | .gps | .gyroBias => 0x8B#8
    parts := fun e => match e with
      | .rawAxes _ => 2
      | .rates | .homePosition | .trim | .calibration | .miscSettings | .health | .rawTimestamps | .temperature
      | .processedAxes _ | .processedTimestamps | .quaternion | .eulerAngles | .eulerRates | .positionVelocity | .gps
      | .gyroBias | .firmwareQuery | .trigger _ => 1 }

/-- The spec admits it. -/
theorem map_ok : map.Ok :=
  ⟨fun r => by obtain ⟨e, p⟩ := r; cases e <;> simp [map, RegList.kind] <;> decide,
    fun e => by cases e <;> simp [map, RegMap.partCount, RegList.fixedParts], fun _ => by simp [map]⟩

/-- `BULKPROC` reads nine axes and a timestamp, `BULKRAW` six pairs, a timestamp and the temperature register, on this map
(R129, R130). -/
theorem test_bulk_counts :
    (NamedOp.bulkProc.expand map none).toOption.map List.length = some 10 ∧
    (NamedOp.bulkRaw.expand map none).toOption.map List.length = some 14 := by decide

/-- `NamedOperationsAreAccepted`: its premises, for a bulk read, a rate and a trigger. -/
theorem witness_named_operations :
    (∀ r : RegName, kindOf (map.regAddr r) = r.entry.kind) ∧
    NamedOp.orient.expand map none = .ok [⟨.rd16h 0x8B#8, .quat⟩, ⟨.rd16l 0x8B#8, .quat⟩, ⟨.rd16h 0x8B#8, .euler⟩,
      ⟨.rd16l 0x8B#8, .euler⟩, ⟨.rd16h 0x8B#8, .erate⟩, ⟨.rd16l 0x8B#8, .erate⟩, ⟨.rd32 0x8B#8, .f32⟩] ∧
    (NamedOp.setRate 0x05#8 50#8 40#8 0#8 0#8).expand map none = .ok [⟨.wr32 0x05#8 0x32280000#32, .none⟩] ∧
    kindOf 0x05#8 = .config ∧
    (NamedOp.trigger .zeroGyros).expand map none = .ok [⟨.wrcmd 0xB3#8, .none⟩] :=
  ⟨map_ok.kinds, rfl, rfl, by decide, rfl⟩

/-- `OnlySetMiscWithoutTableIsRefused`: the refused case is there. -/
theorem witness_set_misc_refused :
    (NamedOp.setMisc true false true false).expand map none = .error .noMiscTable := by decide

/-- The candidate of 93_implementation_defined.md G4, unverified there and no part of the model: PPS at bit 8, ZG at bit 2,
Q at bit 1, MAG at bit 0. -/
def g4 : MiscTable :=
  { rows := #v[0x000#32, 0x001#32, 0x002#32, 0x003#32, 0x004#32, 0x005#32, 0x006#32, 0x007#32,
      0x100#32, 0x101#32, 0x102#32, 0x103#32, 0x104#32, 0x105#32, 0x106#32, 0x107#32]
    lowBit := 0, ppsBit := 0, zgMagBits := 0x005#32 }

/-- G4 meets R128's constraints, as the spec says there; its row for the source's example is PPS and Q.  A table with a bit
outside the sub-field, or whose example row has a bit of the `zg` branch, breaks them. -/
theorem test_misc_table :
    g4.ok = true ∧ g4.pack true false true false = 0x102#32 ∧
    ({ g4 with lowBit := 8 } : MiscTable).ok = false ∧ ({ g4 with zgMagBits := 0x006#32 } : MiscTable).ok = false := by decide

/-- `StepRunsTheDecodedCommand`. -/
theorem witness_step_runs :
    (bus idleEngine Device.oracle none [⟨0, .call 0x026D00000000#48⟩]).agenda = [⟨0, .call 0x026D00000000#48⟩] ∧
    (bus idleEngine Device.oracle none [⟨0, .call 0x026D00000000#48⟩]).insts[0]? =
      some (node idleEngine Device.oracle) ∧
    (node idleEngine Device.oracle).eng.phase = .idle ∧ decode 0x026D00000000#48 = .ok (.rd16h 0x6D#8) :=
  ⟨rfl, rfl, rfl, by decide⟩

/-- `AcceptStepLatchesTheCommandWord`: a word with a payload. -/
theorem witness_accept :
    (bus idleEngine Device.oracle none [⟨0, .submit 0x010532280000#48⟩]).agenda = [⟨0, .submit 0x010532280000#48⟩] ∧
    (bus idleEngine Device.oracle none [⟨0, .submit 0x010532280000#48⟩]).insts[0]? =
      some (node idleEngine Device.oracle) ∧
    (node idleEngine Device.oracle).eng.phase = .idle ∧
    decode 0x010532280000#48 = .ok (.wr32 0x05#8 0x32280000#32) ∧ (Instr.wr32 0x05#8 0x32280000#32).wellFormed = true :=
  ⟨rfl, rfl, rfl, by decide, by decide⟩

/-- `ReservedFunctionIsRejected`, submitted. -/
theorem witness_reserved :
    (bus idleEngine Device.oracle none [⟨0, .submit 0xFF3000000000#48⟩]).agenda = [⟨0, .submit 0xFF3000000000#48⟩] ∧
    (bus idleEngine Device.oracle none [⟨0, .submit 0xFF3000000000#48⟩]).insts[0]? =
      some (node idleEngine Device.oracle) ∧
    (node idleEngine Device.oracle).eng.phase = .idle ∧
    (∀ f ∈ [0x00#8, 0x01#8, 0x02#8, 0x03#8, 0x06#8], (0xFF3000000000#48).extractLsb' 40 8 ≠ f) :=
  ⟨rfl, rfl, rfl, by decide⟩

/-- `RejectedCommandOnlyRecordsItsCause`, with an unmapped address and with a kind the command may not write. -/
theorem witness_rejected :
    (bus idleEngine Device.oracle).insts[(bus idleEngine Device.oracle).port]? = some (node idleEngine Device.oracle) ∧
    (node idleEngine Device.oracle).eng.phase = .idle ∧ (Instr.wr32 0x30#8 0#32).wellFormed = false ∧
    (Instr.wr32 0x8B#8 0#32).wellFormed = false :=
  ⟨rfl, rfl, by decide, by decide⟩

/-- `ARejectionDoesExactlyThis`, for a command its row does not allow; `witness_reserved` is its other case. -/
theorem witness_submit_rejects :
    (bus idleEngine Device.oracle none [⟨0, .submit 0x030500000000#48⟩]).agenda = [⟨0, .submit 0x030500000000#48⟩] ∧
    (bus idleEngine Device.oracle none [⟨0, .submit 0x030500000000#48⟩]).insts[0]? =
      some (node idleEngine Device.oracle) ∧
    (node idleEngine Device.oracle).eng.phase = .idle ∧ decode 0x030500000000#48 = .ok (.wrcmd 0x05#8) ∧
    (Instr.wrcmd 0x05#8).wellFormed = false :=
  ⟨rfl, rfl, rfl, by decide, by decide⟩

/-- `BusyInstanceHoldsItsHost`: a host's submit held in `GAP`, and the step answers a next state. -/
theorem witness_busy :
    (bus (flightEngine .gap 2#3) Device.oracle (some 0) [⟨0, .submit 0#48⟩]).agenda = [⟨0, .submit 0#48⟩] ∧
    (bus (flightEngine .gap 2#3) Device.oracle (some 0) [⟨0, .submit 0#48⟩]).insts[0]? =
      some (node (flightEngine .gap 2#3) Device.oracle) ∧
    (node (flightEngine .gap 2#3) Device.oracle).eng.phase ≠ .idle ∧
    look (step (bus (flightEngine .gap 2#3) Device.oracle (some 0) [⟨0, .submit 0#48⟩])) State.agenda =
      some [⟨0, .submit 0#48⟩] :=
  ⟨rfl, rfl, by decide, by decide⟩

/-- `AcquireStep`, its two clauses: the bus free, and the bus owned by another instance. -/
theorem witness_acquire :
    (bus (flightEngine .acquire 0#3) Device.oracle none [⟨0, .tick⟩]).agenda = [⟨0, .tick⟩] ∧
    (bus (flightEngine .acquire 0#3) Device.oracle none [⟨0, .tick⟩]).insts[0]? =
      some (node (flightEngine .acquire 0#3) Device.oracle) ∧
    (node (flightEngine .acquire 0#3) Device.oracle).eng.phase = .acquire ∧
    (bus (flightEngine .acquire 0#3) Device.oracle none [⟨0, .tick⟩]).busOwner = none ∧
    (bus (flightEngine .acquire 0#3) Device.oracle (some 1) [⟨0, .tick⟩]).busOwner ≠ none :=
  ⟨rfl, rfl, rfl, rfl, by decide⟩

/-- `SelectStep`. -/
theorem witness_select :
    (bus (flightEngine .select 0#3) Device.oracle (some 0) [⟨0, .tick⟩]).agenda = [⟨0, .tick⟩] ∧
    (bus (flightEngine .select 0#3) Device.oracle (some 0) [⟨0, .tick⟩]).insts[0]? =
      some (node (flightEngine .select 0#3) Device.oracle) ∧
    (node (flightEngine .select 0#3) Device.oracle).eng.phase = .select :=
  ⟨rfl, rfl, rfl⟩

/-- The bytes of `RD16L 0x6D`, as far as the device has taken them. -/
def taken (i : Nat) : Device := { Device.oracle with frame := [0x00#8, 0x6D#8, 0x00#8, 0x00#8, 0x00#8, 0x00#8].take i }

/-- The device's pointer stands where the index of a `flightEngine` does. -/
theorem taken_sent (p : Phase) (x : BitVec 3) {i : Nat} (h : i ≤ 6) : (node (flightEngine p x) (taken i)).Sent i := by
  intro op a wd ho ha hw
  cases ho; cases ha; cases hw
  interval_cases i <;> rfl

/-- `ExchangeStep`, at the last exchange; its clauses: a transport that answers, with a device that has taken the bytes
sent before, and one that does not. -/
theorem witness_exchange :
    (bus (flightEngine .exch 5#3) (taken 5) (some 0) [⟨0, .tick⟩]).agenda = [⟨0, .tick⟩] ∧
    (bus (flightEngine .exch 5#3) (taken 5) (some 0) [⟨0, .tick⟩]).insts[0]? =
      some (node (flightEngine .exch 5#3) (taken 5)) ∧
    (flightEngine .exch 5#3).phase = .exch ∧ (taken 5).answersLeft ≠ some 0 ∧
    (flightEngine .exch 5#3).op = .val 0b110#3 ∧ (flightEngine .exch 5#3).addr = .val 0x6D#8 ∧
    (flightEngine .exch 5#3).wdata = .val 0#32 ∧ (flightEngine .exch 5#3).rxacc = .val 0#32 ∧
    roleOf 0b110#3 (flightEngine .exch 5#3).idx.toNat = some .data ∧
    txByte 0b110#3 0x6D#8 0#32 (flightEngine .exch 5#3).idx.toNat = some 0x00#8 ∧
    (node (flightEngine .exch 5#3) (taken 5)).Sent (flightEngine .exch 5#3).idx.toNat ∧
    ({ Device.oracle with answersLeft := some 0 } : Device).answersLeft = some 0 :=
  ⟨rfl, rfl, rfl, by decide, rfl, rfl, rfl, rfl, by decide, by decide, taken_sent _ _ (by decide), rfl⟩

/-- An engine in flight with the latches of `WR32 0x26, 0x01020304`. -/
def writeEngine (i : BitVec 3) : Engine :=
  { flightEngine .exch i with op := .val 0b001#3, addr := .val 0x26#8, wdata := .val 0x01020304#32 }

/-- `ExchangeStep`: the sixth byte of a write stores the payload in the reference device, the fifth stores nothing. -/
theorem witness_exchange_stores :
    (node (writeEngine 5#3) { refDevice with frame := [0x01#8, 0x26#8, 0x01#8, 0x02#8, 0x03#8] }).Sent 5 ∧
    look (step (bus (writeEngine 5#3) { refDevice with frame := [0x01#8, 0x26#8, 0x01#8, 0x02#8, 0x03#8] } (some 0)
      [⟨0, .tick⟩])) (fun s => s.insts[0]?.map fun n => n.dev.regs) =
      some (some [(152, 0x01#8), (153, 0x02#8), (154, 0x03#8), (155, 0x04#8)]) ∧
    look (step (bus (writeEngine 4#3) { refDevice with frame := [0x01#8, 0x26#8, 0x01#8, 0x02#8] } (some 0)
      [⟨0, .tick⟩])) (fun s => s.insts[0]?.map fun n => n.dev.regs) = some (some []) := by
  refine ⟨?_, by decide, by decide⟩
  intro op a wd ho ha hw
  cases ho; cases ha; cases hw
  rfl

/-- `GapStep`, at both ends of the index. -/
theorem witness_gap :
    (bus (flightEngine .gap 5#3) Device.oracle (some 0) [⟨0, .tick⟩]).agenda = [⟨0, .tick⟩] ∧
    (bus (flightEngine .gap 5#3) Device.oracle (some 0) [⟨0, .tick⟩]).insts[0]? =
      some (node (flightEngine .gap 5#3) Device.oracle) ∧
    (flightEngine .gap 5#3).phase = .gap ∧ (flightEngine .gap 5#3).idx.toNat ≤ 5 ∧
    (flightEngine .gap 0#3).idx.toNat ≤ 5 :=
  ⟨rfl, rfl, rfl, by decide, by decide⟩

/-- `DeselectStep`, after six exchanges. -/
theorem witness_deselect :
    (bus (flightEngine .deselect 6#3) (taken 6) (some 0) [⟨0, .tick⟩]).agenda = [⟨0, .tick⟩] ∧
    (bus (flightEngine .deselect 6#3) (taken 6) (some 0) [⟨0, .tick⟩]).insts[0]? =
      some (node (flightEngine .deselect 6#3) (taken 6)) ∧
    (flightEngine .deselect 6#3).phase = .deselect ∧ (taken 6).frame.length = 6 :=
  ⟨rfl, rfl, rfl, rfl⟩

/-- `ReleaseStep`, of a read. -/
theorem witness_release :
    (bus (flightEngine .release 6#3) Device.oracle (some 0) [⟨0, .tick⟩]).agenda = [⟨0, .tick⟩] ∧
    (bus (flightEngine .release 6#3) Device.oracle (some 0) [⟨0, .tick⟩]).insts[0]? =
      some (node (flightEngine .release 6#3) Device.oracle) ∧
    (flightEngine .release 6#3).phase = .release ∧ (flightEngine .release 6#3).op = .val 0b110#3 ∧
    (flightEngine .release 6#3).rxacc = .val 0#32 :=
  ⟨rfl, rfl, rfl, rfl, rfl⟩

/-- `PhasesFollowTheOneSequence`: a step that goes on. -/
theorem witness_phases :
    engineOf (tick 0 (bus (flightEngine .gap 5#3) Device.oracle (some 0))) Engine.phase = some (some .deselect) := by
  decide

/-- The premises of the five completion statements and of `ThreeReadsAreOneTransaction`: a ready instance, and a command
its row allows at each end of its ranges. -/
theorem witness_ready :
    (bus idleEngine Device.oracle).Ready (node idleEngine Device.oracle) ∧
    (Instr.rd32 0x00#8).wellFormed = true ∧ (Instr.rd16h 0x8B#8).wellFormed = true ∧
    (Instr.rd16l 0xB3#8).wellFormed = true ∧ (Instr.wr32 0x26#8 0xFFFFFFFF#32).wellFormed = true ∧
    (Instr.wrcmd 0xAA#8).wellFormed = true ∧ (node idleEngine Device.oracle).dev.reference = false :=
  ⟨⟨rfl, rfl, rfl, rfl⟩, by decide, by decide, by decide, by decide, by decide, rfl⟩

/-- A ready instance with a reference device, whose transport answers exactly six more exchanges. -/
theorem witness_ready_reference :
    (bus idleEngine { refDevice with answersLeft := some 6 }).Ready
      (node idleEngine { refDevice with answersLeft := some 6 }) :=
  ⟨rfl, rfl, rfl, by decide⟩

/-- `CallIsAcceptAndSixteenSteps`. -/
theorem witness_call :
    (bus idleEngine Device.oracle).insts[0]? = some (node idleEngine Device.oracle) ∧ idleEngine.phase = .idle :=
  ⟨rfl, rfl⟩

/-- `CallWaitsForTheBus`. -/
theorem witness_call_waits :
    (bus idleEngine Device.oracle (some 1)).insts[0]? = some (node idleEngine Device.oracle) ∧ idleEngine.phase = .idle ∧
    (Instr.rd32 0x55#8).wellFormed = true ∧ (bus idleEngine Device.oracle (some 1)).busOwner = some 1 :=
  ⟨rfl, rfl, by decide, rfl⟩

/-- `HungCallStopsWithSelectLow`, with the most and the fewest exchanges answered. -/
theorem witness_hung :
    (bus idleEngine { Device.oracle with answersLeft := some 5 }).insts[0]? =
      some (node idleEngine { Device.oracle with answersLeft := some 5 }) ∧
    idleEngine.phase = .idle ∧ (Instr.wrcmd 0xB3#8).wellFormed = true ∧
    (bus idleEngine { Device.oracle with answersLeft := some 5 }).busOwner = none ∧
    ({ Device.oracle with answersLeft := some 5 } : Device).answersLeft = some 5 ∧
    engineOf (exec (.wrcmd 0xB3#8) (bus idleEngine { Device.oracle with answersLeft := some 5 }))
      (fun e => (e.phase, e.idx, e.csN)) = some (some (.exch, 5#3, false)) ∧
    engineOf (exec (.wrcmd 0xB3#8) (bus idleEngine { Device.oracle with answersLeft := some 0 }))
      (fun e => (e.phase, e.idx, e.csN)) = some (some (.exch, 0#3, false)) :=
  ⟨rfl, rfl, by decide, rfl, rfl, by decide, by decide⟩

/-- A device whose transport gives no answer any more. -/
def deaf : Device := { Device.oracle with answersLeft := some 0 }

/-- A bus on which instance 0 is stuck, instance 1 waits for it, and instance 2 is idle. -/
def stuckBus (agenda : List Move) : State :=
  { bus (flightEngine .exch 3#3) deaf (some 0) agenda with
    insts := [node (flightEngine .exch 3#3) deaf, node (flightEngine .acquire 0#3) Device.oracle,
      node idleEngine Device.oracle] }

/-- `StuckInstanceStaysStuck`, the two step lemmas and the run: steps of the stuck instance, of the one that waits, of an
idle one that submits, and the reset of another, none of them a reset of the stuck one. -/
theorem witness_stuck_steps :
    (stuckBus []).insts[0]? = some (node (flightEngine .exch 3#3) deaf) ∧ (flightEngine .exch 3#3).phase = .exch ∧
    deaf.answersLeft = some 0 ∧
    (stuckBus []).insts[1]? = some (node (flightEngine .acquire 0#3) Device.oracle) ∧
    (flightEngine .acquire 0#3).phase = .acquire ∧ (stuckBus []).busOwner = some 0 ∧
    (stuckBus [⟨0, .tick⟩, ⟨1, .tick⟩, ⟨2, .submit 0#48⟩, ⟨2, .reset⟩]).NoResetDuringRun 0 ∧
    look (steps 4 (stuckBus [⟨0, .tick⟩, ⟨1, .tick⟩, ⟨2, .submit 0#48⟩, ⟨2, .reset⟩])) (fun s =>
      s.insts.map fun n => n.eng.phase) = some [.exch, .acquire, .idle] :=
  ⟨rfl, rfl, rfl, rfl, rfl, rfl, by unfold State.NoResetDuringRun; decide, by decide⟩

/-- `StuckInstanceStaysStuck`, its last clause: nothing to come, and its own held host. -/
theorem witness_stuck :
    (bus (flightEngine .exch 3#3) deaf (some 0)).busOwner = some 0 ∧
    (bus (flightEngine .exch 3#3) deaf (some 0)).agenda = [] ∧
    (bus (flightEngine .exch 3#3) deaf (some 0) [⟨0, .call 0#48⟩]).insts[0]? =
      some (node (flightEngine .exch 3#3) deaf) ∧
    (flightEngine .exch 3#3).phase = .exch ∧ (flightEngine .exch 3#3).phase ≠ .idle :=
  ⟨rfl, rfl, rfl, rfl, by decide⟩

/-- The frame statements: each kind of command answers a next state. -/
theorem witness_frames :
    (look (exec (.rd32 0x65#8) (bus idleEngine refDevice)) State.port = some 0) ∧
    (look (exec (.rd16h 0x65#8) (bus idleEngine refDevice)) State.port = some 0) ∧
    (look (exec (.rd16l 0x65#8) (bus idleEngine refDevice)) State.port = some 0) ∧
    (look (exec (.wr32 0x26#8 7#32) (bus idleEngine refDevice)) State.port = some 0) ∧
    (look (exec (.wrcmd 0xAA#8) (bus idleEngine refDevice)) State.port = some 0) := by decide

/-- `Wr32Frame`: a byte on either side of the slot, and the first and the last byte of the slot, after a write. -/
theorem witness_wr32_frame_edges :
    look (exec (.wr32 0x10#8 0xA1A2A3A4#32) (bus idleEngine { refDevice with regs := [(63, 0x11#8), (68, 0x22#8)] }))
      (fun s => s.insts[0]?.map fun n => [63, 64, 67, 68].map n.dev.regs.read) =
      some (some [some 0x11#8, some 0xA1#8, some 0xA4#8, some 0x22#8]) := by decide

/-- `ReferenceDeviceReadsBackWhatWasWritten`, at the last configuration register. -/
theorem witness_reads_back :
    (bus idleEngine refDevice).Ready (node idleEngine refDevice) ∧ refDevice.TransportAnswers ∧ refDevice.Conforms ∧
    kindOf 0x26#8 = .config :=
  ⟨⟨rfl, rfl, rfl, rfl⟩, rfl, ⟨rfl, rfl⟩, by decide⟩

/-- `ReferenceDeviceAnswersByKind`, each clause at an end of its range. -/
theorem witness_answers_by_kind :
    (bus idleEngine { refDevice with fwId := some 0x01020304#32 }).Ready
      (node idleEngine { refDevice with fwId := some 0x01020304#32 }) ∧
    ({ refDevice with fwId := some 0x01020304#32 } : Device).Conforms ∧ kindOf 0xAA#8 = .command ∧
    ({ refDevice with fwId := some 0x01020304#32 } : Device).fwId = some 0x01020304#32 ∧
    engineOf (exec (.rd32 0xAA#8) (bus idleEngine { refDevice with fwId := some 0x01020304#32 })) Engine.rdata =
      some (some (.val 0x01020304#32)) ∧
    kindOf 0x8B#8 = .data ∧ kindOf 0xB3#8 = .command ∧ refDevice.fwId = none :=
  ⟨⟨rfl, rfl, rfl, rfl⟩, ⟨rfl, rfl⟩, by decide, rfl, by decide, by decide, by decide, rfl⟩

/-- `ReadAfterAbortIsUnconstrained`. -/
theorem witness_after_abort :
    (bus idleEngine { refDevice with pointerLost := true }).Ready (node idleEngine { refDevice with pointerLost := true }) ∧
    ({ refDevice with pointerLost := true } : Device).pointerLost = true ∧ (Instr.rd32 0x10#8).wellFormed = true :=
  ⟨⟨rfl, rfl, rfl, rfl⟩, rfl, by decide⟩

/-- `ResetRestoresEveryElement` and `ResetAbortsOnlyWhileSelectIsLow`: a reset that aborts a write of the reference
device, and the same reset in `SELECT`. -/
theorem witness_reset :
    (bus { flightEngine .gap 2#3 with op := .val 0b001#3, addr := .val 0x10#8 } refDevice (some 0) [⟨0, .reset⟩]).agenda =
      [⟨0, .reset⟩] ∧
    look (step (bus { flightEngine .gap 2#3 with op := .val 0b001#3, addr := .val 0x10#8 } refDevice (some 0)
      [⟨0, .reset⟩])) (fun s => s.insts[0]?.map fun n => (n.dev.pointerLost, n.dev.regs.map Prod.fst)) =
      some (some (true, [64, 65, 66, 67])) ∧
    look (step (bus { flightEngine .select 0#3 with op := .val 0b001#3, addr := .val 0x10#8 } refDevice (some 0)
      [⟨0, .reset⟩])) (fun s => s.insts[0]?.map fun n => (n.dev.pointerLost, n.dev.regs)) = some (some (false, [])) :=
  ⟨rfl, by decide, by decide⟩

/-- `HostReadsChangeNothing`: each of its reads, and an `RDATA` that holds a value and one that holds none. -/
theorem witness_host_reads :
    (bus { idleEngine with rdata := .val 7#32 } Device.oracle none [⟨0, .readRdata⟩]).insts[0]? =
      some (node { idleEngine with rdata := .val 7#32 } Device.oracle) ∧
    ({ idleEngine with rdata := .val 7#32 } : Engine).rdata = .val 7#32 ∧ idleEngine.rdata = .nv ∧
    (look (step (bus { idleEngine with rdata := .val 7#32 } Device.oracle none [⟨0, .readRdata⟩])) fun s =>
      s.insts[0]?.map Node.replies) = some (some [.rdata 7#32]) ∧
    (look (step (bus { idleEngine with err := true } Device.oracle none [⟨0, .readStatus⟩])) fun s =>
      s.insts[0]?.map Node.replies) = some (some [.status 0x04#8]) ∧
    (look (step (bus { idleEngine with cause := .illegalAddr } Device.oracle none [⟨0, .readCause⟩])) fun s =>
      s.insts[0]?.map Node.replies) = some (some [.cause 2#2]) ∧
    (look (step (bus idleEngine Device.oracle none [⟨0, .readBusCfg⟩])) fun s =>
      s.insts[0]?.map Node.replies) = some (some [.busCfg cfg]) :=
  ⟨rfl, rfl, rfl, by decide, by decide, by decide, by decide⟩

/-- `HostWritesBusCfgWhenIdle`: the smallest clock, and the two bits. -/
theorem witness_host_writes :
    (bus idleEngine Device.oracle none [⟨0, .writeClkHz 1⟩]).agenda = [⟨0, .writeClkHz 1⟩] ∧
    (bus idleEngine Device.oracle none [⟨0, .writeClkHz 1⟩]).insts[0]? = some (node idleEngine Device.oracle) ∧
    idleEngine.phase = .idle ∧
    (bus idleEngine Device.oracle none [⟨0, .writeCpol true⟩]).agenda = [⟨0, .writeCpol true⟩] ∧
    (bus idleEngine Device.oracle none [⟨0, .writeCpha true⟩]).agenda = [⟨0, .writeCpha true⟩] :=
  ⟨rfl, rfl, rfl, rfl, rfl⟩

/-- The invariant of a bus of one instance is that of its instance. -/
theorem inv_of_one {m : Node} {s : State} (hs : s.insts = [m]) (he : m.eng.Inv)
    (ho : s.busOwner = if m.eng.phase.ownsBus then some 0 else none) (hd : m.dev.regs.wf = true)
    (hf : (m.eng.phase = .exch ∨ m.eng.phase = .deselect → m.Sent m.eng.idx.toNat) ∧
      (m.eng.phase = .gap → m.Sent (m.eng.idx.toNat + 1))) : s.Inv := by
  have only : ∀ (k : Nat) (n : Node), s.insts[k]? = some n → k = 0 ∧ n = m := by
    intro k n h
    rw [hs] at h
    match k, h with
    | 0, h => exact ⟨rfl, (Option.some.inj h).symm⟩
    | _ + 1, h => cases h
  refine ⟨?_, ?_, ?_, ?_, ?_⟩
  · intro k n h
    obtain ⟨-, rfl⟩ := only k n h
    exact he
  · intro k n h
    obtain ⟨rfl, rfl⟩ := only k n h
    rw [ho]
    split <;> simp_all
  · intro k h
    rw [ho] at h
    split at h
    · cases h; simp [hs]
    · cases h
  · intro k n h
    obtain ⟨-, rfl⟩ := only k n h
    exact hd
  · intro k n h
    obtain ⟨-, rfl⟩ := only k n h
    exact hf

/-- A bus whose instance is in `GAP` of exchange `x`, its device having taken that exchange's byte, meets the invariant. -/
theorem gap_inv {x : BitVec 3} (hx : x.toNat ≤ 5) {s : State}
    (hs : s.insts = [node (flightEngine .gap x) (taken (x.toNat + 1))]) (ho : s.busOwner = some 0) : s.Inv :=
  inv_of_one hs
    { busy_iff := ⟨fun _ h => Phase.noConfusion h, fun _ => rfl⟩, select_iff := ⟨fun _ => rfl, fun _ => rfl⟩
      idx_start := (by rintro (h | h) <;> cases h), idx_running := fun _ => hx
      idx_done := (by rintro (h | h) <;> cases h), idx_small := Nat.le_succ_of_le hx
      done_idle := fun h => Bool.noConfusion h, clock_positive := Nat.one_pos
      latched := fun _ => ⟨rfl, rfl, rfl, rfl⟩ }
    ho rfl ⟨(by rintro (h | h) <;> cases h), fun _ => taken_sent _ _ (Nat.succ_le_succ hx)⟩

/-- An idle bus meets the invariant. -/
theorem idle_inv {s : State} (hs : s.insts = [node idleEngine Device.oracle]) (ho : s.busOwner = none) : s.Inv :=
  inv_of_one hs (by constructor <;> decide) ho rfl ⟨(by rintro (h | h) <;> cases h), by rintro ⟨⟩⟩

/-- `EveryStepKeepsTheInvariant`: a bus in the middle of a transaction meets the invariant, and steps. -/
theorem witness_invariant :
    (bus (flightEngine .gap 2#3) (taken 3) (some 0) [⟨0, .tick⟩]).Inv ∧
    look (step (bus (flightEngine .gap 2#3) (taken 3) (some 0) [⟨0, .tick⟩])) State.busOwner = some (some 0) :=
  ⟨gap_inv (x := 2#3) (by decide) rfl rfl, by decide⟩

/-- `AtMostOneSelectIsLow`: the bus of `witness_invariant` has its select low. -/
theorem witness_select_low : (node (flightEngine .gap 2#3) (taken 3)).eng.csN = false := by decide

/-- A trace that fits a bus in `GAP` after its first exchange. -/
def serialBus : State :=
  { bus (flightEngine .gap 0#3) (taken 1) (some 0) [⟨0, .tick⟩] with
    trace := [(0, .beginScope cfg), (0, .csLow), (0, .xfer 0 .opc 0x00#8 0xA0#8)] }

/-- `EveryStepKeepsTheBusSerialised`: a state in mid-transaction that meets the premises, its move no reset, and steps. -/
theorem witness_serialised :
    serialBus.Inv ∧ serialBus.Serialised ∧ (∀ (k : Nat) (rest : List Move), serialBus.agenda ≠ ⟨k, .reset⟩ :: rest) ∧
    look (step serialBus) State.wire = some (.low 0 1 false) :=
  ⟨gap_inv (x := 0#3) (by decide) rfl rfl, by unfold State.Serialised; decide, (by intro k rest h; cases h), by decide⟩

/-- The monitor refuses what no run does: select outside a scope, a second exchange before the gap, two scopes at once. -/
theorem test_monitor_refuses :
    Wire.run .free [(0, .csLow)] = none ∧
    Wire.run .free [(0, .beginScope cfg), (1, .beginScope cfg)] = none ∧
    Wire.run (.low 0 0 false) [(0, .xfer 0 .opc 0#8 0#8), (0, .xfer 1 .adr 0#8 0#8)] = none := by decide

/-- The monitor of whole transactions refuses select high after five exchanges or before the last gap, and a scope closed
with no transaction in it; with the sixth gap done select may rise. -/
theorem test_whole_monitor_refuses :
    Wire.runWhole (.low 0 5 false) [(0, .csHigh)] = none ∧ Wire.runWhole (.low 0 6 true) [(0, .csHigh)] = none ∧
    Wire.runWhole (.scoped 0) [(0, .endScope)] = none ∧
    Wire.runWhole (.low 0 6 false) [(0, .csHigh), (0, .endScope)] = some .free := by decide

/-- A host that waits for the result of its last command, which was answered `v`. -/
def oneHost (e : Engine) (v : Verdict) : State :=
  { bus e Device.oracle none [⟨0, .collect⟩] with
    insts := [{ eng := e, dev := Device.oracle, verdict := some v, replies := [] }] }

/-- A bus whose one command, a write, has ended, so that no read has completed. -/
def afterWrite : State := oneHost { idleEngine with done := true } .accepted

/-- It meets the invariant. -/
theorem afterWrite_inv : afterWrite.Inv :=
  inv_of_one (m := { eng := { idleEngine with done := true }, dev := Device.oracle, verdict := some .accepted, replies := [] })
    rfl (by constructor <;> decide) rfl rfl ⟨(by rintro (h | h) <;> cases h), by rintro ⟨⟩⟩

/-- `OnlyAnEarlyReadOfRdataFaults`: each fault happens in a state that meets the invariant. -/
theorem witness_faults :
    afterWrite.Inv ∧ faultOf (step afterWrite) = some (.noValue .rdata) ∧
    (bus idleEngine Device.oracle none [⟨0, .readRdata⟩]).Inv ∧
    faultOf (step (bus idleEngine Device.oracle none [⟨0, .readRdata⟩])) = some (.noValue .rdata) ∧
    (bus idleEngine Device.oracle none [⟨3, .tick⟩]).Inv ∧
    faultOf (step (bus idleEngine Device.oracle none [⟨3, .tick⟩])) = some (.noSuchInstance 3) :=
  ⟨afterWrite_inv, by decide, idle_inv rfl rfl, by decide, idle_inv rfl rfl, by decide⟩

/-- `OnlyResetClearsErr`, `RdataChangesOnlyWhenAReadCompletes` and `BusCfgChangesOnlyByItsHost`: steps that do change the
register: for `RDATA` a release step, and a call of `RD32` with its received bytes lined up. -/
theorem witness_changes :
    engineOf (step (bus { idleEngine with err := true } Device.oracle none [⟨0, .reset⟩])) Engine.err =
      some (some false) ∧
    engineOf (step (bus (flightEngine .release 6#3) Device.oracle (some 0) [⟨0, .tick⟩])) Engine.rdata =
      some (some (.val 0#32)) ∧
    engineOf (step (bus idleEngine (sixAnswers 0x00#8 0x00#8 0x3F#8 0x80#8 0x00#8 0x00#8) none
      [⟨0, .call 0x006500000000#48⟩])) (fun e => (e.rdata, e.phase, e.done, e.op)) =
      some (some (.val 0x3F800000#32, .idle, true, .val 0b000#3)) ∧
    engineOf (step (bus idleEngine Device.oracle none [⟨0, .writeClkHz 5⟩])) (fun e => e.busCfg.clkHz) =
      some (some 5) := by decide

/-- `AStepConcernsOneInstance` and `TheTraceOnlyGrows`: steps on a bus of two instances, one at the move's instance, and one
in which the owner of the bus goes on while the other's host is held. -/
theorem witness_two_instances :
    State.mover { bus idleEngine Device.oracle none [⟨1, .submit 0x03B300000000#48⟩] with
      insts := [node idleEngine Device.oracle, node idleEngine Device.oracle] } = some 1 ∧
    look (step { bus idleEngine Device.oracle none [⟨1, .submit 0x03B300000000#48⟩] with
      insts := [node idleEngine Device.oracle, node idleEngine Device.oracle] })
      (fun s => s.insts.map fun n => n.eng.phase) = some [.idle, .acquire] ∧
    State.mover { bus (flightEngine .gap 5#3) (taken 6) (some 0) [⟨1, .call 0#48⟩] with
      insts := [node (flightEngine .gap 5#3) (taken 6), node (flightEngine .acquire 0#3) Device.oracle] } = some 0 ∧
    look (step { bus (flightEngine .gap 5#3) (taken 6) (some 0) [⟨1, .call 0#48⟩] with
      insts := [node (flightEngine .gap 5#3) (taken 6), node (flightEngine .acquire 0#3) Device.oracle] })
      (fun s => s.insts.map fun n => n.eng.phase) = some [.deselect, .acquire] := by decide

/-- `ARunOfCommandsEnds`: a run with a rejected and an accepted command, behind it only a read of a register. -/
theorem witness_run :
    (bus idleEngine Device.oracle none (script 0 [.wrcmd 0x05#8, .rd16l 0x8B#8] ++ [⟨0, .readStatus⟩])).Ready
      (node idleEngine Device.oracle) ∧
    Device.oracle.TransportAnswers ∧
    (bus idleEngine Device.oracle none (script 0 [.wrcmd 0x05#8, .rd16l 0x8B#8] ++ [⟨0, .readStatus⟩])).agenda =
      script 0 [.wrcmd 0x05#8, .rd16l 0x8B#8] ++ [⟨0, .readStatus⟩] ∧
    (∀ x ∈ [(⟨0, .readStatus⟩ : Move)], x.who = 0 → x.act.submits = false) :=
  ⟨⟨rfl, rfl, rfl, rfl⟩, rfl, rfl, by decide⟩

/-- A run whose last command is rejected has ended, and a host read afterwards does not change that (R89). -/
theorem test_rejected_run_stays_ended :
    look (steps 2 (bus idleEngine Device.oracle none (script 0 [.wrcmd 0x05#8] ++ [⟨0, .readStatus⟩])))
      (fun s => s.runEnded 0) = some true := by decide

/-- `TheHostCopiesEveryResult`: its premises, for the pair and for a list with a write in it. -/
theorem witness_copies :
    (bus idleEngine Device.oracle none (fetchMoves 0 (readPair .quat 0x6D#8))).Ready (node idleEngine Device.oracle) ∧
    (Instr.rd16h 0x6D#8).wellFormed = true ∧
    (bus idleEngine Device.oracle none (fetchMoves 0 (readPair .quat 0x6D#8))).agenda =
      fetchMoves 0 (readPair .quat 0x6D#8) ++ [] ∧
    (∀ f ∈ [(⟨.wr32 0x26#8 0#32, .none⟩ : Fetch), ⟨.rd32 0x55#8, .f32⟩], f.cmd.wellFormed = true) :=
  ⟨⟨rfl, rfl, rfl, rfl⟩, by decide, rfl, by decide⟩

/-- The host has both halves of a pair: the bytes of R6 and R14 of 95_test_vectors.md, one transaction each. -/
theorem test_pair_copies_both_halves :
    look (steps 4 (bus idleEngine { Device.oracle with answers := [0#8, 0#8, 0xC5#8, 0x7A#8, 0x3A#8, 0x2E#8, 0xAA#8,
      0xBB#8, 0xC5#8, 0x7A#8, 0x3A#8, 0x2E#8] } none (fetchMoves 0 (readPair .quat 0x6D#8))))
      (fun s => s.insts[0]?.map Node.replies) = some (some [.rdata 0xFFFFC57A#32, .rdata 0x00003A2E#32]) := by decide

/-- The host's decode of the two copies of that pair. -/
theorem test_pair_values :
    fetchedValues (readPair .raw16 0x6D#8) [.rdata 0xFFFFC57A#32, .rdata 0x00003A2E#32] = [.int (-14982), .int 14894] := by
  decide

/-- `HostReadsChangeNothing`, its wait for a result: an idle instance whose command ended with a result, one whose command was rejected, one
whose command a reset ended, and one on which no read has completed. -/
theorem witness_collect :
    (look (step (oneHost { idleEngine with done := true, rdata := .val 7#32 } .accepted)) fun s =>
      s.insts[0]?.map Node.replies) = some (some [.rdata 7#32]) ∧
    (look (step (oneHost { idleEngine with done := true, rdata := .val 7#32 } .rejected)) fun s =>
      s.insts[0]?.map Node.replies) = some (some [.noResult]) ∧
    (look (step (oneHost idleEngine .accepted)) fun s => s.insts[0]?.map Node.replies) = some (some [.noResult]) ∧
    faultOf (step (oneHost { idleEngine with done := true } .accepted)) = some (.noValue .rdata) := by decide

/-- A bus of two: instance 1 is at the end of its last gap, and the host of instance 0 is about to run a pair. -/
def twoHosts (agenda : List Move) : State :=
  { bus idleEngine Device.oracle (some 1) agenda with
    insts := [node idleEngine Device.oracle, node (flightEngine .gap 5#3) (taken 6)], choices := [1, 0, 0] }

/-- It meets the invariant. -/
theorem twoHosts_inv (agenda : List Move) : (twoHosts agenda).Inv := by
  have hi : (bus idleEngine Device.oracle).Inv := idle_inv rfl rfl
  have hg : (bus (flightEngine .gap 5#3) (taken 6) (some 0)).Inv := gap_inv (x := 5#3) (by decide) rfl rfl
  have one : ∀ (k : Nat) (n : Node), (twoHosts agenda).insts[k]? = some n →
      (k = 0 ∧ n = node idleEngine Device.oracle) ∨ (k = 1 ∧ n = node (flightEngine .gap 5#3) (taken 6)) := by
    intro k n h
    match k, h with
    | 0, h => exact .inl ⟨rfl, (Option.some.inj h).symm⟩
    | 1, h => exact .inr ⟨rfl, (Option.some.inj h).symm⟩
    | k + 2, h => cases h
  constructor
  · intro k n h
    rcases one k n h with ⟨-, rfl⟩ | ⟨-, rfl⟩
    · exact hi.engines 0 _ rfl
    · exact hg.engines 0 _ rfl
  · intro k n h
    have hb : (twoHosts agenda).busOwner = some 1 := rfl
    rcases one k n h with ⟨rfl, rfl⟩ | ⟨rfl, rfl⟩ <;> rw [hb] <;> decide
  · intro k h
    cases h
    simp [twoHosts]
  · intro k n h
    rcases one k n h with ⟨-, rfl⟩ | ⟨-, rfl⟩ <;> rfl
  · intro k n h
    rcases one k n h with ⟨-, rfl⟩ | ⟨-, rfl⟩
    · exact hi.frames 0 _ rfl
    · exact hg.frames 0 _ rfl

/-- Its transports answer. -/
theorem twoHosts_answers (agenda : List Move) : (twoHosts agenda).TransportsAnswer := by
  intro k n h
  match k, h with
  | 0, h => cases h; rfl
  | 1, h => cases h; rfl
  | k + 2, h => cases h

/-- `TheHostCopiesEveryResult`, its third clause: the premises, on a bus another instance owns, with an arbiter that comes
to choose the instance. -/
theorem witness_wait :
    (twoHosts (fetchMoves 0 (readPair .quat 0x6D#8))).Inv ∧
    (twoHosts (fetchMoves 0 (readPair .quat 0x6D#8))).insts[(twoHosts (fetchMoves 0 (readPair .quat 0x6D#8))).port]? =
      some (node idleEngine Device.oracle) ∧
    (node idleEngine Device.oracle).eng.phase = .idle ∧
    (twoHosts (fetchMoves 0 (readPair .quat 0x6D#8))).TransportsAnswer ∧
    1 < (twoHosts (fetchMoves 0 (readPair .quat 0x6D#8))).insts.length ∧
    (twoHosts (fetchMoves 0 (readPair .quat 0x6D#8))).ArbiterChooses 0 1 ∧
    (twoHosts (fetchMoves 0 (readPair .quat 0x6D#8))).busOwner = some 1 ∧
    (⟨.rd16h 0x6D#8, .quat⟩ : Fetch).isRead = true ∧
    (∀ g ∈ readPair .quat 0x6D#8, g.cmd.wellFormed = true) ∧
    (twoHosts (fetchMoves 0 (readPair .quat 0x6D#8))).agenda = fetchMoves 0 (readPair .quat 0x6D#8) ++ [] := by
  refine ⟨twoHosts_inv _, rfl, rfl, twoHosts_answers _, by decide, ⟨[1], rfl, by decide, by simp [twoHosts, bus, State.choice]⟩, rfl, rfl, by decide, rfl⟩

/-- `ARunOfCommandsEnds`, its second clause: the premises, for a run of two accepted commands and a rejected one between them,
on a bus another instance owns, with two choices of the instance to come. -/
theorem witness_submissions :
    (twoHosts (submissions 0 [.rd16l 0x8B#8, .wrcmd 0x05#8, .wrcmd 0xB0#8])).Inv ∧
    (twoHosts (submissions 0 [.rd16l 0x8B#8, .wrcmd 0x05#8, .wrcmd 0xB0#8])).insts[0]? = some (node idleEngine Device.oracle) ∧
    (node idleEngine Device.oracle).eng.phase = .idle ∧
    (twoHosts (submissions 0 [.rd16l 0x8B#8, .wrcmd 0x05#8, .wrcmd 0xB0#8])).TransportsAnswer ∧
    1 < (twoHosts (submissions 0 [.rd16l 0x8B#8, .wrcmd 0x05#8, .wrcmd 0xB0#8])).insts.length ∧
    [Instr.rd16l 0x8B#8, .wrcmd 0x05#8, .wrcmd 0xB0#8].countP Instr.wellFormed = 2 ∧
    (twoHosts (submissions 0 [.rd16l 0x8B#8, .wrcmd 0x05#8, .wrcmd 0xB0#8])).ArbiterChooses 0 2 ∧
    (twoHosts (submissions 0 [.rd16l 0x8B#8, .wrcmd 0x05#8, .wrcmd 0xB0#8])).agenda =
      submissions 0 [.rd16l 0x8B#8, .wrcmd 0x05#8, .wrcmd 0xB0#8] :=
  ⟨twoHosts_inv _, rfl, rfl, twoHosts_answers _, by decide, by decide,
    ⟨[1, 2], rfl, by decide, by simp [twoHosts, bus, State.choice]⟩, rfl⟩

/-- A free bus, two instances of three waiting for it, and the choices of the arbiter that are lined up. -/
def contended (choices : List Nat) : State :=
  { bus idleEngine Device.oracle with
    insts := [node (flightEngine .acquire 0#3) Device.oracle, node idleEngine Device.oracle,
      node (flightEngine .acquire 0#3) Device.oracle]
    choices := choices }

/-- Which of the waiting instances gets a free bus is the arbiter's choice (60_exceptions.md R154): either of them can. -/
theorem test_arbiter_chooses :
    look (step (contended [2])) (fun s => (s.busOwner, s.choices, s.insts.map fun n => n.eng.phase)) =
      some (some 2, [], [.acquire, .idle, .select]) ∧
    look (step (contended [0, 2])) (fun s => (s.busOwner, s.choices)) = some (some 0, [2]) := by decide

/-- A choice that is no waiting instance leaves the bus free for now; one that waits alone takes a free bus with no choice
made (R154, R73). -/
theorem test_arbiter_passes :
    look (step (contended [1])) (fun s => (s.busOwner, s.choices, s.insts.map fun n => n.eng.phase)) =
      some (none, [], [.acquire, .idle, .acquire]) ∧
    look (step { contended [2] with insts := [node (flightEngine .acquire 0#3) Device.oracle, node idleEngine Device.oracle] })
      (fun s => (s.busOwner, s.choices)) = some (some 0, [2]) := by decide

/-- Choices of an instance may come after others, and there may be several (R89, R154). -/
theorem test_chosen_later : (contended [2, 0, 2, 0]).ArbiterChooses 0 2 ∧ (contended [2, 0, 2, 0]).choice 0 ≠ 0 :=
  ⟨⟨[1, 3], rfl, by decide, by simp [contended, State.choice]⟩, by decide⟩

/-- The second submit of a run is held while another instance has the bus, and is still there to be taken (R71, R89). -/
theorem test_second_submit_waits :
    look (steps 2 { contended [2] with agenda := submissions 1 [.wrcmd 0xB0#8, .wrcmd 0xB0#8] })
      (fun s => (s.agenda.length, s.busOwner, s.insts.map fun n => n.eng.phase)) =
      some (1, some 2, [.acquire, .acquire, .select]) := by decide

/-- A host whose command waits for the bus takes no copy: its wait stays the next move while the owner goes on (R82). -/
theorem test_copy_waits :
    look (step { twoHosts [⟨0, .collect⟩] with
        insts := [node (flightEngine .acquire 0#3) Device.oracle, node (flightEngine .gap 5#3) (taken 6)] })
      (fun s => (s.agenda, s.insts.map fun n => (n.eng.phase, n.replies))) =
      some ([⟨0, .collect⟩], [(.acquire, []), (.deselect, [])]) := by decide

/-- `SinglesLoseNoBit`: two patterns with one value; the two zeros have two. -/
theorem witness_singles : f32 0x80000000#32 = f32 0x80000000#32 ∧ f32 0x80000000#32 ≠ f32 0x00000000#32 := by
  refine ⟨rfl, ?_⟩; simp [f32]

end Sys2Proof.Tests
end

section
/-! PROOFS. The reset values, and the wait for the first `Submit`. -/

namespace Sys2Proof.Machine

/-- With nothing to come, a step is the passing of time. -/
theorem step_of_nil {s : State} (h : s.agenda = []) : step s = advance s := by
  simp [step, fetch, h]

/-- While the bus is free and no instance waits for it, the passing of time changes nothing. -/
theorem advance_of_no_waiter {s : State} (hb : s.busOwner = none) (hw : s.waiters = []) : advance s = .next s := by
  simp [advance, State.turn, hb, hw]

/-- On a reset bus no instance waits for the bus: each is in `IDLE`. -/
theorem resetOf_waiters (c : Nat) : (State.resetOf c).waiters = [] := by
  refine List.filter_eq_nil_iff.mpr fun k _ => ?_
  unfold State.waits
  rw [resetOf_getElem]
  by_cases hk : k < c
  · simp [hk, Node.reset, Engine.reset]
  · simp [hk]

/-- A reset bus, with nothing to come, stays as it is (10_state.md R27: it waits for the first `Submit`). -/
theorem step_resetOf (c : Nat) : step (State.resetOf c) = .next (State.resetOf c) := by
  rw [step_of_nil rfl, advance_of_no_waiter rfl (resetOf_waiters c)]

/-- The engine of each instance of a reset bus is in its reset state. -/
theorem resetOf_eng {c k : Nat} (hk : k < c) : (State.resetOf c).insts[k]?.map Node.eng = some (Engine.reset k) := by
  rw [resetOf_getElem, if_pos hk]
  rfl

/-- Settles O43: each instance by its place on the reset bus, and the wait because no instance asks for the free bus. -/
theorem resetValues : Obligations.ResetValues :=
  ⟨fun _ _ hk => resetOf_eng hk, fun _ => rfl, ⟨Config.nInst, Nat.succ_pos _, rfl⟩, step_resetOf Config.nInst⟩

end Sys2Proof.Machine
end

section
/-! PROOFS. The address-kind decoder: the addresses of each kind, and how many there are (20_memory.md R33). -/

namespace Sys2Proof.Machine

/-- The decoder's comparisons of bytes are those of the numbers they stand for. -/
theorem kindOf_eq (a : Byte) :
    kindOf a =
      if a.toNat ≤ 0x26 then .config
      else if 0x55 ≤ a.toNat ∧ a.toNat ≤ 0x8B then .data
      else if 0xAA ≤ a.toNat ∧ a.toNat ≤ 0xB3 then .command
      else .none := by
  simp [kindOf, BitVec.le_def]

theorem kindOf_eq_config_iff (a : Byte) : kindOf a = .config ↔ a.toNat ≤ 0x26 := by
  rw [kindOf_eq]
  split_ifs <;> simp <;> omega

theorem kindOf_eq_data_iff (a : Byte) : kindOf a = .data ↔ 0x55 ≤ a.toNat ∧ a.toNat ≤ 0x8B := by
  rw [kindOf_eq]
  split_ifs <;> simp <;> omega

theorem kindOf_eq_command_iff (a : Byte) : kindOf a = .command ↔ 0xAA ≤ a.toNat ∧ a.toNat ≤ 0xB3 := by
  rw [kindOf_eq]
  split_ifs <;> simp <;> omega

theorem kindOf_eq_none_iff (a : Byte) :
    kindOf a = .none ↔
      (0x27 ≤ a.toNat ∧ a.toNat ≤ 0x54) ∨ (0x8C ≤ a.toNat ∧ a.toNat ≤ 0xA9) ∨ 0xB4 ≤ a.toNat := by
  rw [kindOf_eq]
  split_ifs <;> simp <;> omega

/-- A kind that is one range `lo..hi` of the map has as many addresses as the range. -/
theorem countP_kindOf_of_range {k : Kind} {lo hi : Nat} (hhi : hi < 256)
    (h : ∀ a : Byte, kindOf a = k ↔ lo ≤ a.toNat ∧ a.toNat ≤ hi) :
    (List.range 256).countP (fun x => kindOf (BitVec.ofNat 8 x) = k) = hi + 1 - lo := by
  have hset : (Finset.range 256).filter (fun x => kindOf (BitVec.ofNat 8 x) = k) = Finset.Icc lo hi := by
    ext x
    simp only [Finset.mem_filter, Finset.mem_range, h, BitVec.toNat_ofNat, Finset.mem_Icc]
    omega
  calc (List.range 256).countP (fun x => kindOf (BitVec.ofNat 8 x) = k)
      = ((Finset.range 256).filter (fun x => kindOf (BitVec.ofNat 8 x) = k)).card := List.countP_eq_length_filter
    _ = hi + 1 - lo := by rw [hset, Nat.card_Icc]

/-- Every address has exactly one kind, so the counts of the four kinds add up. -/
theorem countP_kindOf_sum (l : List Nat) :
    l.countP (fun x => kindOf (BitVec.ofNat 8 x) = .config) + l.countP (fun x => kindOf (BitVec.ofNat 8 x) = .data) +
      l.countP (fun x => kindOf (BitVec.ofNat 8 x) = .command) + l.countP (fun x => kindOf (BitVec.ofNat 8 x) = .none) =
      l.length := by
  induction l with
  | nil => rfl
  | cons x l ih =>
    simp only [List.countP_cons, List.length_cons, ← ih]
    cases kindOf (BitVec.ofNat 8 x) <;> simp <;> omega

/-- Settles O4: the three ranges are counted, and the gaps are what they leave of the 256 addresses. -/
theorem kindIsTheThreeRanges : Obligations.KindIsTheThreeRanges := by
  have hconfig := countP_kindOf_of_range (k := .config) (lo := 0) (hi := 0x26) (by decide)
    fun a => by simp [kindOf_eq_config_iff]
  have hdata := countP_kindOf_of_range (by decide) kindOf_eq_data_iff
  have hcommand := countP_kindOf_of_range (by decide) kindOf_eq_command_iff
  have hsum := countP_kindOf_sum (List.range 256)
  rw [List.length_range] at hsum
  refine ⟨fun a => ⟨kindOf_eq_config_iff a, kindOf_eq_data_iff a, kindOf_eq_command_iff a, kindOf_eq_none_iff a⟩,
    hconfig, hdata, hcommand, ?_⟩
  omega

end Sys2Proof.Machine
end

section
/-! PROOFS. The decoder: what each function code decodes to, and the match and mask pairs of 30_encoding.md R54. -/

namespace Sys2Proof

/-- The mask of the five pairs keeps the function code of a command word and clears its other fields. -/
theorem and_funcMask (cw : CommandWord) : cw &&& 0xFF0000000000#48 = funcField cw ++ 0#40 :=
  calc cw &&& 0xFF0000000000#48
      = (cw.extractLsb' 40 8 ++ cw.extractLsb' 0 40) &&& (BitVec.allOnes 8 ++ 0#40) :=
        congrArg (· &&& 0xFF0000000000#48) (BitVec.extractLsb'_append_extractLsb' (w := 8) (len := 40) (x := cw)).symm
    _ = funcField cw ++ 0#40 := by rw [BitVec.and_append, BitVec.and_allOnes, BitVec.and_zero, funcField]

/-- A command word meets the pair whose match has `f` in its top byte exactly where `f` is its function code. -/
theorem and_funcMask_eq_iff (cw : CommandWord) (f : Byte) :
    cw &&& 0xFF0000000000#48 = f ++ 0#40 ↔ funcField cw = f := by
  rw [and_funcMask, BitVec.append_left_inj]

theorem decode_of_rd32 {cw : CommandWord} (h : funcField cw = 0x00#8) : decode cw = .ok (.rd32 (addrField cw)) := by
  simp [decode, h]

theorem decode_of_wr32 {cw : CommandWord} (h : funcField cw = 0x01#8) :
    decode cw = .ok (.wr32 (addrField cw) (dataField cw)) := by
  simp [decode, h]

theorem decode_of_rd16h {cw : CommandWord} (h : funcField cw = 0x02#8) : decode cw = .ok (.rd16h (addrField cw)) := by
  simp [decode, h]

theorem decode_of_wrcmd {cw : CommandWord} (h : funcField cw = 0x03#8) : decode cw = .ok (.wrcmd (addrField cw)) := by
  simp [decode, h]

theorem decode_of_rd16l {cw : CommandWord} (h : funcField cw = 0x06#8) : decode cw = .ok (.rd16l (addrField cw)) := by
  simp [decode, h]

/-- A function code that is none of the five is reserved, whatever the word's other fields hold. -/
theorem decode_of_reserved {cw : CommandWord}
    (h : ∀ f ∈ [0x00#8, 0x01#8, 0x02#8, 0x03#8, 0x06#8], funcField cw ≠ f) :
    decode cw = .error (.illegalFunc (funcField cw)) := by
  simp only [List.forall_mem_cons] at h
  obtain ⟨hrd32, hwr32, hrd16h, hwrcmd, hrd16l, -⟩ := h
  simp only [decode, if_neg hrd32, if_neg hwr32, if_neg hrd16h, if_neg hwrcmd, if_neg hrd16l]

/-- Settles O1: a match and mask pair compares the function code, which is all the decoder looks at. -/
theorem decodeFollowsMatchAndMask : Obligations.DecodeFollowsMatchAndMask := by
  intro cw
  have pair := and_funcMask_eq_iff cw
  refine ⟨fun h => decode_of_rd32 ((pair 0x00#8).mp h), fun h => decode_of_wr32 ((pair 0x01#8).mp h),
    fun h => decode_of_rd16h ((pair 0x02#8).mp h), fun h => decode_of_wrcmd ((pair 0x03#8).mp h),
    fun h => decode_of_rd16l ((pair 0x06#8).mp h), fun h => decode_of_reserved fun f hf hc => ?_⟩
  exact h (f ++ 0#40) (List.mem_map_of_mem (f := fun f : Byte => f ++ 0#40) hf) ((pair f).mpr hc)

end Sys2Proof
end

section
/-! PROOFS. The rejection of a word that decodes to no command (30_encoding.md R59, 60_exceptions.md R142). -/

namespace Sys2Proof.Machine

/-- Submitted or called, a word that decodes to no command is held until its instance is idle, and then rejected. -/
theorem fetch_of_illegal {s : State} {k : Nat} {act : Act} {rest : List Move} {cw : CommandWord} {e : DecodeError}
    (hact : act = .submit cw ∨ act = .call cw) (ha : s.agenda = ⟨k, act⟩ :: rest) (hd : decode cw = .error e) :
    fetch s = whenIdle ⟨k, act⟩ s (.done (submitIllegal k (s.begin ⟨k, act⟩ rest))) := by
  rcases hact with rfl | rfl
  · simp only [fetch, ha, hd]
  · simp only [fetch, ha, hd]

theorem submitIllegal_of_idle {s : State} {k : Nat} {n : Node} (hn : s.insts[k]? = some n) (hi : n.eng.phase = .idle) :
    submitIllegal k s = .next (s.reject k n .illegalFunc) := by
  rw [submitIllegal, withNode_some hn, if_pos hi]

/-- Submitted or called at an idle instance, a word that decodes to no command is rejected with `ILLEGAL_FUNC`. -/
theorem step_of_illegal {s : State} {k : Nat} {n : Node} {act : Act} {rest : List Move} {cw : CommandWord}
    {e : DecodeError} (hact : act = .submit cw ∨ act = .call cw) (ha : s.agenda = ⟨k, act⟩ :: rest)
    (hn : s.insts[k]? = some n) (hi : n.eng.phase = .idle) (hd : decode cw = .error e) :
    step s = .next ((s.begin ⟨k, act⟩ rest).reject k n .illegalFunc) := by
  have hf := fetch_of_illegal hact ha hd
  rw [whenIdle_of_idle (m := ⟨k, act⟩) _ hn hi] at hf
  rw [step_of_done hf]
  exact submitIllegal_of_idle hn hi

/-- Settles O14: a word with a reserved function code decodes to no command, and the decoder does not look at its address. -/
theorem reservedFunctionIsRejected : Obligations.ReservedFunctionIsRejected := by
  intro s k n cw act rest hact ha hn hi hreserved
  exact step_of_illegal hact ha hn hi (decode_of_reserved hreserved)

end Sys2Proof.Machine
end

section
/-! PROOFS. The select, exchange and release steps as moves of the bus (40_transaction_sequence.md R74, R75, R78).
`selectStep`, `exchangeStep` and `releaseStep` are functions of the model, so the theorems that settle the obligations of
these names stand under `Proofs`. -/

namespace Sys2Proof.Machine

/-- The move `tick` is the step of its instance. -/
theorem step_of_tick {s : State} {k : Nat} {rest : List Move} (ha : s.agenda = ⟨k, .tick⟩ :: rest) :
    step s = tick k (s.begin ⟨k, .tick⟩ rest) :=
  step_of_done (by simp only [fetch, ha])

/-- The move `tick` of an instance that has an enabled step. -/
theorem step_of_steps {s t : State} {k : Nat} {n : Node} {rest : List Move} (ha : s.agenda = ⟨k, .tick⟩ :: rest)
    (hn : s.insts[k]? = some n) (h : Steps k n (s.begin ⟨k, .tick⟩ rest) t) : step s = .next t :=
  (step_of_tick ha).trans (tick_of_steps hn h)

/-- The move `tick` of an instance that waits is done, and changes nothing else. -/
theorem step_of_waits {s : State} {k : Nat} {n : Node} {rest : List Move} (ha : s.agenda = ⟨k, .tick⟩ :: rest)
    (hn : s.insts[k]? = some n) (h : Waits n (s.begin ⟨k, .tick⟩ rest)) :
    step s = .next (s.begin ⟨k, .tick⟩ rest) :=
  (step_of_tick ha).trans (tick_of_waits hn h)

/-- Settles O19: the select step of R74 is the move, and select going low empties the device's frame alone. -/
theorem Proofs.selectStep : Obligations.SelectStep := by
  intro s k n rest ha hn hp
  exact ⟨n.dev.selected, step_of_steps ha hn (.select hp), selected_regs n.dev⟩

/-! ### The result is delivered by the release step alone -/

/-- The release step of an instance whose latches hold values, for a read and for a write. -/
theorem steps_release {s : State} {k : Nat} {n : Node} {op : BitVec 3} {acc : Word} (hp : n.eng.phase = .release)
    (hop : n.eng.op = .val op) (hacc : n.eng.rxacc = .val acc) :
    Steps k n s (((s.putNode k (n.setEng (n.eng.released (delivered op acc n.eng.rdata)))).own none).emit k .endScope) := by
  by_cases hrd : op = 0b000#3 ∨ op = 0b010#3 ∨ op = 0b110#3
  · rw [delivered, if_pos hrd]
    exact .releaseRead hp op acc hop hrd hacc
  · rw [delivered, if_neg hrd]
    exact .releaseWrite hp op hop hrd

/-- R78's delivery by `OP`: the whole of `RXACC`, its sign-extended low half, or nothing. -/
theorem delivered_eq (op : BitVec 3) (acc : Word) (old : Latch 32) :
    delivered op acc old =
      if op = 0b000#3 then .val acc
      else if op = 0b010#3 ∨ op = 0b110#3 then .val ((acc.extractLsb' 0 16).signExtend 32)
      else old := by
  by_cases h32 : op = 0b000#3
  · simp [delivered, readResult, h32]
  · simp [delivered, readResult, h32, sext32, half]

/-- A step that is no release leaves the result register of its instance as it is. -/
theorem steps_rdata {s t : State} {k : Nat} {n m : Node} (hn : s.insts[k]? = some n) (hm : t.insts[k]? = some m)
    (h : Steps k n s t) (hp : n.eng.phase ≠ .release) : m.eng.rdata = n.eng.rdata := by
  have put : ∀ n' : Node, (s.insts.set k n')[k]? = some m → m = n' := fun n' h' =>
    Option.some.inj (h'.symm.trans (getElem_set_self hn))
  cases h with
  | acquire => rw [put _ hm]; rfl
  | select => rw [put _ hm]
  | exch => rw [put _ hm]
  | gap => rw [put _ hm]; rfl
  | deselect => rw [put _ hm]
  | releaseRead h => exact absurd h hp
  | releaseWrite h => exact absurd h hp

/-- Settles O24: the release step delivers what `delivered` says, and every other step of an instance, waiting included,
keeps its `RDATA`. -/
theorem Proofs.releaseStep : Obligations.ReleaseStep := by
  constructor
  · intro s k n rest op acc ha hn hp hop hacc
    rw [← delivered_eq]
    exact step_of_steps ha hn (steps_release hp hop hacc)
  · intro s t k n m ht hn hm hne
    by_contra hp
    obtain ⟨n', hn', h⟩ := tick_next ht
    obtain rfl : n = n' := Option.some.inj (hn.symm.trans hn')
    rcases h with ⟨-, rfl⟩ | hsteps
    · obtain rfl : n = m := Option.some.inj (hn.symm.trans hm)
      exact hne rfl
    · exact hne (steps_rdata hn hm hsteps hp)

/-! ### What one exchange does to the device's registers -/

/-- The sixth byte of a frame completes a write of the slot its second byte addresses, if its first byte is the write
opcode and the device is the reference device. -/
theorem take_regs_of_five {d : Device} {opc a b3 b2 b1 : Byte} (hf : d.frame = [opc, a, b3, b2, b1]) (tx : Byte) :
    (d.take tx).regs =
      if d.reference = true ∧ opc = opcWrite ∧ kindOf a = .config then d.regs.writeSlot a b3 b2 b1 tx else d.regs := by
  simp only [Device.take, hf, List.cons_append, List.nil_append]
  split <;> rfl

/-- With five bytes of a frame sent, the device has its opcode, its address and the first three data bytes. -/
theorem frame_of_sent_five {n : Node} {op : BitVec 3} {a : Byte} {wd : Word} (hop : n.eng.op = .val op)
    (ha : n.eng.addr = .val a) (hwd : n.eng.wdata = .val wd) (hs : n.Sent 5) :
    n.dev.frame = wireOpcode op :: a :: [0, 1, 2].map fun j => if isWrite op then wireByte wd j else fillByte :=
  List.map_injective_iff.mpr (Option.some_injective Byte) (hs op a wd hop ha hwd)

theorem wireOpcode_eq_opcWrite_iff (op : BitVec 3) : wireOpcode op = opcWrite ↔ isWrite op = true := by
  cases h : isWrite op <;> simp [wireOpcode, h, opcRead, opcWrite]

/-- R46 for one exchange: where the device has taken the first `i` bytes of the frame, byte `i` stores the payload only as
the sixth byte of a write to a configuration register of the reference device. -/
theorem take_regs_of_sent {n : Node} {op : BitVec 3} {a tx : Byte} {wd : Word} {i : Nat} (hop : n.eng.op = .val op)
    (ha : n.eng.addr = .val a) (hwd : n.eng.wdata = .val wd) (htx : txByte op a wd i = some tx) (hs : n.Sent i) :
    (n.dev.take tx).regs =
      if n.dev.reference = true ∧ isWrite op = true ∧ kindOf a = .config ∧ i = 5 then
        n.dev.regs.writeSlot a (wireByte wd 0) (wireByte wd 1) (wireByte wd 2) (wireByte wd 3)
      else n.dev.regs := by
  by_cases hi : i = 5
  · subst hi
    rw [take_regs_of_five (frame_of_sent_five hop ha hwd hs)]
    simp only [wireOpcode_eq_opcWrite_iff]
    cases hw : isWrite op with
    | false => simp
    | true =>
      have hpay : tx = wireByte wd 3 := by simpa [txByte, hw] using htx.symm
      simp [hpay]
  · have hlen : n.dev.frame.length = i := by simpa using congrArg List.length (hs op a wd hop ha hwd)
    rw [take_regs_of_short _ _ (hlen.trans_ne hi), if_neg fun ⟨_, _, _, h⟩ => hi h]

theorem canAnswer_iff (d : Device) : d.canAnswer = true ↔ d.answersLeft ≠ some 0 := by simp [Device.canAnswer]

theorem canAnswer_eq_false_iff (d : Device) : d.canAnswer = false ↔ d.answersLeft = some 0 := by simp [Device.canAnswer]

/-- Settles O20: an answered exchange is `Device.exchange` with the byte of the table, whose register bytes are
those of the device taking that byte (`take_regs_of_sent`); an unanswered one waits. -/
theorem Proofs.exchangeStep : Obligations.ExchangeStep := by
  intro s k n rest op a wd acc role tx hs hn hp hop ha hwd hacc hrole htx
  constructor
  · intro hleft
    have hcan := (canAnswer_iff n.dev).mpr hleft
    refine ⟨(n.dev.exchange k tx s.draws).rx, (n.dev.exchange k tx s.draws).dev, (n.dev.exchange k tx s.draws).draws,
      step_of_steps hs hn (.exch hp hcan op a wd acc role tx hop ha hwd hacc hrole htx), exchange_reference k n.dev tx _,
      exchange_fwId k n.dev tx _, exchange_pointerLost k n.dev tx _, fun hsent => ?_⟩
    rw [exchange_regs, take_regs_of_sent hop ha hwd htx hsent]
    have hidx : n.eng.idx.toNat = 5 ↔ n.eng.idx = 5#3 := BitVec.toNat_inj (y := 5#3)
    simp only [hidx]
    rfl
  · intro hleft
    exact step_of_waits hs hn (.noAnswer hp ((canAnswer_eq_false_iff n.dev).mpr hleft))

end Sys2Proof.Machine
end

section
/-! PROOFS. The byte order of composition and splitting, and the bytes of a rate payload (43_compose_decode.md R110, R111,
R113, R125, R126). -/

namespace Sys2Proof.Machine

/-- R110: `BE16` as an unsigned number. -/
theorem toNat_be16 (bh bl : Byte) : (be16 bh bl).toNat = bh.toNat * 256 + bl.toNat :=
  calc (be16 bh bl).toNat
    _ = bh.toNat <<< 8 ||| bl.toNat := BitVec.toNat_append bh bl
    _ = bh.toNat <<< 8 + bl.toNat := (Nat.shiftLeft_add_eq_or_of_lt bl.isLt bh.toNat).symm
    _ = bh.toNat * 256 + bl.toNat := by rw [Nat.shiftLeft_eq]

/-- R111: `BE32` is two `BE16` side by side, because concatenation is associative. -/
theorem be32_eq_append_be16 (b3 b2 b1 b0 : Byte) : be32 b3 b2 b1 b0 = be16 b3 b2 ++ be16 b1 b0 :=
  BitVec.append_assoc

/-- The bytes of four bytes in wire order: each is what is left on the right when those sent after it are dropped. -/
theorem split32_be32 (b3 b2 b1 b0 : Byte) : split32 (be32 b3 b2 b1 b0) = (b3, b2, b1, b0) := by
  have h0 : wireByte (be32 b3 b2 b1 b0) 3 = b0 := BitVec.extractLsb'_append_eq_right
  have h1 : wireByte (be32 b3 b2 b1 b0) 2 = b1 :=
    (BitVec.extractLsb'_append_eq_of_le (by decide)).trans BitVec.extractLsb'_append_eq_right
  have h2 : wireByte (be32 b3 b2 b1 b0) 1 = b2 :=
    (BitVec.extractLsb'_append_eq_of_le (by decide)).trans <|
      (BitVec.extractLsb'_append_eq_of_le (by decide)).trans BitVec.extractLsb'_append_eq_right
  have h3 : wireByte (be32 b3 b2 b1 b0) 0 = b3 :=
    (BitVec.extractLsb'_append_eq_of_le (by decide)).trans <|
      (BitVec.extractLsb'_append_eq_of_le (by decide)).trans BitVec.extractLsb'_append_eq_left
  rw [split32, h0, h1, h2, h3]

/-- R125: a rate payload is composed as `BE32` composes its bytes. -/
theorem packRate_eq_be32 (q e p v : Byte) : packRate q e p v = be32 q e p v := rfl

/-- Settles O7: the number and the halves by the laws of concatenation; the bytes of `SPLIT32` stand at `24 - 8 * j`. -/
theorem byteOrderIsMostSignificantFirst : Obligations.ByteOrderIsMostSignificantFirst :=
  ⟨fun bh bl => ⟨rfl, toNat_be16 bh bl⟩, fun b3 b2 b1 b0 => ⟨rfl, be32_eq_append_be16 b3 b2 b1 b0⟩, fun _ => rfl⟩

/-- Settles O9: a rate payload is `BE32` of its sub-rates, so `SPLIT32` gives them back; the omitted rates are the default
arguments of `packRate`. -/
theorem ratePayloadBytesAreTheSubRates : Obligations.RatePayloadBytesAreTheSubRates := by
  refine ⟨fun q e p v => ⟨rfl, ?_⟩, fun _ _ _ => ⟨rfl, rfl, rfl⟩, by decide⟩
  rw [packRate_eq_be32, split32_be32]

end Sys2Proof.Machine
end

section
/-! PROOFS. The rejection of a command its row does not allow, and of every word (60_exceptions.md R141, R142). -/

namespace Sys2Proof.Machine

/-! ### The kinds as the three ranges, and the cause of a command its row does not allow -/

theorem inConfigRange_iff (a : Byte) : inConfigRange a = true ↔ kindOf a = .config := by
  rw [kindOf_eq_config_iff, inConfigRange, decide_eq_true_iff]

theorem inDataRange_iff (a : Byte) : inDataRange a = true ↔ kindOf a = .data := by
  rw [kindOf_eq_data_iff, inDataRange, Bool.and_eq_true, decide_eq_true_iff, decide_eq_true_iff]

theorem inCommandRange_iff (a : Byte) : inCommandRange a = true ↔ kindOf a = .command := by
  rw [kindOf_eq_command_iff, inCommandRange, Bool.and_eq_true, decide_eq_true_iff, decide_eq_true_iff]

/-- An address is mapped where it lies in one of the three ranges. -/
theorem inRanges_iff (a : Byte) : (inConfigRange a || inDataRange a || inCommandRange a) = true ↔ kindOf a ≠ .none := by
  simp only [Bool.or_eq_true, inConfigRange_iff, inDataRange_iff, inCommandRange_iff]
  cases kindOf a <;> decide

/-- R141: a read is rejected at an unmapped address only. -/
theorem checkRead_of_rejected {a : Byte} (h : (inConfigRange a || inDataRange a || inCommandRange a) = false) :
    checkRead a = .illegalAddr := by
  rw [← Bool.not_eq_true, inRanges_iff, not_not] at h
  rw [checkRead, if_pos h]

/-- R141: a write is rejected at an unmapped address, and at a mapped one of another kind than its own. -/
theorem checkWrite_of_rejected {k : Kind} {a : Byte} (h : kindOf a ≠ k) :
    checkWrite k a =
      if inConfigRange a || inDataRange a || inCommandRange a then .illegalAccess else .illegalAddr := by
  by_cases hmap : kindOf a = .none
  · rw [checkWrite, if_pos hmap, if_neg ((inRanges_iff a).not.mpr (not_not.mpr hmap))]
  · rw [checkWrite, if_neg hmap, if_neg h, if_pos ((inRanges_iff a).mpr hmap)]

/-- R141: the cause of a decoded command its row does not allow. -/
theorem cause_of_rejected {i : Instr} (h : i.wellFormed = false) :
    (commandOrder i).cause =
      if inConfigRange i.addr || inDataRange i.addr || inCommandRange i.addr then .illegalAccess else .illegalAddr := by
  have read : ∀ a : Byte, (inConfigRange a || inDataRange a || inCommandRange a) = false →
      checkRead a = if inConfigRange a || inDataRange a || inCommandRange a then .illegalAccess else .illegalAddr :=
    fun a ha => by rw [checkRead_of_rejected ha, ha, if_neg Bool.false_ne_true]
  cases i with
  | rd32 a => exact read a h
  | wr32 a v => exact checkWrite_of_rejected fun hk => Bool.eq_false_iff.mp h ((inConfigRange_iff a).mpr hk)
  | rd16h a => exact read a h
  | wrcmd a => exact checkWrite_of_rejected fun hk => Bool.eq_false_iff.mp h ((inCommandRange_iff a).mpr hk)
  | rd16l a => exact read a h

theorem cause_ne_none_of_rejected {i : Instr} (h : i.wellFormed = false) : (commandOrder i).cause ≠ .none := by
  rw [cause_of_rejected h]
  split <;> decide

/-! ### The rejecting step -/

/-- The call of a word that decodes, at an idle instance. -/
theorem step_of_call {s : State} {k : Nat} {n : Node} {cw : CommandWord} {rest : List Move} {i : Instr}
    (ha : s.agenda = ⟨k, .call cw⟩ :: rest) (hn : s.insts[k]? = some n) (hi : n.eng.phase = .idle)
    (hd : decode cw = .ok i) : step s = exec i (s.begin ⟨k, .call cw⟩ rest) := by
  have hf : fetch s = .run i (s.begin ⟨k, .call cw⟩ rest) := by
    simp only [fetch, ha, hd]
    exact whenIdle_of_idle (m := ⟨k, .call cw⟩) _ hn hi
  simp only [step, hf]

/-- The submit of a word that decodes, at an idle instance. -/
theorem step_of_submit {s : State} {k : Nat} {n : Node} {cw : CommandWord} {rest : List Move} {i : Instr}
    (ha : s.agenda = ⟨k, .submit cw⟩ :: rest) (hn : s.insts[k]? = some n) (hi : n.eng.phase = .idle)
    (hd : decode cw = .ok i) : step s = submit k (commandOrder i) (s.begin ⟨k, .submit cw⟩ rest) := by
  refine step_of_done ?_
  simp only [fetch, ha, hd]
  exact whenIdle_of_idle (m := ⟨k, .submit cw⟩) _ hn hi

theorem submit_rejected {s : State} {k : Nat} {n : Node} {o : Order} (hn : s.insts[k]? = some n)
    (hi : n.eng.phase = .idle) (hc : o.cause ≠ .none) : submit k o s = .next (s.reject k n o.cause) := by
  rw [submit, withNode_some hn, if_pos hi, if_neg hc]

/-- Submitted or called at an idle instance, a command its check refuses is rejected with the check's cause: a call takes
no step of the instance after its rejection. -/
theorem step_of_rejected {s : State} {k : Nat} {n : Node} {act : Act} {rest : List Move} {cw : CommandWord} {i : Instr}
    (hact : act = .submit cw ∨ act = .call cw) (ha : s.agenda = ⟨k, act⟩ :: rest) (hn : s.insts[k]? = some n)
    (hi : n.eng.phase = .idle) (hd : decode cw = .ok i) (hc : (commandOrder i).cause ≠ .none) :
    step s = .next ((s.begin ⟨k, act⟩ rest).reject k n (commandOrder i).cause) := by
  rcases hact with rfl | rfl
  · rw [step_of_submit ha hn hi hd]
    exact submit_rejected hn hi hc
  · rw [step_of_call ha hn hi hd, exec_eq_callCommand]
    exact callCommand_rejected hn hi hc

/-- Settles O16: a word that decodes to no command is rejected by `step_of_illegal`, a command its row does not allow by
`step_of_rejected` with the cause of R141. -/
theorem aRejectionDoesExactlyThis : Obligations.ARejectionDoesExactlyThis := by
  rintro s k n cw act rest c hact ha hn hi (⟨hreserved, rfl⟩ | ⟨i, hd, hwf, rfl⟩)
  · exact step_of_illegal hact ha hn hi (decode_of_reserved hreserved)
  · rw [← cause_of_rejected hwf]
    exact step_of_rejected hact ha hn hi hd (cause_ne_none_of_rejected hwf)

end Sys2Proof.Machine
end

section
/-! PROOFS. Encoding and decoding a command word are inverse to each other (30_encoding.md R50, R53, R54). -/

namespace Sys2Proof

open Sys2Proof.Machine

/-- A command word is put together from its three fields. -/
theorem commandWord_of_fields (cw : CommandWord) : commandWord (funcField cw) (addrField cw) (dataField cw) = cw := by
  have high : cw.extractLsb' 40 8 ++ cw.extractLsb' 32 8 = cw.extractLsb' 32 16 :=
    BitVec.extractLsb'_append_extractLsb'_eq_extractLsb' (by rfl)
  unfold commandWord funcField addrField dataField
  rw [high]
  exact BitVec.extractLsb'_append_extractLsb' (w := 16) (len := 32)

/-- The five ways a word can decode to a command: its function code is the command's, and the command takes its fields. -/
theorem decode_ok {cw : CommandWord} {i : Instr} (h : decode cw = .ok i) :
    (funcField cw = 0x00#8 ∧ i = .rd32 (addrField cw)) ∨
    (funcField cw = 0x01#8 ∧ i = .wr32 (addrField cw) (dataField cw)) ∨
    (funcField cw = 0x02#8 ∧ i = .rd16h (addrField cw)) ∨
    (funcField cw = 0x03#8 ∧ i = .wrcmd (addrField cw)) ∨
    (funcField cw = 0x06#8 ∧ i = .rd16l (addrField cw)) := by
  unfold decode at h
  dsimp only at h
  split_ifs at h with hrd32 hwr32 hrd16h hwrcmd hrd16l <;> cases h
  · exact .inl ⟨hrd32, rfl⟩
  · exact .inr (.inl ⟨hwr32, rfl⟩)
  · exact .inr (.inr (.inl ⟨hrd16h, rfl⟩))
  · exact .inr (.inr (.inr (.inl ⟨hwrcmd, rfl⟩)))
  · exact .inr (.inr (.inr (.inr ⟨hrd16l, rfl⟩)))

/-- Decoding inverts encoding, whatever an ignored data field holds. -/
theorem decode_encodeWith (d : Word) (i : Instr) : decode (encodeWith d i) = .ok i := by
  cases i with
  | rd32 a =>
    obtain ⟨hf, ha, -⟩ := commandWord_fields (funcCode (.rd32 a)) a d
    exact (decode_of_rd32 hf).trans (by rw [ha])
  | wr32 a v =>
    obtain ⟨hf, ha, hd⟩ := commandWord_fields (funcCode (.wr32 a v)) a v
    exact (decode_of_wr32 hf).trans (by rw [ha, hd])
  | rd16h a =>
    obtain ⟨hf, ha, -⟩ := commandWord_fields (funcCode (.rd16h a)) a d
    exact (decode_of_rd16h hf).trans (by rw [ha])
  | wrcmd a =>
    obtain ⟨hf, ha, -⟩ := commandWord_fields (funcCode (.wrcmd a)) a d
    exact (decode_of_wrcmd hf).trans (by rw [ha])
  | rd16l a =>
    obtain ⟨hf, ha, -⟩ := commandWord_fields (funcCode (.rd16l a)) a d
    exact (decode_of_rd16l hf).trans (by rw [ha])

/-- Decoding inverts encoding. -/
theorem decode_encode (i : Instr) : decode (encode i) = .ok i := decode_encodeWith _ i

/-- Encoding inverts decoding, with the word's own data field where the command ignores it. -/
theorem encodeWith_of_decode {cw : CommandWord} {i : Instr} (h : decode cw = .ok i) :
    encodeWith (dataField cw) i = cw := by
  obtain ⟨hf, rfl⟩ | ⟨hf, rfl⟩ | ⟨hf, rfl⟩ | ⟨hf, rfl⟩ | ⟨hf, rfl⟩ := decode_ok h <;>
    simp only [encodeWith, funcCode, ← hf, commandWord_of_fields]

/-- Settles O2: the function code tells which command a word is, and a word is put together from its three fields. -/
theorem decodeInvertsEncode : Obligations.DecodeInvertsEncode :=
  ⟨fun i d => decode_encodeWith d i, fun _ _ h => encodeWith_of_decode h⟩

/-- Settles O3: the decoder computes on six fixed words. -/
theorem wordsWrittenOutDecode : Obligations.WordsWrittenOutDecode := by
  unfold Obligations.WordsWrittenOutDecode
  decide

end Sys2Proof
end

section
/-! PROOFS. The acceptance check as the access matrix, the named operations, and the frame tables (60_exceptions.md R141,
43_compose_decode.md R129 to R137, 30_encoding.md R56, R57). -/

namespace Sys2Proof.Machine

/-! ### The acceptance check -/

theorem checkRead_eq_none_iff (a : Byte) : checkRead a = .none ↔ kindOf a ≠ .none := by
  unfold checkRead
  split <;> simp_all

theorem checkWrite_eq_none_iff {k : Kind} (hk : k ≠ .none) (a : Byte) : checkWrite k a = .none ↔ kindOf a = k := by
  unfold checkWrite
  split_ifs with hnone hkind
  · simp [hnone, Ne.symm hk]
  · simp [hkind]
  · simp [hkind]

/-- The check passes exactly where the row of the opcode table allows the address. -/
theorem cause_eq_none_iff (i : Instr) : (commandOrder i).cause = .none ↔ i.wellFormed = true := by
  cases i with
  | rd32 a => exact (checkRead_eq_none_iff a).trans (inRanges_iff a).symm
  | wr32 a v => exact (checkWrite_eq_none_iff (by decide) a).trans (inConfigRange_iff a).symm
  | rd16h a => exact (checkRead_eq_none_iff a).trans (inRanges_iff a).symm
  | wrcmd a => exact (checkWrite_eq_none_iff (by decide) a).trans (inCommandRange_iff a).symm
  | rd16l a => exact (checkRead_eq_none_iff a).trans (inRanges_iff a).symm

/-- What a command's row allows is a mapped address. -/
theorem mapped_of_wellFormed {i : Instr} (h : i.wellFormed = true) :
    (inConfigRange i.addr || inDataRange i.addr || inCommandRange i.addr) = true := by
  cases i with
  | rd32 a => exact h
  | wr32 a v => simp [Instr.addr, show inConfigRange a = true from h]
  | rd16h a => exact h
  | wrcmd a => simp [Instr.addr, show inCommandRange a = true from h]
  | rd16l a => exact h

/-- Settles O5: an allowed command passes by `cause_eq_none_iff`, and `cause_of_rejected` gives the cause of any other. -/
theorem checkIsTheAccessMatrix : Obligations.CheckIsTheAccessMatrix := by
  intro i
  have hmap : (inConfigRange i.addr = false ∧ inDataRange i.addr = false ∧ inCommandRange i.addr = false) ↔
      (inConfigRange i.addr || inDataRange i.addr || inCommandRange i.addr) = false := by
    simp [and_assoc]
  rw [hmap]
  refine ⟨cause_eq_none_iff i, ?_⟩
  cases hw : i.wellFormed with
  | true =>
    have hc : check i = .none := (cause_eq_none_iff i).mpr hw
    simp [hc, mapped_of_wellFormed hw]
  | false =>
    have hc : check i = _ := cause_of_rejected hw
    cases hm : inConfigRange i.addr || inDataRange i.addr || inCommandRange i.addr <;> simp [hc, hm]

/-! ### Two frames that are one, and the tables of a frame -/

/-- The byte sent depends on the function bits by their write bit alone. -/
theorem txByte_congr {op op' : BitVec 3} (h : isWrite op = isWrite op') (a : Byte) (wd : Word) (i : Nat) :
    txByte op a wd i = txByte op' a wd i := by
  simp only [txByte, wireOpcode, h]

/-- Settles O32: the two commands latch different function bits, which give the same opcode byte and the same roles. -/
theorem triggerAndZeroWriteAreOneFrame : Obligations.TriggerAndZeroWriteAreOneFrame :=
  fun a i => ⟨txByte_congr (op := 0b001#3) (op' := 0b011#3) (by decide) a 0#32 i, by match i with | 0 | 1 | 2 | 3 | 4 | 5 | _ + 6 => rfl,
    checkWrite_eq_none_iff (by decide) a, checkWrite_eq_none_iff (by decide) a⟩

/-- Settles O21: each entry of the tables is computed from the function bits. -/
theorem frameTablesAsPrinted : Obligations.FrameTablesAsPrinted :=
  fun _ _ => ⟨rfl, rfl, rfl, rfl, rfl, rfl, rfl, rfl, rfl, rfl⟩

/-! ### Named operations -/

/-- Settles O11: every other operation expands whatever the table. -/
theorem onlySetMiscWithoutTableIsRefused : Obligations.OnlySetMiscWithoutTableIsRefused := by
  intro m misc op
  cases op with
  | setMisc pps zg q mag => cases misc <;> simp [NamedOp.expand]
  | _ => simp [NamedOp.expand]

/-- A read is accepted at every mapped address. -/
theorem readPair_wellFormed {k : ValueKind} {a : Byte} (ha : kindOf a ≠ .none) :
    ∀ f ∈ readPair k a, f.cmd.wellFormed = true := by
  have := (inRanges_iff a).mpr ha
  simpa [readPair, Instr.wellFormed] using this

theorem readWords_wellFormed {k : ValueKind} {l : List Byte} (hl : ∀ a ∈ l, kindOf a ≠ .none) :
    ∀ f ∈ readWords k l, f.cmd.wellFormed = true := by
  intro f hf
  obtain ⟨a, ha, rfl⟩ := List.mem_map.mp hf
  exact (inRanges_iff a).mpr (hl a ha)

/-- The registers of an entry are mapped, where the map's images lie in the ranges of their kinds. -/
theorem addrs_mapped {m : RegMap} (hm : ∀ r : RegName, kindOf (m.regAddr r) = r.entry.kind) (e : RegList) :
    ∀ a ∈ m.addrs e, kindOf a ≠ .none := by
  intro a ha
  obtain ⟨i, -, rfl⟩ := List.mem_map.mp ha
  rw [hm]
  cases e <;> simp [RegList.kind]

theorem readPairs_wellFormed {k : ValueKind} {l : List Byte} (hl : ∀ a ∈ l, kindOf a ≠ .none) :
    ∀ f ∈ l.flatMap (readPair k), f.cmd.wellFormed = true := by
  intro f hf
  obtain ⟨a, ha, hf⟩ := List.mem_flatMap.mp hf
  exact readPair_wellFormed (hl a ha) f hf

/-- Settles O10: an operation reads mapped registers, and writes the register of its kind. -/
theorem namedOperationsAreAccepted : Obligations.NamedOperationsAreAccepted := by
  intro m misc op l hm hl hpair hrate hall f hf
  have mapped := addrs_mapped hm
  cases op with
  | rd16pair a => cases hl; exact readPair_wellFormed (hpair a rfl) f hf
  | bulkRaw =>
    cases hl
    rcases List.mem_append.mp hf with hf | hf
    · obtain ⟨x, -, hf⟩ := List.mem_flatMap.mp hf
      exact readPairs_wellFormed (mapped _) f hf
    · exact readWords_wellFormed (fun a ha => (List.mem_append.mp ha).elim (mapped _ a) (mapped _ a)) f hf
  | bulkProc =>
    cases hl
    refine readWords_wellFormed (fun a ha => ?_) f hf
    rcases List.mem_append.mp ha with ha | ha
    · obtain ⟨x, -, ha⟩ := List.mem_flatMap.mp ha
      exact mapped _ a ha
    · exact mapped _ a ha
  | orient =>
    cases hl
    simp only [List.mem_append] at hf
    rcases hf with ((hf | hf) | hf) | hf
    · exact readPairs_wellFormed (mapped _) f hf
    · exact readPairs_wellFormed (mapped _) f hf
    · exact readPairs_wellFormed (mapped _) f hf
    · exact readWords_wellFormed (mapped _) f hf
  | setRate r q e p v =>
    cases hl
    obtain rfl := List.mem_singleton.mp hf
    exact (inConfigRange_iff r).mpr (hrate r q e p v rfl)
  | setAllRate pos r x =>
    cases hl
    obtain rfl := List.mem_singleton.mp hf
    exact (inConfigRange_iff r).mpr (hall pos r x rfl)
  | setMisc pps zg q mag =>
    cases misc with
    | none => cases hl
    | some t =>
      cases hl
      obtain rfl := List.mem_singleton.mp hf
      exact (inConfigRange_iff _).mpr (hm _)
  | trigger t =>
    cases hl
    obtain rfl := List.mem_singleton.mp hf
    exact (inCommandRange_iff _).mpr (hm _)
  | fwQuery =>
    cases hl
    obtain rfl := List.mem_singleton.mp hf
    exact (inRanges_iff _).mpr (by rw [hm]; simp [RegList.kind])

end Sys2Proof.Machine
end

section
/-! PROOFS. The round trips of composition and splitting, and the typed decodes (43_compose_decode.md R114, R118 to R121). -/

namespace Sys2Proof.Machine

/-! ### Composition and splitting -/

/-- R114 law 1: the bytes of a word put together are the word. -/
theorem be32_split32 (v : Word) : be32 (wireByte v 0) (wireByte v 1) (wireByte v 2) (wireByte v 3) = v := by
  have h2 : v.extractLsb' 24 8 ++ v.extractLsb' 16 8 = v.extractLsb' 16 16 :=
    BitVec.extractLsb'_append_extractLsb'_eq_extractLsb' (by rfl)
  have h3 : v.extractLsb' 16 16 ++ v.extractLsb' 8 8 = v.extractLsb' 8 24 :=
    BitVec.extractLsb'_append_extractLsb'_eq_extractLsb' (by rfl)
  calc be32 (wireByte v 0) (wireByte v 1) (wireByte v 2) (wireByte v 3)
      = v.extractLsb' 24 8 ++ v.extractLsb' 16 8 ++ v.extractLsb' 8 8 ++ v.extractLsb' 0 8 := rfl
    _ = v.extractLsb' 8 24 ++ v.extractLsb' 0 8 := by rw [h2, h3]
    _ = v := BitVec.extractLsb'_append_extractLsb' (w := 24) (len := 8)

/-- The two halves of two halves put together. -/
theorem half_append (h l : HalfWord) : half (h ++ l) .high = h ∧ half (h ++ l) .low = l :=
  ⟨BitVec.extractLsb'_append_eq_left, BitVec.extractLsb'_append_eq_right⟩

/-- Settles O6: the bytes of a word are the word, and its halves and sign are those of the word. -/
theorem splitAndComposeRoundTrip : Obligations.SplitAndComposeRoundTrip := by
  refine ⟨be32_split32, split32_be32, fun h l => ?_, fun w x => (BitVec.toInt_signExtend_of_le (by decide)).symm⟩
  have hv := be32_split32 (h ++ l)
  exact ⟨(congrArg (half · .high) hv).trans (half_append h l).1, (congrArg (half · .low) hv).trans (half_append h l).2⟩

/-! ### Scaled decodes -/

/-- A half as a signed number lies between the two extremes. -/
theorem toInt_bounds (h : HalfWord) : (-32768 : ℚ) ≤ h.toInt ∧ (h.toInt : ℚ) ≤ 32767 := by
  have hlo := BitVec.le_toInt h
  have hhi := BitVec.toInt_lt (x := h)
  norm_num at hlo hhi
  exact ⟨by exact_mod_cast hlo, by exact_mod_cast Int.le_of_lt_add_one hhi⟩

theorem toInt_extremes : (0x8000#16).toInt = -32768 ∧ (0x7FFF#16).toInt = 32767 := by decide

/-- A quotient by a positive divisor lies between those of the extremes. -/
theorem quotient_bounds {d : ℚ} (hd : 0 < d) (h : HalfWord) :
    (0x8000#16).toInt / d ≤ h.toInt / d ∧ h.toInt / d ≤ (0x7FFF#16).toInt / d := by
  obtain ⟨hlo, hhi⟩ := toInt_bounds h
  exact ⟨div_le_div_of_nonneg_right (by simpa [toInt_extremes.1] using hlo) hd.le,
    div_le_div_of_nonneg_right (by simpa [toInt_extremes.2] using hhi) hd.le⟩

/-- Settles O8: a quotient times its divisor is the signed half, and dividing by a positive number keeps the order. -/
theorem scaledDecodesAreExactQuotients : Obligations.ScaledDecodesAreExactQuotients := by
  refine ⟨by simp [quat], by simp [euler], by simp [erate], fun h => ⟨?_, ?_, ?_⟩, fun h => ?_⟩
  · exact div_mul_cancel₀ _ (by norm_num [qDiv])
  · exact div_mul_cancel₀ _ (by norm_num [eulerDiv])
  · exact div_mul_cancel₀ _ (by norm_num [rateDiv])
  · obtain ⟨hqlo, hqhi⟩ := quotient_bounds (d := qDiv) (by norm_num [qDiv]) h
    obtain ⟨helo, hehi⟩ := quotient_bounds (d := eulerDiv) (by norm_num [eulerDiv]) h
    obtain ⟨hrlo, hrhi⟩ := quotient_bounds (d := rateDiv) (by norm_num [rateDiv]) h
    refine ⟨hqlo, hqhi, helo, hehi, le_trans (le_of_eq ?_) hrlo, hrhi.trans (le_of_eq ?_)⟩
    · norm_num [rateDiv, toInt_extremes.1]
    · norm_num [rateDiv, toInt_extremes.2]

/-! ### Singles -/

/-- The magnitude of a finite single in units of its smallest step, `2 ^ -149`. -/
def singleUnits (e f : Nat) : Nat := if e = 0 then f else (2 ^ 23 + f) * 2 ^ (e - 1)

theorem singleMagnitude_eq (e f : Nat) : singleMagnitude e f = singleUnits e f / 2 ^ 149 := by
  unfold singleMagnitude singleUnits
  split_ifs with h0 h150
  · rw [Rat.mkRat_eq_div]
    push_cast
    rfl
  · have hpow : (2 : ℚ) ^ (e - 1) = 2 ^ (e - 150) * 2 ^ 149 := by rw [← pow_add]; congr 1; omega
    rw [Rat.mkRat_eq_div]
    push_cast
    rw [hpow]
    field_simp
  · have hpow : (2 : ℚ) ^ 149 = 2 ^ (e - 1) * 2 ^ (150 - e) := by rw [← pow_add]; congr 1; omega
    rw [Rat.mkRat_eq_div]
    push_cast
    rw [hpow]
    field_simp

/-- A normal single's magnitude lies in the octave of its exponent. -/
theorem singleUnits_octave {e f : Nat} (he : e ≠ 0) (hf : f < 2 ^ 23) :
    2 ^ 22 * 2 ^ e ≤ singleUnits e f ∧ singleUnits e f < 2 ^ 23 * 2 ^ e := by
  obtain ⟨e, rfl⟩ := Nat.exists_eq_succ_of_ne_zero he
  have hp : 0 < 2 ^ e := Nat.two_pow_pos e
  simp only [singleUnits, he, if_false, Nat.succ_sub_one, Nat.succ_eq_add_one, Nat.pow_succ]
  constructor <;> nlinarith

theorem singleUnits_inj {e f e' f' : Nat} (hf : f < 2 ^ 23) (hf' : f' < 2 ^ 23)
    (h : singleUnits e f = singleUnits e' f') : e = e' ∧ f = f' := by
  -- a smaller exponent gives a smaller magnitude
  have lt : ∀ {e f e' f' : Nat}, f < 2 ^ 23 → f' < 2 ^ 23 → e < e' → singleUnits e f < singleUnits e' f' := by
    intro e f e' f' hf hf' hlt
    have hhi := (singleUnits_octave (e := e') (by omega) hf').1
    by_cases he : e = 0
    · subst he
      have hpow : 2 ^ 1 ≤ 2 ^ e' := Nat.pow_le_pow_right (by decide) hlt
      have hzero : singleUnits 0 f = f := rfl
      omega
    · have hlo := (singleUnits_octave he hf).2
      have : 2 ^ (e + 1) ≤ 2 ^ e' := Nat.pow_le_pow_right (by decide) hlt
      rw [Nat.pow_succ] at this
      omega
  obtain hlt | rfl | hlt := Nat.lt_trichotomy e e'
  · exact absurd h (lt hf hf' hlt).ne
  · refine ⟨rfl, ?_⟩
    unfold singleUnits at h
    split at h
    · exact h
    · have := Nat.eq_of_mul_eq_mul_right (Nat.two_pow_pos (e - 1)) h
      omega
  · exact absurd h.symm (lt hf' hf hlt).ne

theorem singleMagnitude_inj {e f e' f' : Nat} (hf : f < 2 ^ 23) (hf' : f' < 2 ^ 23)
    (h : singleMagnitude e f = singleMagnitude e' f') : e = e' ∧ f = f' := by
  rw [singleMagnitude_eq, singleMagnitude_eq, div_left_inj' (by positivity)] at h
  exact singleUnits_inj hf hf' (by exact_mod_cast h)

/-- A word is its sign bit, its exponent and its fraction. -/
theorem eq_of_single_fields {w w' : Word} (hs : w.getLsbD 31 = w'.getLsbD 31)
    (he : w.extractLsb' 23 8 = w'.extractLsb' 23 8) (hf : w.extractLsb' 0 23 = w'.extractLsb' 0 23) : w = w' := by
  apply BitVec.eq_of_getLsbD_eq
  intro i hi
  by_cases h23 : i < 23
  · have := congrArg (·.getLsbD i) hf
    simpa [h23] using this
  · by_cases h31 : i < 31
    · have := congrArg (·.getLsbD (i - 23)) he
      simpa [show i - 23 < 8 by omega, show 23 + (i - 23) = i by omega] using this
    · rw [show i = 31 by omega]
      exact hs

/-- Settles O60: a value tells its sign, and the exponent and the fraction by its kind and magnitude. -/
theorem singlesLoseNoBit : Obligations.SinglesLoseNoBit := by
  intro w w' h
  simp only [f32] at h
  have exps : (w.extractLsb' 23 8).toNat = 255 → (w'.extractLsb' 23 8).toNat = 255 →
      w.extractLsb' 23 8 = w'.extractLsb' 23 8 := fun h h' => BitVec.eq_of_toNat_eq (h.trans h'.symm)
  split_ifs at h with he hf he' hf' he' hf' he'
  · exact eq_of_single_fields (SingleValue.infinity.inj h) (exps he he') (hf.trans hf'.symm)
  · obtain ⟨hs, hp⟩ := SingleValue.nan.inj h
    exact eq_of_single_fields hs (exps he he') hp
  · obtain ⟨hs, hm⟩ := SingleValue.finite.inj h
    obtain ⟨hexp, hfrac⟩ := singleMagnitude_inj (w.extractLsb' 0 23).isLt (w'.extractLsb' 0 23).isLt hm
    exact eq_of_single_fields hs (BitVec.eq_of_toNat_eq hexp) (BitVec.eq_of_toNat_eq hfrac)

end Sys2Proof.Machine
end

section
/-! PROOFS. The invariant of 10_state.md R29: every step of the bus keeps it. -/

namespace Sys2Proof.Machine

/-! ### The invariant, instance by instance -/

/-- What the invariant says of one instance with its device, the owner of the bus left out. -/
structure Node.Inv (n : Node) : Prop where
  eng : n.eng.Inv
  memory : n.dev.regs.wf = true
  sent : n.eng.phase = .exch ∨ n.eng.phase = .deselect → n.Sent n.eng.idx.toNat
  sent_gap : n.eng.phase = .gap → n.Sent (n.eng.idx.toNat + 1)

theorem State.Inv.node {s : State} (h : s.Inv) {k : Nat} {n : Node} (hn : s.insts[k]? = some n) : n.Inv :=
  ⟨h.engines k n hn, h.memories k n hn, (h.frames k n hn).1, (h.frames k n hn).2⟩

/-- The invariant is about the instances and the owner of the bus alone. -/
theorem State.Inv.congr {s t : State} (h : s.Inv) (hi : t.insts = s.insts) (hb : t.busOwner = s.busOwner) : t.Inv := by
  obtain ⟨engines, owner_iff, owner_present, memories, frames⟩ := h
  constructor
  · simpa only [hi] using engines
  · simpa only [hi, hb] using owner_iff
  · simpa only [hi, hb] using owner_present
  · simpa only [hi] using memories
  · simpa only [hi] using frames

/-- Putting one instance back keeps the invariant, if it holds of that instance and the owner of the bus is right. -/
theorem State.Inv.put {s t : State} {k : Nat} {n m : Node} (h : s.Inv) (hn : s.insts[k]? = some n)
    (hi : t.insts = s.insts.set k m) (hm : m.Inv) (hk : t.busOwner = some k ↔ m.eng.phase.ownsBus = true)
    (ho : ∀ j, j ≠ k → (t.busOwner = some j ↔ s.busOwner = some j)) : t.Inv := by
  have here : t.insts[k]? = some m := by rw [hi]; exact getElem_set_self hn
  have other : ∀ j, j ≠ k → t.insts[j]? = s.insts[j]? := fun j hj => by rw [hi]; exact getElem_set_other m hj
  -- every instance is the one put back or an old one
  have each : ∀ (j : Nat) (x : Node), t.insts[j]? = some x → x.Inv ∧ (t.busOwner = some j ↔ x.eng.phase.ownsBus = true) := by
    intro j x hx
    by_cases hj : j = k
    · subst hj
      obtain rfl : m = x := Option.some.inj (here.symm.trans hx)
      exact ⟨hm, hk⟩
    · rw [other j hj] at hx
      exact ⟨h.node hx, (ho j hj).trans (h.owner_iff j x hx)⟩
  refine ⟨fun j x hx => (each j x hx).1.eng, fun j x hx => (each j x hx).2, fun j hj => ?_,
    fun j x hx => (each j x hx).1.memory, fun j x hx => ⟨(each j x hx).1.sent, (each j x hx).1.sent_gap⟩⟩
  by_cases hjk : j = k
  · subst hjk
    exact (List.getElem?_eq_some_iff.mp here).1
  · rw [hi, List.length_set]
    exact h.owner_present j ((ho j hjk).mp hj)

/-- Putting one instance back while the bus keeps its owner. -/
theorem State.Inv.put_same_owner {s t : State} {k : Nat} {n m : Node} (h : s.Inv) (hn : s.insts[k]? = some n)
    (hi : t.insts = s.insts.set k m) (hb : t.busOwner = s.busOwner) (hm : m.Inv)
    (hp : m.eng.phase.ownsBus = n.eng.phase.ownsBus) : t.Inv :=
  h.put hn hi hm (by rw [hb, hp]; exact h.owner_iff k n hn) fun j _ => by rw [hb]

/-! ### The engine under each update -/

@[simp] theorem holds_val {w : Nat} (v : BitVec w) : Latch.holds (.val v) = true := rfl

/-- The engine of an instance that is not idle. -/
theorem Engine.Inv.running {e : Engine} (h : e.Inv) (hp : e.phase ≠ .idle) : e.busy = true ∧ e.done = false :=
  ⟨h.busy_iff.mpr hp, Bool.eq_false_iff.mpr fun hd => hp (h.done_idle hd)⟩

/-- Select is high outside the bracket. -/
theorem Engine.Inv.select_high {e : Engine} (h : e.Inv) (hp : e.phase.selectLow = false) : e.csN = true := by
  have := h.select_iff.not.mpr (by simp [hp])
  simpa using this

theorem Engine.Inv.accept {e : Engine} (h : e.Inv) (hp : e.phase = .idle) (i : Instr) :
    (e.accept (commandOrder i)).Inv := by
  have hcs := h.select_high (by simp [hp, Phase.selectLow])
  constructor <;> simp [hcs, Phase.selectLow, h.clock_positive]
  cases i <;> rfl

theorem Engine.Inv.reject {e : Engine} (h : e.Inv) (c : Cause) : (e.reject c).Inv :=
  ⟨h.busy_iff, h.select_iff, h.idx_start, h.idx_running, h.idx_done, h.idx_small, h.done_idle, h.clock_positive,
    h.latched⟩

theorem Engine.Inv.busCfg {e : Engine} (h : e.Inv) {c : BusCfg} (hc : 0 < c.clkHz) : ({ e with busCfg := c } : Engine).Inv :=
  ⟨h.busy_iff, h.select_iff, h.idx_start, h.idx_running, h.idx_done, h.idx_small, h.done_idle, hc, h.latched⟩

theorem Engine.Inv.reset (k : Nat) : (Engine.reset k).Inv := by
  constructor <;> simp [Engine.reset, Phase.selectLow, BusCfg.reset, Config.clkHz]

/-- A write of `BUSCFG` leaves `CLK_HZ` positive. -/
theorem writes_clock {act : Act} {c c' : BusCfg} (h : act.writes c c') (hc : 0 < c.clkHz) : 0 < c'.clkHz := by
  cases act with
  | writeClkHz hz => obtain ⟨hz0, rfl⟩ := h; exact hz0
  | writeCpol b => obtain rfl := h; exact hc
  | writeCpha b => obtain rfl := h; exact hc
  | _ => exact h.elim

/-- The gap step counts up: the index is a number up to 5. -/
theorem idx_succ {i : BitVec 3} (h : i.toNat ≤ 5) : (i + 1#3).toNat = i.toNat + 1 := by
  simp [BitVec.toNat_add]; omega

theorem Engine.Inv.afterAcquire {e : Engine} (h : e.Inv) (hp : e.phase = .acquire) : ({ e with phase := .select } : Engine).Inv := by
  obtain ⟨hb, hd⟩ := h.running (by simp [hp])
  have hcs := h.select_high (by simp [hp, Phase.selectLow])
  have hl := h.latched (by simp [hp])
  constructor <;> simp [hb, hd, hcs, hl, Phase.selectLow, h.clock_positive, h.idx_start (.inl hp)]

theorem Engine.Inv.afterSelect {e : Engine} (h : e.Inv) (hp : e.phase = .select) :
    ({ e with csN := false, phase := .exch } : Engine).Inv := by
  obtain ⟨hb, hd⟩ := h.running (by simp [hp])
  have hl := h.latched (by simp [hp])
  constructor <;> simp [hb, hd, hl, Phase.selectLow, h.clock_positive, h.idx_start (.inr hp)]

theorem Engine.Inv.afterExchange {e : Engine} (h : e.Inv) (hp : e.phase = .exch) (acc : Word) :
    ({ e with rxacc := .val acc, phase := .gap } : Engine).Inv := by
  obtain ⟨hb, hd⟩ := h.running (by simp [hp])
  obtain ⟨hop, ha, hw, -⟩ := h.latched (by simp [hp])
  have hcs : e.csN = false := h.select_iff.mpr (by simp [hp, Phase.selectLow])
  constructor <;>
    simp [hb, hd, hop, ha, hw, hcs, Phase.selectLow, h.clock_positive, h.idx_running (.inl hp), h.idx_small]

theorem Engine.Inv.afterGap {e : Engine} (h : e.Inv) (hp : e.phase = .gap) :
    ({ e with idx := e.idx + 1#3, phase := if e.idx.toNat ≤ 4 then .exch else .deselect } : Engine).Inv := by
  obtain ⟨hb, hd⟩ := h.running (by simp [hp])
  have hl := h.latched (by simp [hp])
  have hcs : e.csN = false := h.select_iff.mpr (by simp [hp, Phase.selectLow])
  have hi := h.idx_running (.inr hp)
  have hs := idx_succ hi
  by_cases h4 : e.idx.toNat ≤ 4
  · simp only [if_pos h4]
    constructor <;> simp only [hb, hd, hl, hcs, hs, Phase.selectLow, h.clock_positive] <;> simp <;> omega
  · simp only [if_neg h4]
    have h6 : e.idx + 1#3 = 6#3 := BitVec.eq_of_toNat_eq (by rw [hs]; simp; omega)
    constructor <;> simp [hb, hd, hl, hcs, h6, Phase.selectLow, h.clock_positive]

theorem Engine.Inv.afterDeselect {e : Engine} (h : e.Inv) (hp : e.phase = .deselect) :
    ({ e with csN := true, phase := .release } : Engine).Inv := by
  obtain ⟨hb, hd⟩ := h.running (by simp [hp])
  have hl := h.latched (by simp [hp])
  constructor <;> simp [hb, hd, hl, Phase.selectLow, h.clock_positive, h.idx_done (.inl hp)]

theorem Engine.Inv.released {e : Engine} (h : e.Inv) (hp : e.phase = .release) (d : Latch 32) : (e.released d).Inv := by
  have hcs := h.select_high (by simp [hp, Phase.selectLow])
  constructor <;> simp [hcs, Phase.selectLow, h.clock_positive, h.idx_small]

/-! ### The device's pointer -/

/-- Select going low starts the frame. -/
theorem sent_zero {n : Node} (h : n.dev.frame = []) : n.Sent 0 := by
  intro op a wd _ _ _
  simp [h]

/-- A byte of the table goes to its place in the frame. -/
theorem sent_succ {n m : Node} {i : Nat} {op : BitVec 3} {a tx : Byte} {wd : Word} (h : n.Sent i)
    (hop : n.eng.op = .val op) (ha : n.eng.addr = .val a) (hwd : n.eng.wdata = .val wd)
    (hop' : m.eng.op = n.eng.op) (ha' : m.eng.addr = n.eng.addr) (hwd' : m.eng.wdata = n.eng.wdata)
    (hf : m.dev.frame = n.dev.frame ++ [tx]) (ht : txByte op a wd i = some tx) : m.Sent (i + 1) := by
  intro op₁ a₁ wd₁ ho hb hw
  obtain rfl : op = op₁ := Latch.val.inj (hop.symm.trans (hop'.symm.trans ho))
  obtain rfl : a = a₁ := Latch.val.inj (ha.symm.trans (ha'.symm.trans hb))
  obtain rfl : wd = wd₁ := Latch.val.inj (hwd.symm.trans (hwd'.symm.trans hw))
  rw [hf, List.map_append, h op a wd hop ha hwd, List.range_succ, List.map_append, List.map_singleton, List.map_singleton, ht]

/-! ### The invariant under each step -/

/-- Outside the select bracket an instance meets the invariant if its engine and its memory do. -/
theorem Node.Inv.of_select_high {n : Node} (he : n.eng.Inv) (hm : n.dev.regs.wf = true)
    (hp : n.eng.phase.selectLow = false) : n.Inv :=
  ⟨he, hm, by rintro (h | h) <;> simp [h, Phase.selectLow] at hp, by intro h; simp [h, Phase.selectLow] at hp⟩

/-- R73 to R78: a step of an instance keeps the invariant. -/
theorem State.Inv.steps {s t : State} {k : Nat} {n : Node} (h : s.Inv) (hn : s.insts[k]? = some n)
    (hs : Steps k n s t) : t.Inv := by
  obtain ⟨he, hmem, hsent, hgap⟩ := h.node hn
  -- the release step frees the bus, which was this instance's
  have release : ∀ d : Latch 32, n.eng.phase = .release →
      (((s.putNode k (n.setEng (n.eng.released d))).own none).emit k .endScope).Inv := by
    intro d hp
    have hown : s.busOwner = some k := (h.owner_iff k n hn).mpr (by simp [hp, Phase.ownsBus])
    refine h.put hn rfl (.of_select_high (he.released hp d) hmem rfl) (by simp [Phase.ownsBus]) fun j hj => ?_
    simp [hown, Ne.symm hj]
  cases hs with
  | acquire hp ho =>
    refine h.put hn rfl (.of_select_high (he.afterAcquire hp) hmem rfl) (by simp [Phase.ownsBus]) fun j hj => ?_
    simp [ho, Ne.symm hj]
  | select hp =>
    refine h.put_same_owner hn rfl rfl ⟨he.afterSelect hp, hmem, fun _ => ?_, nofun⟩ (by simp [hp, Phase.ownsBus])
    have h0 : n.eng.idx.toNat = 0 := by simp [he.idx_start (.inr hp)]
    simp only [h0]
    exact sent_zero rfl
  | exch hp hc op a wd acc role tx hop ha hwd hacc hr ht =>
    refine h.put_same_owner hn rfl rfl ⟨he.afterExchange hp _, exchange_regs_wf k n.dev tx _ hmem, ?_, fun _ => ?_⟩
      (by simp [hp, Phase.ownsBus])
    · rintro (h' | h') <;> cases h'
    · exact sent_succ (hsent (.inl hp)) hop ha hwd rfl rfl rfl (exchange_frame k n.dev tx _) ht
  | gap hp hi =>
    refine h.put_same_owner hn rfl rfl ⟨he.afterGap hp, hmem, fun _ => ?_, fun h' => ?_⟩ ?_
    · have := hgap hp
      rw [← idx_succ hi] at this
      exact this
    · by_cases h4 : n.eng.idx.toNat ≤ 4 <;> simp [h4] at h'
    · by_cases h4 : n.eng.idx.toNat ≤ 4 <;> simp [h4, hp, Phase.ownsBus]
  | deselect hp =>
    exact h.put_same_owner hn rfl rfl (.of_select_high (he.afterDeselect hp) hmem rfl) (by simp [hp, Phase.ownsBus])
  | releaseRead hp op acc hop hrd hacc => exact release _ hp
  | releaseWrite hp op hop hwr => exact release _ hp

/-- R160: the reset of an instance keeps the invariant. -/
theorem State.Inv.afterReset {s : State} {k : Nat} {n : Node} (h : s.Inv) (hn : s.insts[k]? = some n) :
    (s.afterReset k n).Inv := by
  have hmem : (n.deviceAfterReset s.draws).1.regs.wf = true := by
    unfold Node.deviceAfterReset
    split
    · exact aborted_regs_wf _ _ _ (h.node hn).memory
    · exact (h.node hn).memory
  have howner : ∀ j, (s.afterReset k n).busOwner = some j ↔ s.busOwner = some j ∧ j ≠ k := by
    intro j
    by_cases hb : s.busOwner = some k
    · simp [State.afterReset, hb]
      exact fun hj => hj.symm
    · simp only [State.afterReset, if_neg hb]
      exact ⟨fun hj => ⟨hj, fun hjk => hb (hjk ▸ hj)⟩, fun hj => hj.1⟩
  exact h.put hn rfl (.of_select_high (.reset k) hmem rfl) (by simp [howner, Engine.reset, Phase.ownsBus])
    fun j hj => by simp [howner, hj]

/-- The invariant is kept by everything a step can do. -/
theorem stepKeeps_inv : StepKeeps State.Inv where
  begin _ _ _ h := h.congr rfl rfl
  choice s h := h.congr (afterChoice_insts s) (afterChoice_busOwner s)
  steps _ _ _ _ h hn hs := h.steps hn hs
  accept s k n i h hn hi :=
    h.put_same_owner hn rfl rfl (.of_select_high ((h.node hn).eng.accept hi i) (h.node hn).memory rfl)
      (by simp [hi, Phase.ownsBus])
  reject s k n c h hn hi :=
    h.put_same_owner hn rfl rfl
      (.of_select_high ((h.node hn).eng.reject c) (h.node hn).memory (by simp [hi, Phase.selectLow])) rfl
  answer s k n r h hn :=
    have ⟨he, hm, hs, hg⟩ := h.node hn
    h.put_same_owner hn rfl rfl ⟨he, hm, hs, hg⟩ rfl
  write s k n act c h hn hi hw :=
    h.put_same_owner hn rfl rfl
      (.of_select_high ((h.node hn).eng.busCfg (writes_clock hw (h.node hn).eng.clock_positive)) (h.node hn).memory
        (by simp [hi, Phase.selectLow])) rfl
  reset _ _ _ h hn := h.afterReset hn

/-- Settles O49: every kind of step keeps the invariant. -/
theorem everyStepKeepsTheInvariant : Obligations.EveryStepKeepsTheInvariant :=
  fun _ _ h hs => stepKeeps_inv.step h hs

/-! ### At reset, and what the invariant says of select -/

/-- The instances of a reset bus are in their reset state. -/
theorem resetOf_node {c k : Nat} {n : Node} (h : (State.resetOf c).insts[k]? = some n) : n = Node.reset k := by
  rw [resetOf_getElem] at h
  split at h
  · exact (Option.some.inj h).symm
  · cases h

theorem inv_resetOf (c : Nat) : (State.resetOf c).Inv where
  engines k n hn := by rw [resetOf_node hn]; exact .reset k
  owner_iff k n hn := by rw [resetOf_node hn]; simp [State.resetOf, Node.reset, Engine.reset, Phase.ownsBus]
  owner_present k hk := by cases hk
  memories k n hn := reset_regs_wf hn
  frames k n hn := by rw [resetOf_node hn]; simp [Node.reset, Engine.reset]

/-- R89: a reset bus is in the `ResetState` of the launch premises. -/
theorem resetState_resetOf (c : Nat) : (State.resetOf c).ResetState :=
  ⟨rfl, fun k n hn => by rw [resetOf_node hn]; rfl⟩

/-- Settles O48: every instance is in its reset state, the bus is free and the trace empty. -/
theorem resetMeetsTheInvariant : Obligations.ResetMeetsTheInvariant :=
  ⟨fun c => ⟨inv_resetOf c, rfl, resetState_resetOf c⟩, inv_resetOf _, rfl, resetState_resetOf _⟩

/-- Select is low only in phases in which the instance owns the bus. -/
theorem ownsBus_of_selectLow {p : Phase} (h : p.selectLow = true) : p.ownsBus = true := by
  cases p <;> simp_all [Phase.selectLow, Phase.ownsBus]

/-- R29 item 6: an instance whose select is low owns the bus. -/
theorem State.Inv.owner_of_select {s : State} (h : s.Inv) {k : Nat} {n : Node} (hn : s.insts[k]? = some n)
    (hcs : n.eng.csN = false) : s.busOwner = some k :=
  (h.owner_iff k n hn).mpr (ownsBus_of_selectLow ((h.engines k n hn).select_iff.mp hcs))

/-- Settles O50: an instance whose select is low owns the bus, which has one owner. -/
theorem atMostOneSelectIsLow : Obligations.AtMostOneSelectIsLow :=
  fun _ h => ⟨fun _ _ hn hcs => h.owner_of_select hn hcs, fun _ _ _ _ hm hn hcm hcn =>
    Option.some.inj ((h.owner_of_select hm hcm).symm.trans (h.owner_of_select hn hcn))⟩

end Sys2Proof.Machine
end

section
/-! PROOFS. The bus trace is a sequence of non-overlapping transactions (20_memory.md R43, 40_transaction_sequence.md
R79, R80). -/

namespace Sys2Proof.Machine

/-! ### The two monitors -/

theorem runBy_append (next : Wire → Nat × Event → Option Wire) (w : Wire) (es fs : List (Nat × Event)) :
    Wire.runBy next w (es ++ fs) = (Wire.runBy next w es).bind fun v => Wire.runBy next v fs := by
  induction es generalizing w with
  | nil => rfl
  | cons e es ih => simp only [List.cons_append, Wire.runBy, ih, Option.bind_assoc]

theorem runBy_singleton (next : Wire → Nat × Event → Option Wire) (w : Wire) (e : Nat × Event) :
    Wire.runBy next w [e] = next w e := by
  simp [Wire.runBy]

/-- What the monitor of whole transactions accepts, the other accepts. -/
theorem next_of_nextWhole {w v : Wire} {e : Nat × Event} (h : w.nextWhole e = some v) : w.next e = some v := by
  unfold Wire.nextWhole at h
  split at h
  · split at h
    · exact h
    · cases h
  · cases h
  · exact h

theorem run_of_runWhole {w v : Wire} {es : List (Nat × Event)} (h : Wire.runWhole w es = some v) :
    Wire.run w es = some v := by
  induction es generalizing w with
  | nil => exact h
  | cons e es ih =>
    obtain ⟨u, hu, h⟩ := Option.bind_eq_some_iff.mp h
    exact Option.bind_eq_some_iff.mpr ⟨u, next_of_nextWhole hu, ih h⟩

/-! ### Where the wire stands -/

/-- The wire stands by the owner of the bus. -/
theorem State.wire_of_owner {s : State} {k : Nat} {n : Node} (hb : s.busOwner = some k) (hn : s.insts[k]? = some n) :
    s.wire = n.eng.wire k := by
  simp [State.wire, hb, hn]

theorem State.wire_of_free {s : State} (hb : s.busOwner = none) : s.wire = .free := by
  simp [State.wire, hb]

theorem State.wire_congr {s t : State} (hi : t.insts = s.insts) (hb : t.busOwner = s.busOwner) : t.wire = s.wire := by
  simp only [State.wire, hi, hb]

/-- Putting back an instance whose own wire is as it was. -/
theorem State.wire_put {s t : State} {k : Nat} {n m : Node} (hn : s.insts[k]? = some n)
    (hi : t.insts = s.insts.set k m) (hb : t.busOwner = s.busOwner) (hw : m.eng.wire k = n.eng.wire k) :
    t.wire = s.wire := by
  cases hs : s.busOwner with
  | none => rw [State.wire_of_free hs, State.wire_of_free (hb.trans hs)]
  | some j =>
    by_cases hj : j = k
    · subst hj
      rw [State.wire_of_owner hs hn, State.wire_of_owner (hb.trans hs) (by rw [hi]; exact getElem_set_self hn), hw]
    · simp only [State.wire, hb, hs, hi, getElem_set_other m hj]

/-! ### What is added to the trace -/

/-- From `s` to `t` the trace has grown by events of whole transactions, which take the wire from where it stood to where it
stands. -/
def State.Grows (s t : State) : Prop :=
  ∃ es : List (Nat × Event), t.trace = s.trace ++ es ∧ Wire.runWhole s.wire es = some t.wire

theorem State.Grows.of_same {s t : State} (ht : t.trace = s.trace) (hw : t.wire = s.wire) : s.Grows t :=
  ⟨[], by simp [ht], by rw [hw]; rfl⟩

theorem State.Grows.of_event {s t : State} {e : Nat × Event} (ht : t.trace = s.trace ++ [e])
    (hw : s.wire.nextWhole e = some t.wire) : s.Grows t :=
  ⟨[e], ht, (runBy_singleton _ _ _).trans hw⟩

theorem State.Grows.trans {s t u : State} (h : s.Grows t) (h' : t.Grows u) : s.Grows u := by
  obtain ⟨es, ht, hw⟩ := h
  obtain ⟨fs, ht', hw'⟩ := h'
  refine ⟨es ++ fs, by rw [ht', ht, List.append_assoc], ?_⟩
  rw [Wire.runWhole, runBy_append]
  exact Option.bind_eq_some_iff.mpr ⟨_, hw, hw'⟩

/-- A serialised trace stays serialised under events the monitor accepts. -/
theorem State.Serialised.append {s t : State} {es : List (Nat × Event)} (h : s.Serialised) (ht : t.trace = s.trace ++ es)
    (hw : Wire.run s.wire es = some t.wire) : t.Serialised := by
  unfold State.Serialised
  rw [ht, Wire.run, runBy_append]
  exact Option.bind_eq_some_iff.mpr ⟨_, h, hw⟩

/-- A step of an instance adds the next event of the one sequence. -/
theorem State.Inv.grows {s t : State} {k : Nat} {n : Node} (h : s.Inv) (hn : s.insts[k]? = some n) (hs : Steps k n s t) :
    s.Grows t := by
  have he := h.engines k n hn
  have hk := (List.getElem?_eq_some_iff.mp hn).1
  -- the wire before the step, of an instance that owns the bus
  have before : n.eng.phase.ownsBus = true → s.busOwner = some k ∧ s.wire = n.eng.wire k := fun hp =>
    have hb := (h.owner_iff k n hn).mpr hp
    ⟨hb, State.wire_of_owner hb hn⟩
  -- the wire after a step that does not free the bus
  have after : ∀ m : Node, t.insts = s.insts.set k m → t.busOwner = some k → t.wire = m.eng.wire k := fun m hi hb =>
    State.wire_of_owner hb (by rw [hi]; exact getElem_set_self hn)
  cases hs with
  | acquire hp ho =>
    refine .of_event rfl ?_
    rw [State.wire_of_free ho, after _ rfl rfl]
    rfl
  | select hp =>
    obtain ⟨hb, hw⟩ := before (by simp [hp, Phase.ownsBus])
    refine .of_event rfl ?_
    rw [hw, after _ rfl hb]
    simp [Engine.wire, hp, Wire.nextWhole, Wire.next, he.idx_start (.inr hp)]
  | exch hp hc op a wd acc role tx hop ha hwd hacc hr ht =>
    obtain ⟨hb, hw⟩ := before (by simp [hp, Phase.ownsBus])
    refine .of_event rfl ?_
    rw [hw, after _ rfl hb]
    simp [Engine.wire, hp, Wire.nextWhole, Wire.next, he.idx_running (.inl hp)]
  | gap hp hi =>
    obtain ⟨hb, hw⟩ := before (by simp [hp, Phase.ownsBus])
    refine .of_event rfl ?_
    rw [hw, after _ rfl hb]
    by_cases h4 : n.eng.idx.toNat ≤ 4 <;> simp only [setEng_eng, Engine.wire, hp, h4, idx_succ hi] <;>
      simp [Wire.nextWhole, Wire.next]
  | deselect hp =>
    obtain ⟨hb, hw⟩ := before (by simp [hp, Phase.ownsBus])
    refine .of_event rfl ?_
    rw [hw, after _ rfl hb]
    simp [Engine.wire, hp, Wire.nextWhole, Wire.next, he.idx_done (.inl hp), frameLen]
  | releaseRead hp op acc hop hrd hacc =>
    obtain ⟨-, hw⟩ := before (by simp [hp, Phase.ownsBus])
    refine .of_event rfl ?_
    rw [hw, State.wire_of_free rfl]
    simp [Engine.wire, hp, Wire.nextWhole, Wire.next]
  | releaseWrite hp op hop hwr =>
    obtain ⟨-, hw⟩ := before (by simp [hp, Phase.ownsBus])
    refine .of_event rfl ?_
    rw [hw, State.wire_of_free rfl]
    simp [Engine.wire, hp, Wire.nextWhole, Wire.next]

/-- Every step but a reset adds events of whole transactions. -/
theorem movesKeep_grows (s : State) : MovesKeep fun t => t.Inv ∧ s.Grows t where
  begin _ _ _ h := ⟨stepKeeps_inv.begin _ _ _ h.1, h.2.trans (.of_same rfl rfl)⟩
  choice t h :=
    ⟨stepKeeps_inv.choice _ h.1,
      h.2.trans (.of_same (afterChoice_trace t) (State.wire_congr (afterChoice_insts t) (afterChoice_busOwner t)))⟩
  steps _ _ _ _ h hn hs := ⟨h.1.steps hn hs, h.2.trans (h.1.grows hn hs)⟩
  accept _ _ _ _ h hn hi :=
    ⟨stepKeeps_inv.accept _ _ _ _ h.1 hn hi,
      h.2.trans (.of_same rfl (State.wire_put hn rfl rfl (by simp [Engine.wire, hi])))⟩
  reject _ _ _ _ h hn hi :=
    ⟨stepKeeps_inv.reject _ _ _ _ h.1 hn hi, h.2.trans (.of_same rfl (State.wire_put hn rfl rfl rfl))⟩
  answer _ _ _ _ h hn := ⟨stepKeeps_inv.answer _ _ _ _ h.1 hn, h.2.trans (.of_same rfl (State.wire_put hn rfl rfl rfl))⟩
  write _ _ _ _ _ h hn hi hw :=
    ⟨stepKeeps_inv.write _ _ _ _ _ h.1 hn hi hw, h.2.trans (.of_same rfl (State.wire_put hn rfl rfl rfl))⟩

/-- R160: the events of a reset close what is open. -/
theorem State.Inv.run_resetEvents {s : State} {k : Nat} {n : Node} (h : s.Inv) (hn : s.insts[k]? = some n) :
    Wire.run s.wire (resetEvents k n s) = some (s.afterReset k n).wire := by
  have hsel := (h.engines k n hn).select_iff
  by_cases hb : s.busOwner = some k
  · -- the owner of the bus: select goes high if it was low, and the scope is closed
    have hp := (h.owner_iff k n hn).mp hb
    rw [State.wire_of_free (s := s.afterReset k n) (by simp [State.afterReset, hb]), State.wire_of_owner hb hn]
    simp only [resetEvents, if_pos hb]
    cases hph : n.eng.phase <;> simp only [hph, Phase.selectLow, Phase.ownsBus, reduceCtorEq, iff_true, iff_false,
      Bool.not_eq_false] at hp hsel <;> simp [hsel, Engine.wire, hph, Wire.run, Wire.runBy, Wire.next]
  · -- any other instance has its select high, and nothing is to close
    have hcs : n.eng.csN = true := by
      by_contra hcs
      exact hb (h.owner_of_select hn (by simpa using hcs))
    have hw : (s.afterReset k n).wire = s.wire := by
      cases hs : s.busOwner with
      | none => rw [State.wire_of_free hs, State.wire_of_free (by simp [State.afterReset, hs])]
      | some j =>
        have hj : j ≠ k := fun hjk => hb (hjk ▸ hs)
        simp [State.wire, State.afterReset, hs, hj, Ne.symm hj]
    simp [hw, resetEvents, hcs, hb, Wire.run, Wire.runBy]

/-- Settles O51: by `movesKeep_grows` every step but a reset adds events of whole transactions, and a reset closes what is
open. -/
theorem everyStepKeepsTheBusSerialised : Obligations.EveryStepKeepsTheBusSerialised := by
  intro s t hinv hser hstep
  obtain ⟨-, hg⟩ | ⟨k, rest, n, ha, hn, rfl⟩ := (movesKeep_grows s).step ⟨hinv, .of_same rfl rfl⟩ hstep
  · have ⟨es, ht, hw⟩ := hg
    exact ⟨hser.append ht (run_of_runWhole hw), fun _ => hg⟩
  · have hb : (s.begin ⟨k, .reset⟩ rest).Inv := stepKeeps_inv.begin _ _ _ hinv
    have hs : (s.begin ⟨k, .reset⟩ rest).Serialised := hser
    exact ⟨hs.append rfl (hb.run_resetEvents hn), fun h => absurd ha (h k rest)⟩

end Sys2Proof.Machine
end

section
/-! PROOFS. What a step of an instance, a blocking call and a step of the bus leave of an instance. -/

namespace Sys2Proof.Machine

/-! ### One instance is touched -/

/-- From `s` to `t` no instance but `k` has changed, and instance `k` has changed as `R` allows. -/
structure State.Touches (R : Node → Node → Prop) (k : Nat) (s t : State) : Prop where
  length : t.insts.length = s.insts.length
  other : ∀ j, j ≠ k → t.insts[j]? = s.insts[j]?
  here : ∀ n, s.insts[k]? = some n → ∃ m, t.insts[k]? = some m ∧ R n m

section Touches
variable {R R' : Node → Node → Prop} {k : Nat} {s t u : State} {n m : Node}

theorem State.Touches.of_same (hR : ∀ n, R n n) (h : t.insts = s.insts) : s.Touches R k t :=
  ⟨by rw [h], fun _ _ => by rw [h], fun n hn => ⟨n, by rw [h, hn], hR n⟩⟩

theorem State.Touches.of_put (hn : s.insts[k]? = some n) (hi : t.insts = s.insts.set k m) (hR : R n m) :
    s.Touches R k t :=
  ⟨by rw [hi, List.length_set], fun j hj => by rw [hi, getElem_set_other m hj], fun n' hn' =>
    ⟨m, by rw [hi]; exact getElem_set_self hn, Option.some.inj (hn.symm.trans hn') ▸ hR⟩⟩

theorem State.Touches.trans (hR : ∀ {a b c}, R a b → R b c → R a c) (h : s.Touches R k t) (h' : t.Touches R k u) :
    s.Touches R k u where
  length := h'.length.trans h.length
  other j hj := (h'.other j hj).trans (h.other j hj)
  here a ha := by
    obtain ⟨b, hb, hab⟩ := h.here a ha
    obtain ⟨c, hc, hbc⟩ := h'.here b hb
    exact ⟨c, hc, hR hab hbc⟩

theorem State.Touches.mono (hR : ∀ a b, R a b → R' a b) (h : s.Touches R k t) : s.Touches R' k t :=
  ⟨h.length, h.other, fun a ha => (h.here a ha).imp fun b hb => ⟨hb.1, hR a b hb.2⟩⟩

/-- How two looks at instance `k` are related. -/
theorem State.Touches.rel (h : s.Touches R k t) (hn : s.insts[k]? = some n) (hm : t.insts[k]? = some m) : R n m := by
  obtain ⟨m', hm', hR⟩ := h.here n hn
  exact Option.some.inj (hm'.symm.trans hm) ▸ hR

/-- Any instance is as it was or is the one touched. -/
theorem State.Touches.look (h : s.Touches R k t) {j : Nat} (hn : s.insts[j]? = some n) (hm : t.insts[j]? = some m) :
    m = n ∨ j = k ∧ R n m := by
  by_cases hj : j = k
  · subst hj
    exact .inr ⟨rfl, h.rel hn hm⟩
  · rw [h.other j hj, hn] at hm
    exact .inl (Option.some.inj hm).symm

end Touches

/-! ### What an instance's own steps keep of it -/

/-- What no step of an instance changes: the latched command, `ERR` and `CAUSE`, `BUSCFG`, what its host knows, and which
device it has. -/
structure Node.Kept (n m : Node) : Prop where
  op : m.eng.op = n.eng.op
  addr : m.eng.addr = n.eng.addr
  wdata : m.eng.wdata = n.eng.wdata
  err : m.eng.err = n.eng.err
  cause : m.eng.cause = n.eng.cause
  busCfg : m.eng.busCfg = n.eng.busCfg
  verdict : m.verdict = n.verdict
  replies : m.replies = n.replies
  reference : m.dev.reference = n.dev.reference
  fwId : m.dev.fwId = n.dev.fwId

theorem Node.Kept.refl (n : Node) : n.Kept n := ⟨rfl, rfl, rfl, rfl, rfl, rfl, rfl, rfl, rfl, rfl⟩

/-- The function bits are those of a read. -/
def isReadOp (op : BitVec 3) : Prop := op = 0b000#3 ∨ op = 0b010#3 ∨ op = 0b110#3

/-- A read of this instance has just been delivered. -/
def Node.Delivered (m : Node) : Prop :=
  m.eng.phase = .idle ∧ m.eng.done = true ∧ ∃ op : BitVec 3, isReadOp op ∧ m.eng.op = .val op

/-- What any number of an instance's own steps do to it: it is kept, an idle one takes no step, and its `RDATA` is as before
or a read has been delivered. -/
structure Node.Runs (n m : Node) : Prop where
  kept : n.Kept m
  idle : n.eng.phase = .idle → m = n
  rdata : m.eng.rdata = n.eng.rdata ∨ m.Delivered

theorem Node.Runs.refl (n : Node) : n.Runs n := ⟨.refl n, fun _ => rfl, .inl rfl⟩

theorem Node.Runs.trans {n m p : Node} (h : n.Runs m) (h' : m.Runs p) : n.Runs p where
  kept := ⟨h'.kept.op.trans h.kept.op, h'.kept.addr.trans h.kept.addr, h'.kept.wdata.trans h.kept.wdata,
    h'.kept.err.trans h.kept.err, h'.kept.cause.trans h.kept.cause, h'.kept.busCfg.trans h.kept.busCfg,
    h'.kept.verdict.trans h.kept.verdict, h'.kept.replies.trans h.kept.replies,
    h'.kept.reference.trans h.kept.reference, h'.kept.fwId.trans h.kept.fwId⟩
  idle hi := by
    obtain rfl := h.idle hi
    exact h'.idle hi
  rdata := by
    rcases h'.rdata with hp | hp
    · rcases h.rdata with hm | hm
      · exact .inl (hp.trans hm)
      · obtain rfl := h'.idle hm.1
        exact .inr hm
    · exact .inr hp

/-- What one of an instance's own steps does to it: its `RDATA` changes in the release step alone. -/
structure Node.Ticks (n m : Node) : Prop where
  runs : n.Runs m
  release : m.eng.rdata ≠ n.eng.rdata → n.eng.phase = .release

theorem Node.Ticks.refl (n : Node) : n.Ticks n := ⟨.refl n, fun h => absurd rfl h⟩

/-- What one step of R73 to R78 does to its instance. -/
theorem steps_put {s t : State} {k : Nat} {n : Node} (h : Steps k n s t) :
    ∃ m, t.insts = s.insts.set k m ∧ n.Ticks m := by
  have keep : ∀ {m : Node}, n.Kept m → n.eng.phase ≠ .idle → m.eng.rdata = n.eng.rdata → n.Ticks m :=
    fun hk hp hr => ⟨⟨hk, fun h => absurd h hp, .inl hr⟩, fun h => absurd hr h⟩
  cases h with
  | acquire hp => exact ⟨_, rfl, keep (by constructor <;> rfl) (by simp [hp]) rfl⟩
  | select hp => exact ⟨_, rfl, keep (by constructor <;> rfl) (by simp [hp]) rfl⟩
  | exch hp =>
    exact ⟨_, rfl, keep ⟨rfl, rfl, rfl, rfl, rfl, rfl, rfl, rfl, exchange_reference .., exchange_fwId ..⟩ (by simp [hp]) rfl⟩
  | gap hp => exact ⟨_, rfl, keep (by constructor <;> rfl) (by simp [hp]) rfl⟩
  | deselect hp => exact ⟨_, rfl, keep (by constructor <;> rfl) (by simp [hp]) rfl⟩
  | releaseRead hp op acc hop hrd =>
    exact ⟨_, rfl, ⟨by constructor <;> rfl, fun h => by simp [hp] at h, .inr ⟨rfl, rfl, op, hrd, hop⟩⟩, fun _ => hp⟩
  | releaseWrite hp => exact ⟨_, rfl, keep (by constructor <;> rfl) (by simp [hp]) rfl⟩

theorem tick_touches {k : Nat} {s t : State} (h : tick k s = .next t) : s.Touches Node.Ticks k t := by
  obtain ⟨n, hn, (⟨-, rfl⟩ | hs)⟩ := tick_next h
  · exact .of_same .refl rfl
  · obtain ⟨m, hi, hR⟩ := steps_put hs
    exact .of_put hn hi hR

theorem ticks_touches {k m : Nat} {s t : State} (h : ticks k m s = .next t) : s.Touches Node.Runs k t :=
  ticks_keep (P := fun u => s.Touches Node.Runs k u)
    (fun _ _ hu ht => hu.trans .trans ((tick_touches ht).mono fun _ _ => Node.Ticks.runs)) m
    (.of_same .refl rfl) h

/-- The passing of time concerns the instance whose turn it is. -/
theorem advance_touches {s t : State} (h : advance s = .next t) :
    (s.turn.1 = none ∧ t.insts = s.insts) ∨ ∃ k, s.turn.1 = some k ∧ s.Touches Node.Ticks k t := by
  obtain ⟨u, hu, h⟩ := advance_next h
  have hi : u.insts = s.insts := by rcases hu with rfl | rfl <;> simp
  rcases h with ⟨ht, rfl⟩ | ⟨k, ht, h⟩
  · exact .inl ⟨ht, hi⟩
  · obtain ⟨hl, ho, hh⟩ := tick_touches h
    rw [hi] at hl ho hh
    exact .inr ⟨k, ht, hl, ho, hh⟩

/-- The passing of time leaves the agenda and the port. -/
theorem advance_agenda_port {s t : State} (h : advance s = .next t) : t.agenda = s.agenda ∧ t.port = s.port := by
  obtain ⟨u, hu, h⟩ := advance_next h
  have hi : u.agenda = s.agenda ∧ u.port = s.port := by rcases hu with rfl | rfl <;> simp
  rcases h with ⟨-, rfl⟩ | ⟨k, -, h⟩
  · exact hi
  · obtain ⟨ha, hp⟩ := tick_agenda_port h
    exact ⟨ha.trans hi.1, hp.trans hi.2⟩

/-! ### What a blocking call does to its instance -/

/-- The instance after the accept step. -/
def Node.accepted (n : Node) (o : Order) : Node := { n with eng := n.eng.accept o, verdict := some .accepted }

/-- The instance after a rejection. -/
def Node.rejected (n : Node) (c : Cause) : Node := { n with eng := n.eng.reject c, verdict := some .rejected }

/-- What a submit or a call of a command does to its instance: its host is held, the command is rejected, or it is accepted
and what follows is as `R` says. -/
inductive Node.Takes (R : Node → Node → Prop) (o : Order) (n m : Node) : Prop where
  | held (hb : n.eng.phase ≠ .idle) (h : m = n)
  | rejected (hi : n.eng.phase = .idle) (hc : o.cause ≠ .none) (h : m = n.rejected o.cause)
  | accepted (hi : n.eng.phase = .idle) (hc : o.cause = .none) (h : R (n.accepted o) m)

theorem submit_touches {k : Nat} {o : Order} {s t : State} (h : submit k o s = .next t) : s.Touches (Node.Takes Eq o) k t := by
  obtain ⟨n, hn, h⟩ := submit_next h
  rcases h with ⟨hi, hc, rfl⟩ | ⟨hi, hc, rfl⟩ | ⟨hb, rfl⟩
  · exact .of_put hn rfl (.accepted hi hc rfl)
  · exact .of_put hn rfl (.rejected hi hc rfl)
  · exact ⟨rfl, fun _ _ => rfl, fun n' hn' => ⟨n', hn', .held (Option.some.inj (hn.symm.trans hn') ▸ hb) rfl⟩⟩

theorem callCommand_touches {o : Order} {s t : State} (h : callCommand o s = .next t) :
    s.Touches (Node.Takes Node.Runs o) s.port t := by
  obtain ⟨n, hn, h⟩ := callCommand_next h
  rcases h with ⟨hb, rfl⟩ | ⟨hi, hc, rfl⟩ | ⟨hi, hc, h⟩
  · exact ⟨rfl, fun _ _ => rfl, fun n' hn' => ⟨n', hn', .held (Option.some.inj (hn.symm.trans hn') ▸ hb) rfl⟩⟩
  · exact .of_put hn rfl (.rejected hi hc rfl)
  · obtain ⟨hl, ho, hh⟩ := ticks_touches h
    have hput : (s.accept s.port n o).insts = s.insts.set s.port (n.accepted o) := rfl
    refine ⟨hl.trans (by rw [hput, List.length_set]), fun j hj => (ho j hj).trans (by rw [hput, getElem_set_other _ hj]),
      fun n' hn' => ?_⟩
    obtain rfl : n = n' := Option.some.inj (hn.symm.trans hn')
    obtain ⟨m, hm, hR⟩ := hh (n.accepted o) (by rw [hput]; exact getElem_set_self hn)
    exact ⟨m, hm, .accepted hi hc hR⟩

theorem exec_touches {i : Instr} {s t : State} (h : exec i s = .next t) :
    s.Touches (Node.Takes Node.Runs (commandOrder i)) s.port t := by
  rw [exec_eq_callCommand] at h
  exact callCommand_touches h

/-- A blocking call leaves the agenda, the port and the arbiter's choices to come. -/
theorem exec_frame {i : Instr} {s t : State} (h : exec i s = .next t) :
    t.agenda = s.agenda ∧ t.port = s.port ∧ t.choices = s.choices ∧ t.chosen = s.chosen := by
  rw [exec_eq_callCommand] at h
  obtain ⟨n, -, h⟩ := callCommand_next h
  rcases h with ⟨-, rfl⟩ | ⟨-, -, rfl⟩ | ⟨-, -, h⟩
  · exact ⟨rfl, rfl, rfl, rfl⟩
  · exact ⟨rfl, rfl, rfl, rfl⟩
  · refine ticks_keep (s := s.accept s.port n (commandOrder i))
      (P := fun u => u.agenda = s.agenda ∧ u.port = s.port ∧ u.choices = s.choices ∧ u.chosen = s.chosen)
      (fun u v hu hv => ?_) _ ⟨rfl, rfl, rfl, rfl⟩ h
    obtain ⟨ha, hp⟩ := tick_agenda_port hv
    obtain ⟨hc, hd⟩ := tick_choices hv
    obtain ⟨h1, h2, h3, h4⟩ := hu
    exact ⟨ha.trans h1, hp.trans h2, hc.trans h3, hd.trans h4⟩

/-! ### What one step of the bus does to an instance -/

/-- What one step of the bus can do to an instance that it concerns, by the move it makes. -/
inductive Node.Changes (s : State) (k : Nat) (n m : Node) : Prop where
  | ticks (h : n.Ticks m)
  | call (cw : CommandWord) (rest : List Move) (i : Instr) (ha : s.agenda = ⟨k, .call cw⟩ :: rest)
      (hi : n.eng.phase = .idle) (hd : decode cw = .ok i) (h : n.Takes Node.Runs (commandOrder i) m)
  | submit (cw : CommandWord) (rest : List Move) (i : Instr) (ha : s.agenda = ⟨k, .submit cw⟩ :: rest)
      (hi : n.eng.phase = .idle) (hd : decode cw = .ok i) (h : n.Takes Eq (commandOrder i) m)
  | illegal (hi : n.eng.phase = .idle) (h : m = n.rejected .illegalFunc)
  | reset (rest : List Move) (ha : s.agenda = ⟨k, .reset⟩ :: rest)
      (h : m = { n with eng := Engine.reset k, dev := (n.deviceAfterReset s.draws).1 })
  | read (r : Reply) (h : m = { n with replies := n.replies ++ [r] })
  | write (act : Act) (rest : List Move) (c : BusCfg) (ha : s.agenda = ⟨k, act⟩ :: rest) (hi : n.eng.phase = .idle)
      (hw : act.writes n.eng.busCfg c) (h : m = n.setEng { n.eng with busCfg := c })

/-- R153: a step of the bus concerns one instance, `State.mover`, or none. -/
theorem step_touches {s t : State} (h : step s = .next t) :
    (s.mover = none ∧ t.insts = s.insts) ∨ ∃ k, s.mover = some k ∧ s.Touches (Node.Changes s k) k t := by
  cases step_next h with
  | wait h hk why =>
    rw [hk]
    refine (advance_touches h).imp_right ?_
    rintro ⟨k, ht, hs⟩
    exact ⟨k, ht, hs.mono fun _ _ => .ticks⟩
  | run k cw rest n i ha hn hi hd h =>
    obtain ⟨hl, ho, hh⟩ := exec_touches h
    refine .inr ⟨k, mover_of_idle ha hn hi, hl, ho, fun n' hn' => ?_⟩
    obtain rfl : n = n' := Option.some.inj (hn.symm.trans hn')
    exact (hh n hn).imp fun m hm => ⟨hm.1, .call cw rest i ha hi hd hm.2⟩
  | submit k cw rest n i ha hn hi hd h =>
    obtain ⟨hl, ho, hh⟩ := submit_touches h
    refine .inr ⟨k, mover_of_idle ha hn hi, hl, ho, fun n' hn' => ?_⟩
    obtain rfl : n = n' := Option.some.inj (hn.symm.trans hn')
    exact (hh n hn).imp fun m hm => ⟨hm.1, .submit cw rest i ha hi hd hm.2⟩
  | illegal k act rest n ha hact hn hi h =>
    subst h
    exact .inr ⟨k, mover_of_idle ha hn hi, .of_put hn rfl (.illegal hi rfl)⟩
  | tick k rest ha h =>
    obtain ⟨hl, ho, hh⟩ := tick_touches h
    exact .inr ⟨k, mover_of_not_held ha rfl, hl, ho, fun n hn => (hh n hn).imp fun m hm => ⟨hm.1, .ticks hm.2⟩⟩
  | reset k rest n ha hn h =>
    subst h
    exact .inr ⟨k, mover_of_not_held ha rfl, .of_put hn rfl (.reset rest ha rfl)⟩
  | read k act rest n r ha hr hk hn h =>
    subst h
    exact .inr ⟨k, hk, .of_put hn rfl (.read r rfl)⟩
  | write k act rest n c ha hw hn hi h =>
    subst h
    exact .inr ⟨k, mover_of_idle ha hn hi, .of_put hn rfl (.write act rest c ha hi hw rfl)⟩

/-- An instance is as it was after a step, or the step was its own. -/
theorem step_look {s t : State} {k : Nat} {n m : Node} (h : step s = .next t) (hn : s.insts[k]? = some n)
    (hm : t.insts[k]? = some m) : m = n ∨ s.mover = some k ∧ n.Changes s k m := by
  rcases step_touches h with ⟨-, hi⟩ | ⟨j, hj, ht⟩
  · rw [hi, hn] at hm
    exact .inl (Option.some.inj hm).symm
  · refine (ht.look hn hm).imp_right ?_
    rintro ⟨rfl, hc⟩
    exact ⟨hj, hc⟩

/-- Settles O56: by `step_touches` a step concerns `State.mover` or nobody. -/
theorem aStepConcernsOneInstance : Obligations.AStepConcernsOneInstance := by
  intro s t h
  rcases step_touches h with ⟨-, hi⟩ | ⟨k, hk, ht⟩
  · exact ⟨by rw [hi], fun j _ => by rw [hi]⟩
  · exact ⟨ht.length, fun j hj => ht.other j fun hjk => hj (hjk ▸ hk)⟩

/-! ### `ERR`, `BUSCFG`, `RDATA` and the trace -/

/-- Settles O53: a command keeps `ERR` or sets it, a host's read or write keeps it, so the step was the reset. -/
theorem onlyResetClearsErr : Obligations.OnlyResetClearsErr := by
  intro s t k n m h hn hm hset hclear
  have keep : m.eng.err ≠ n.eng.err := by simp [hset, hclear]
  rcases step_look h hn hm with rfl | ⟨-, hc⟩
  · exact absurd rfl keep
  cases hc with
  | ticks hr => exact absurd hr.runs.kept.err keep
  | call cw rest i ha hi hd ht =>
    rcases ht with ⟨-, rfl⟩ | ⟨-, -, rfl⟩ | ⟨-, -, hr⟩
    · exact absurd rfl keep
    · cases hclear
    · exact absurd hr.kept.err keep
  | submit cw rest i ha hi hd ht =>
    rcases ht with ⟨-, rfl⟩ | ⟨-, -, rfl⟩ | ⟨-, -, rfl⟩
    · exact absurd rfl keep
    · cases hclear
    · exact absurd rfl keep
  | illegal hi h => subst h; cases hclear
  | reset rest ha h => exact ⟨rest, ha⟩
  | read r h => subst h; exact absurd rfl keep
  | write act rest c ha hi hw h => subst h; exact absurd rfl keep

/-- The host's writes of `BUSCFG` are these three acts. -/
theorem act_of_writes {act : Act} {c c' : BusCfg} (h : act.writes c c') :
    (∃ hz, act = .writeClkHz hz) ∨ (∃ b, act = .writeCpol b) ∨ (∃ b, act = .writeCpha b) := by
  cases act with
  | writeClkHz hz => exact .inl ⟨hz, rfl⟩
  | writeCpol b => exact .inr (.inl ⟨b, rfl⟩)
  | writeCpha b => exact .inr (.inr ⟨b, rfl⟩)
  | _ => exact h.elim

/-- Settles O55: every other step keeps `BUSCFG`. -/
theorem busCfgChangesOnlyByItsHost : Obligations.BusCfgChangesOnlyByItsHost := by
  intro s t k n m h hn hm hne
  rcases step_look h hn hm with rfl | ⟨-, hc⟩
  · exact absurd rfl hne
  cases hc with
  | ticks hr => exact absurd hr.runs.kept.busCfg hne
  | call cw rest i ha hi hd ht =>
    rcases ht with ⟨-, rfl⟩ | ⟨-, -, rfl⟩ | ⟨-, -, hr⟩
    · exact absurd rfl hne
    · exact absurd rfl hne
    · exact absurd hr.kept.busCfg hne
  | submit cw rest i ha hi hd ht => rcases ht with ⟨-, rfl⟩ | ⟨-, -, rfl⟩ | ⟨-, -, rfl⟩ <;> exact absurd rfl hne
  | illegal hi h => subst h; exact absurd rfl hne
  | reset rest ha h => exact ⟨.reset, rest, ha, .inl rfl⟩
  | read r h => subst h; exact absurd rfl hne
  | write act rest c ha hi hw h => exact ⟨act, rest, ha, .inr ⟨hi, act_of_writes hw⟩⟩

/-- The commands with a read's function bits are the reads. -/
theorem read_of_isReadOp {i : Instr} (h : isReadOp (commandOrder i).op) : ∃ a : Byte, i = .rd32 a ∨ i = .rd16h a ∨ i = .rd16l a := by
  cases i with
  | rd32 a => exact ⟨a, .inl rfl⟩
  | wr32 a v => exact absurd h (by simp [isReadOp, commandOrder, orderWr32])
  | rd16h a => exact ⟨a, .inr (.inl rfl)⟩
  | wrcmd a => exact absurd h (by simp [isReadOp, commandOrder, orderWrcmd])
  | rd16l a => exact ⟨a, .inr (.inr rfl)⟩

/-- Settles O54: an instance's own steps deliver only in the release step, and a call that delivers has a read's `OP`. -/
theorem rdataChangesOnlyWhenAReadCompletes : Obligations.RdataChangesOnlyWhenAReadCompletes := by
  intro s t k n m h hn hm hne
  rcases step_look h hn hm with rfl | ⟨-, hc⟩
  · exact absurd rfl hne
  cases hc with
  | ticks hr =>
    obtain ⟨hidle, hdone, op, hread, hop⟩ := hr.runs.rdata.resolve_left hne
    exact .inr ⟨hidle, hdone, op, hread, hop, .inl ⟨hr.release hne, hr.runs.kept.op.symm.trans hop⟩⟩
  | call cw rest i ha hi hd ht =>
    rcases ht with ⟨-, rfl⟩ | ⟨-, -, rfl⟩ | ⟨-, hcause, hr⟩
    · exact absurd rfl hne
    · exact absurd rfl hne
    · obtain ⟨hidle, hdone, op, hread, hop⟩ := hr.rdata.resolve_left hne
      obtain rfl : (commandOrder i).op = op := Latch.val.inj (hr.kept.op.symm.trans hop)
      exact .inr ⟨hidle, hdone, _, hread, hop,
        .inr ⟨hi, cw, rest, i, ha, hd, (cause_eq_none_iff i).mp hcause, read_of_isReadOp hread⟩⟩
  | submit cw rest i ha hi hd ht => rcases ht with ⟨-, rfl⟩ | ⟨-, -, rfl⟩ | ⟨-, -, rfl⟩ <;> exact absurd rfl hne
  | illegal hi h => subst h; exact absurd rfl hne
  | reset rest ha h => exact .inl ⟨rest, ha⟩
  | read r h => subst h; exact absurd rfl hne
  | write act rest c ha hi hw h => subst h; exact absurd rfl hne

/-- R25: every kind of step keeps what the trace holds. -/
theorem stepKeeps_trace (s : State) : StepKeeps fun t => s.trace <+: t.trace where
  begin _ _ _ h := h
  choice t h := by rwa [afterChoice_trace]
  steps _ _ _ _ h _ hs := by cases hs <;> exact h.trans (List.prefix_append _ _)
  accept _ _ _ _ h _ _ := h
  reject _ _ _ _ h _ _ := h
  answer _ _ _ _ h _ := h
  write _ _ _ _ _ h _ _ _ := h
  reset _ _ _ h _ := h.trans (List.prefix_append _ _)

/-- Settles O57. -/
theorem theTraceOnlyGrows : Obligations.TheTraceOnlyGrows :=
  fun s _ h => (stepKeeps_trace s).step (List.prefix_refl _) h

/-- Settles O25: the steps of R73 to R78 go from one phase to the next, and every other tick waits. -/
theorem phasesFollowTheOneSequence : Obligations.PhasesFollowTheOneSequence := by
  intro s t k h
  obtain ⟨n, hn, ⟨-, rfl⟩ | hs⟩ := tick_next h
  · exact ⟨n, hn, .inl rfl⟩
  refine ⟨n, hn, .inr ?_⟩
  cases hs with
  | acquire hp => exact ⟨_, getElem_set_self hn, by simp [hp]⟩
  | select hp => exact ⟨_, getElem_set_self hn, by simp [hp]⟩
  | exch hp => exact ⟨_, getElem_set_self hn, by simp [hp]⟩
  | gap hp =>
    refine ⟨_, getElem_set_self hn, ?_⟩
    by_cases h4 : n.eng.idx.toNat ≤ 4 <;> simp [hp, h4]
  | deselect hp => exact ⟨_, getElem_set_self hn, by simp [hp]⟩
  | releaseRead hp => exact ⟨_, getElem_set_self hn, by simp [hp]⟩
  | releaseWrite hp => exact ⟨_, getElem_set_self hn, by simp [hp]⟩

end Sys2Proof.Machine
end

section
/-! PROOFS. The single moves of the bus: accept, the steps of an instance, reset, and the host's reads and writes. -/

namespace Sys2Proof.Machine

/-! ### Submit and call -/

/-- Settles O12. -/
theorem stepRunsTheDecodedCommand : Obligations.StepRunsTheDecodedCommand :=
  fun _ _ _ _ _ _ ha hn hi hd => step_of_call ha hn hi hd

/-- The low three bits of the function code are the function bits. -/
theorem funcBits_eq (cw : CommandWord) : cw.extractLsb' 40 3 = (funcField cw).extractLsb' 0 3 := by
  apply BitVec.eq_of_getLsbD_eq
  intro i hi
  have h8 : i < 8 := by omega
  simp [funcField, hi, h8]

/-- R72: what the accept step latches of a command is what its word holds. -/
theorem commandOrder_of_decode {cw : CommandWord} {i : Instr} (h : decode cw = .ok i) :
    (commandOrder i).op = cw.extractLsb' 40 3 ∧ (commandOrder i).addr = addrField cw ∧
      (commandOrder i).wdata = if funcField cw = 0x01#8 then dataField cw else 0#32 := by
  rw [funcBits_eq]
  obtain ⟨hf, rfl⟩ | ⟨hf, rfl⟩ | ⟨hf, rfl⟩ | ⟨hf, rfl⟩ | ⟨hf, rfl⟩ := decode_ok h <;>
    exact ⟨by rw [hf]; rfl, rfl, by rw [hf]; rfl⟩

theorem submit_accepted {s : State} {k : Nat} {n : Node} {o : Order} (hn : s.insts[k]? = some n)
    (hi : n.eng.phase = .idle) (hc : o.cause = .none) : submit k o s = .next (s.accept k n o) := by
  rw [submit, withNode_some hn, if_pos hi, if_pos hc]

/-- Settles O13: the command's latches are the fields of its word. -/
theorem acceptStepLatchesTheCommandWord : Obligations.AcceptStepLatchesTheCommandWord := by
  intro s k n cw rest i ha hn hi hd hwf
  obtain ⟨hop, haddr, hwdata⟩ := commandOrder_of_decode hd
  have hb : (s.begin ⟨k, .submit cw⟩ rest).insts[k]? = some n := hn
  rw [step_of_submit ha hn hi hd, submit_accepted hb hi ((cause_eq_none_iff i).mpr hwf)]
  simp only [State.accept, Engine.accept, hop, haddr, hwdata]
  rfl

/-- Settles O15. -/
theorem rejectedCommandOnlyRecordsItsCause : Obligations.RejectedCommandOnlyRecordsItsCause := by
  intro s n i hn hi hwf
  rw [exec_eq_callCommand, callCommand_rejected hn hi (cause_ne_none_of_rejected hwf), cause_of_rejected hwf]
  rfl

/-- An accepted command is the accept step and the instance's own steps. -/
theorem callCommand_accepted {s : State} {n : Node} {o : Order} (hn : s.insts[s.port]? = some n)
    (hi : n.eng.phase = .idle) (hc : o.cause = .none) :
    callCommand o s = ticks s.port stepsAfterAccept (s.accept s.port n o) := by
  rw [callCommand, withNode_some hn, if_pos hi, submit_accepted hn hi hc, andThen_of_next]

/-- Settles O34: after the accept step the instance waits for the bus. -/
theorem callWaitsForTheBus : Obligations.CallWaitsForTheBus := by
  intro s n i j hn hi hwf hb
  rw [exec_eq_callCommand, callCommand_accepted hn hi ((cause_eq_none_iff i).mpr hwf)]
  have hm : (s.accept s.port n (commandOrder i)).insts[s.port]? = some (n.accepted (commandOrder i)) := getElem_set_self hn
  exact ⟨_, ticks_of_waits hm (.busOwned rfl j hb) _, rfl, rfl, rfl, rfl, rfl⟩

/-! ### A held host -/

/-- R71, R82: while its instance is busy a held move waits, and time passes. -/
theorem step_of_held {s : State} {m : Move} {rest : List Move} {n : Node} (ha : s.agenda = m :: rest)
    (hm : m.act.held = true) (hn : s.insts[m.who]? = some n) (hb : n.eng.phase ≠ .idle) : step s = advance s := by
  refine step_of_done ?_
  obtain ⟨k, act⟩ := m
  have wait : ∀ go, whenIdle ⟨k, act⟩ s go = .done (advance s) := fun go => whenIdle_of_busy (m := ⟨k, act⟩) go hn hb
  cases act with
  | tick | reset | readRdata | readStatus | readCause | readBusCfg => cases hm
  | _ => simp only [fetch, ha, wait]

/-- Settles O17: time passes, which leaves the agenda and the port. -/
theorem busyInstanceHoldsItsHost : Obligations.BusyInstanceHoldsItsHost := by
  constructor
  · intro s t m rest n ha hn hb hact hstep
    have hm : m.act.held = true := by
      rcases hact with ⟨cw, h⟩ | ⟨cw, h⟩ | h | ⟨hz, h⟩ | ⟨b, h⟩ | ⟨b, h⟩ <;> rw [h] <;> rfl
    rw [step_of_held ha hm hn hb] at hstep
    exact advance_agenda_port hstep
  · intro s n i hn hb
    rw [exec_eq_callCommand, callCommand, withNode_some hn, if_neg hb]

/-! ### The steps of an instance -/

/-- Settles O18. -/
theorem Proofs.acquireStep : Obligations.AcquireStep := by
  intro s k n rest ha hn hp
  refine ⟨fun hb => step_of_steps ha hn (.acquire hp hb), fun hb => ?_⟩
  obtain ⟨j, hj⟩ := Option.ne_none_iff_exists'.mp hb
  exact step_of_waits ha hn (.busOwned hp j hj)

/-- Settles O22: the index that the step counts up is 5 exactly where it is not below. -/
theorem Proofs.gapStep : Obligations.GapStep := by
  intro s k n rest ha hn hp hi
  have hphase : (if n.eng.idx = 5#3 then Phase.deselect else .exch) = if n.eng.idx.toNat ≤ 4 then .exch else .deselect := by
    by_cases h5 : n.eng.idx = 5#3
    · simp [h5]
    · have hne : n.eng.idx.toNat ≠ 5 := fun h => h5 (BitVec.eq_of_toNat_eq h)
      rw [if_neg h5, if_pos (by omega)]
  rw [hphase]
  exact step_of_steps ha hn (.gap hp hi)

/-- Settles O23. -/
theorem Proofs.deselectStep : Obligations.DeselectStep :=
  fun _ _ n _ ha hn hp => ⟨n.dev.deselected, step_of_steps ha hn (.deselect hp), deselected_regs n.dev⟩

/-! ### Reset -/

/-- The reset of an instance of the bus is a step. -/
theorem step_of_reset {s : State} {k : Nat} {n : Node} {rest : List Move} (ha : s.agenda = ⟨k, .reset⟩ :: rest)
    (hn : s.insts[k]? = some n) : step s = .next ((s.begin ⟨k, .reset⟩ rest).afterReset k n) := by
  rw [step_of_done (r := resetInstance k (s.begin ⟨k, .reset⟩ rest)) (by simp only [fetch, ha])]
  exact withNode_some (s := s.begin ⟨k, .reset⟩ rest) hn _

/-- Settles O44. -/
theorem resetRestoresEveryElement : Obligations.ResetRestoresEveryElement := by
  intro s k n rest ha hn
  refine ⟨(n.deviceAfterReset s.draws).1, (n.deviceAfterReset s.draws).2, ?_⟩
  rw [step_of_reset ha hn]
  simp only [State.afterReset, resetEvents, Engine.reset, BusCfg.reset, State.putNode, begin_insts, begin_busOwner,
    begin_trace, begin_draws, List.append_assoc]
  cases n.eng.csN <;> rfl

/-- R162: an abort loses the pointer, and can change the register bytes only of the slot a write was addressed to. -/
theorem aborted_pointerLost (d : Device) (w : Option Byte) (c : Nat) : (d.aborted w c).1.pointerLost = true := by
  unfold Device.aborted
  cases w with
  | none => rfl
  | some a => dsimp only; split <;> rfl

theorem aborted_read (d : Device) (w : Option Byte) (c cell : Nat) :
    (d.aborted w c).1.regs.read cell = d.regs.read cell ∨
      ∃ a, w = some a ∧ kindOf a = .config ∧ cellKey a 0 ≤ cell ∧ cell ≤ cellKey a 3 := by
  unfold Device.aborted
  cases w with
  | none => exact .inl rfl
  | some a =>
    dsimp only
    split
    · next hc =>
      by_cases hcell : cell < cellKey a 0 ∨ cellKey a 3 < cell
      · exact .inl (read_writeSlot_other _ _ _ _ _ _ hcell)
      · exact .inr ⟨a, rfl, hc.2, by omega, by omega⟩
    · exact .inl rfl

/-- An aborted write has a write's function bits and an address. -/
theorem writeTarget_eq_some {e : Engine} {a : Byte} (h : e.writeTarget = some a) :
    ∃ op, e.op = .val op ∧ e.addr = .val a ∧ isWrite op = true := by
  unfold Engine.writeTarget at h
  split at h
  · next op b hop hb =>
    split at h
    · next hw => exact ⟨op, hop, Option.some.inj h ▸ hb, hw⟩
    · cases h
  · cases h
  · cases h

/-- Settles O45: `Device.aborted` happens while select is low, and nothing happens to the device otherwise. -/
theorem resetAbortsOnlyWhileSelectIsLow : Obligations.ResetAbortsOnlyWhileSelectIsLow := by
  intro s t k n m rest ha hn ht hm
  rw [step_of_reset ha hn] at ht
  cases ht
  have hdev : m.dev = (n.deviceAfterReset s.draws).1 :=
    congrArg Node.dev (Option.some.inj (hm.symm.trans (getElem_set_self hn)))
  rw [hdev, Node.deviceAfterReset]
  constructor
  · rintro (hp | hp | hp | hp) <;> simp [hp, Phase.selectLow]
  · intro hp
    have hlow : n.eng.phase.selectLow = true := by rcases hp with hp | hp | hp <;> rw [hp] <;> rfl
    rw [if_pos hlow]
    refine ⟨aborted_pointerLost .., fun cell => (aborted_read n.dev n.eng.writeTarget s.draws cell).imp_right ?_⟩
    rintro ⟨a, hw, hk, hlo, hhi⟩
    obtain ⟨op, hop, haddr, hwr⟩ := writeTarget_eq_some hw
    exact ⟨op, a, hop, haddr, hwr, hk, hlo, hhi⟩

/-! ### The host's reads and writes -/

/-- The bits of `STATUS` (10_state.md R23). -/
theorem statusWord_bits (e : Engine) :
    e.statusWord.getLsbD 0 = e.busy ∧ e.statusWord.getLsbD 1 = e.done ∧ e.statusWord.getLsbD 2 = e.err ∧
      e.statusWord.extractLsb' 3 5 = 0#5 := by
  unfold Engine.statusWord
  generalize e.busy = b, e.done = d, e.err = r
  revert b d r
  decide

/-- The codes of the causes differ (60_exceptions.md R143). -/
theorem causeWord_codes (e : Engine) :
    (e.causeWord = 0#2 ↔ e.cause = .none) ∧ (e.causeWord = 1#2 ↔ e.cause = .illegalFunc) ∧
      (e.causeWord = 2#2 ↔ e.cause = .illegalAddr) ∧ (e.causeWord = 3#2 ↔ e.cause = .illegalAccess) := by
  unfold Engine.causeWord
  cases e.cause <;> decide

theorem readRdata_val {s : State} {k : Nat} {n : Node} {v : Word} (hn : s.insts[k]? = some n) (hv : n.eng.rdata = .val v) :
    readRdata k s = .next (s.answer k n (.rdata v)) := by
  rw [readRdata, withNode_some hn, hv]

theorem readRdata_nv {s : State} {k : Nat} {n : Node} (hn : s.insts[k]? = some n) (hv : n.eng.rdata = .nv) :
    readRdata k s = .fault (.noValue .rdata) := by
  rw [readRdata, withNode_some hn, hv]

/-- A host back from its wait reads `RDATA` where there is a result. -/
theorem collect_of_result {s : State} {k : Nat} {n : Node} (hn : s.insts[k]? = some n) (hr : n.hasResult = true) :
    collect k s = readRdata k s := by
  rw [collect, withNode_some hn, if_pos hr]

theorem collect_of_no_result {s : State} {k : Nat} {n : Node} (hn : s.insts[k]? = some n) (hr : n.hasResult = false) :
    collect k s = .next (s.answer k n .noResult) := by
  rw [collect, withNode_some hn, if_neg (by simp [hr])]

theorem hasResult_iff (n : Node) : n.hasResult = true ↔ n.verdict = some .accepted ∧ n.eng.done = true := by
  simp [Node.hasResult]

/-- The move `collect` of an idle instance. -/
theorem step_of_collect {s : State} {k : Nat} {n : Node} {rest : List Move} (ha : s.agenda = ⟨k, .collect⟩ :: rest)
    (hn : s.insts[k]? = some n) (hi : n.eng.phase = .idle) : step s = collect k (s.begin ⟨k, .collect⟩ rest) := by
  refine step_of_done ?_
  simp only [fetch, ha]
  exact whenIdle_of_idle (m := ⟨k, .collect⟩) _ hn hi

/-- The move `readRdata`. -/
theorem step_of_readRdata {s : State} {k : Nat} {rest : List Move} (ha : s.agenda = ⟨k, .readRdata⟩ :: rest) :
    step s = readRdata k (s.begin ⟨k, .readRdata⟩ rest) :=
  step_of_done (by simp only [fetch, ha])

/-- Settles O46: each read answers the register, and a wait that ended with a result is a read of `RDATA`. -/
theorem hostReadsChangeNothing : Obligations.HostReadsChangeNothing := by
  intro s k n rest hn
  have result : s.agenda = ⟨k, .collect⟩ :: rest → n.eng.phase = .idle → n.verdict = some .accepted →
      n.eng.done = true → step s = readRdata k (s.begin ⟨k, .collect⟩ rest) := fun ha hi hv hd =>
    (step_of_collect ha hn hi).trans (collect_of_result hn ((hasResult_iff n).mpr ⟨hv, hd⟩))
  refine ⟨fun v ha hv => ?_, fun ha hv => ?_, fun ha => ⟨n.eng.statusWord, ?_, statusWord_bits n.eng⟩,
    fun ha => ⟨n.eng.causeWord, ?_, causeWord_codes n.eng⟩, fun ha => ?_, fun ha hi => ⟨fun v hv hd hr => ?_,
      fun hv hd hr => ?_, fun h => ?_⟩⟩
  · exact (step_of_readRdata ha).trans (readRdata_val hn hv)
  · exact (step_of_readRdata ha).trans (readRdata_nv hn hv)
  · exact (step_of_done (r := readStatus k (s.begin ⟨k, .readStatus⟩ rest)) (by simp only [fetch, ha])).trans
      (withNode_some (s := s.begin ⟨k, .readStatus⟩ rest) hn _)
  · exact (step_of_done (r := readCause k (s.begin ⟨k, .readCause⟩ rest)) (by simp only [fetch, ha])).trans
      (withNode_some (s := s.begin ⟨k, .readCause⟩ rest) hn _)
  · exact (step_of_done (r := readBusCfg k (s.begin ⟨k, .readBusCfg⟩ rest)) (by simp only [fetch, ha])).trans
      (withNode_some (s := s.begin ⟨k, .readBusCfg⟩ rest) hn _)
  · exact (result ha hi hv hd).trans (readRdata_val hn hr)
  · exact (result ha hi hv hd).trans (readRdata_nv hn hr)
  · have hr : n.hasResult = false := by
      rw [← Bool.not_eq_true, hasResult_iff]
      rintro ⟨hv, hd⟩
      exact h.elim (fun h => h hv) fun h => Bool.false_ne_true (h.symm.trans hd)
    exact (step_of_collect ha hn hi).trans (collect_of_no_result hn hr)

/-- Settles O47: each write at an idle instance is `writeBusCfg` of one field. -/
theorem hostWritesBusCfgWhenIdle : Obligations.HostWritesBusCfgWhenIdle := by
  intro s k n rest hn hi
  have write : ∀ (act : Act) (f : BusCfg → BusCfg),
      fetch s = whenIdle ⟨k, act⟩ s (.done (writeBusCfg k f (s.begin ⟨k, act⟩ rest))) →
      step s = .next ((s.begin ⟨k, act⟩ rest).putNode k (n.setEng { n.eng with busCfg := f n.eng.busCfg })) :=
    fun act f hf => (step_of_done (hf.trans (whenIdle_of_idle (m := ⟨k, act⟩) _ hn hi))).trans
      (withNode_some (s := s.begin ⟨k, act⟩ rest) hn _)
  refine ⟨fun hz hpos ha => write (.writeClkHz hz) (fun c => { c with clkHz := hz }) ?_,
    fun b ha => write (.writeCpol b) (fun c => { c with cpol := b }) ?_,
    fun b ha => write (.writeCpha b) (fun c => { c with cpha := b }) ?_⟩
  · simp only [fetch, ha, writeClkHz, if_neg (Nat.pos_iff_ne_zero.mp hpos)]
  · simp only [fetch, ha, writeCpol]
  · simp only [fetch, ha, writeCpha]

end Sys2Proof.Machine
end

section
/-! PROOFS. The call as small steps, instances that stay as they are, and the only faults of a well-formed bus. -/

namespace Sys2Proof.Machine

/-! ### The operations do not look at the agenda -/

/-- The bus with another agenda. -/
def State.withAgenda (s : State) (l : List Move) : State := { s with agenda := l }

/-- Doing something to the state an operation answers, if it answers one. -/
theorem andThen_assoc (r : Result) (f g : State → Result) :
    andThen (andThen r f) g = andThen r fun s => andThen (f s) g := by
  cases r <;> rfl

theorem andThen_congr {r : Result} {f g : State → Result} (h : ∀ t, r = .next t → f t = g t) : andThen r f = andThen r g := by
  cases r with
  | next t => exact h t rfl
  | fault e => rfl
  | refused e => rfl

theorem withNode_withAgenda (s : State) (l : List Move) (k : Nat) (f g : Node → Result)
    (h : ∀ n, f n = andThen (g n) fun t => .next (t.withAgenda l)) :
    (s.withAgenda l).withNode k f = andThen (s.withNode k g) fun t => .next (t.withAgenda l) := by
  simp only [State.withNode, State.withAgenda] at *
  cases s.insts[k]? with
  | none => rfl
  | some n => exact h n

theorem exchangeStep_withAgenda (s : State) (l : List Move) (k : Nat) (n : Node) :
    exchangeStep k n (s.withAgenda l) = andThen (exchangeStep k n s) fun t => .next (t.withAgenda l) := by
  unfold exchangeStep
  by_cases hc : n.dev.canAnswer = true
  · simp only [if_pos hc]
    cases n.eng.op with
    | nv => rfl
    | val op =>
    cases n.eng.addr with
    | nv => rfl
    | val a =>
    cases n.eng.wdata with
    | nv => rfl
    | val wd =>
    cases n.eng.rxacc with
    | nv => rfl
    | val acc =>
      dsimp only
      cases roleOf op n.eng.idx.toNat <;> cases txByte op a wd n.eng.idx.toNat <;> rfl
  · simp only [if_neg hc]
    rfl

theorem releaseStep_withAgenda (s : State) (l : List Move) (k : Nat) (n : Node) :
    releaseStep k n (s.withAgenda l) = andThen (releaseStep k n s) fun t => .next (t.withAgenda l) := by
  unfold releaseStep
  cases n.eng.op with
  | nv => rfl
  | val op =>
    dsimp only
    split
    · cases n.eng.rxacc <;> rfl
    · rfl

theorem acquireStep_withAgenda (s : State) (l : List Move) (k : Nat) (n : Node) :
    acquireStep k n (s.withAgenda l) = andThen (acquireStep k n s) fun t => .next (t.withAgenda l) := by
  have hb : (s.withAgenda l).busOwner = s.busOwner := rfl
  unfold acquireStep
  rw [hb]
  split <;> rfl

/-- A step of an instance is the same whatever moves are to come. -/
theorem tick_withAgenda (s : State) (l : List Move) (k : Nat) :
    tick k (s.withAgenda l) = andThen (tick k s) fun t => .next (t.withAgenda l) := by
  refine withNode_withAgenda s l k _ _ fun n => ?_
  cases n.eng.phase with
  | idle => rfl
  | acquire => exact acquireStep_withAgenda s l k n
  | select => rfl
  | exch => exact exchangeStep_withAgenda s l k n
  | gap =>
    simp only [gapStep]
    split <;> rfl
  | deselect => rfl
  | release => exact releaseStep_withAgenda s l k n

/-- So is a submit. -/
theorem submit_withAgenda (s : State) (l : List Move) (k : Nat) (o : Order) :
    submit k o (s.withAgenda l) = andThen (submit k o s) fun t => .next (t.withAgenda l) := by
  refine withNode_withAgenda s l k _ _ fun n => ?_
  split
  · split <;> rfl
  · rfl

/-- Steps of the bus that do `m` ticks of instance `k` are `m` steps of that instance. -/
theorem steps_replicate_tick (k : Nat) :
    ∀ (m : Nat) {s : State}, s.port = k → steps m (s.withAgenda (List.replicate m ⟨k, .tick⟩ ++ s.agenda)) = ticks k m s
  | 0, s, _ => rfl
  | m + 1, s, hp => by
    have hbegin : (s.withAgenda (List.replicate (m + 1) ⟨k, .tick⟩ ++ s.agenda)).begin ⟨k, .tick⟩
        (List.replicate m ⟨k, .tick⟩ ++ s.agenda) = s.withAgenda (List.replicate m ⟨k, .tick⟩ ++ s.agenda) := by
      subst hp; rfl
    rw [steps, step_of_tick (k := k) (rest := List.replicate m ⟨k, .tick⟩ ++ s.agenda) rfl, hbegin, tick_withAgenda,
      andThen_assoc, ticks]
    refine andThen_congr fun t ht => ?_
    obtain ⟨hta, htp⟩ := tick_agenda_port ht
    rw [andThen_of_next, ← hta]
    exact steps_replicate_tick k m (htp.trans hp)

/-- Settles O33: the submit and the ticks do not look at the moves behind them, so they are the call's own submit and steps. -/
theorem callIsAcceptAndSixteenSteps : Obligations.CallIsAcceptAndSixteenSteps := by
  intro s k n cw rest hn hi
  let sub : State := { s with agenda := ⟨k, .submit cw⟩ :: (List.replicate 16 ⟨k, .tick⟩ ++ rest) }
  let call : State := { s with agenda := ⟨k, .call cw⟩ :: rest }
  have hsub : steps 17 sub = andThen (step sub) (steps 16) := rfl
  refine hsub.trans ?_
  cases hd : decode cw with
  | error e =>
    -- the word is rejected, and an idle instance takes no step
    have hrej := step_of_illegal (s := sub) (.inl rfl) rfl hn hi hd
    have hcall := step_of_illegal (s := call) (.inr rfl) rfl hn hi hd
    refine Eq.trans ?_ hcall.symm
    rw [hrej, andThen_of_next]
    refine (steps_replicate_tick k 16 (s := (call.begin ⟨k, .call cw⟩ rest).reject k n .illegalFunc) rfl).trans ?_
    exact ticks_of_waits (n := n.rejected .illegalFunc) (getElem_set_self hn) (.idle hi) 16
  | ok i =>
    -- the call's submit and steps, and the same ones with the ticks on the agenda
    have hcall : step call = andThen (submit k (commandOrder i) (call.begin ⟨k, .call cw⟩ rest)) (ticks k 16) := by
      rw [step_of_call (s := call) rfl hn hi hd, exec_eq_callCommand, callCommand]
      exact (withNode_some (s := call.begin ⟨k, .call cw⟩ rest) hn _).trans (if_pos hi)
    have hstep : step sub = andThen (submit k (commandOrder i) (call.begin ⟨k, .call cw⟩ rest))
        fun t => .next (t.withAgenda (List.replicate 16 ⟨k, .tick⟩ ++ rest)) :=
      (step_of_submit (s := sub) rfl hn hi hd).trans (submit_withAgenda (call.begin ⟨k, .call cw⟩ rest) _ k _)
    refine Eq.trans ?_ hcall.symm
    rw [hstep, andThen_assoc]
    refine andThen_congr fun t ht => ?_
    have ⟨hport, hrest⟩ : t.port = k ∧ t.agenda = rest := by
      obtain ⟨n', -, ⟨-, -, rfl⟩ | ⟨-, -, rfl⟩ | ⟨-, rfl⟩⟩ := submit_next ht <;> exact ⟨rfl, rfl⟩
    rw [andThen_of_next, ← hrest]
    exact steps_replicate_tick k 16 hport

/-! ### Instances that stay as they are -/

/-- An instance whose engine and device are still those of `n`. -/
def State.Still (s : State) (k : Nat) (n : Node) : Prop := ∃ m, s.insts[k]? = some m ∧ m.eng = n.eng ∧ m.dev = n.dev

/-- Putting back an instance leaves every other one still, and the one put back where engine and device are kept. -/
theorem State.Still.put {s t : State} {k j : Nat} {n a b : Node} (h : s.Still k n) (ha : s.insts[j]? = some a)
    (hi : t.insts = s.insts.set j b) (hj : j = k → b.eng = a.eng ∧ b.dev = a.dev) : t.Still k n := by
  obtain ⟨m, hm, he, hd⟩ := h
  by_cases hjk : j = k
  · subst hjk
    obtain rfl : a = m := Option.some.inj (ha.symm.trans hm)
    exact ⟨b, by rw [hi]; exact getElem_set_self ha, (hj rfl).1.trans he, (hj rfl).2.trans hd⟩
  · exact ⟨m, by rw [hi, getElem_set_other b (Ne.symm hjk)]; exact hm, he, hd⟩

/-- What an instance that is still has in common with `n`. -/
theorem State.Still.look {s : State} {k : Nat} {n m : Node} (h : s.Still k n) (hm : s.insts[k]? = some m) :
    m.eng = n.eng ∧ m.dev = n.dev := by
  obtain ⟨m', hm', h⟩ := h
  exact Option.some.inj (hm'.symm.trans hm) ▸ h

/-- R81: an instance that waits for an answer of its transport has no step, and no host's move changes it. -/
theorem movesKeep_still {n : Node} (hp : n.eng.phase = .exch) (hl : n.dev.answersLeft = some 0) (k : Nat) :
    MovesKeep (State.Still · k n) where
  begin _ _ _ h := h
  choice s h := by simpa only [State.Still, afterChoice_insts] using h
  steps s t j a h ha hs := by
    obtain ⟨b, hi, -⟩ := steps_put hs
    refine h.put ha hi ?_
    rintro rfl
    obtain ⟨he, hd⟩ := h.look ha
    have hexch : a.eng.phase = .exch := he ▸ hp
    have hcan : a.dev.canAnswer = false := (canAnswer_eq_false_iff _).mpr (hd ▸ hl)
    cases hs <;> simp_all
  accept s j a i h ha hi := h.put ha rfl (by rintro rfl; obtain ⟨he, -⟩ := h.look ha; simp [he, hp] at hi)
  reject s j a c h ha hi := h.put ha rfl (by rintro rfl; obtain ⟨he, -⟩ := h.look ha; simp [he, hp] at hi)
  answer s j a r h ha := h.put ha rfl fun _ => ⟨rfl, rfl⟩
  write s j a act c h ha hi hw := h.put ha rfl (by rintro rfl; obtain ⟨he, -⟩ := h.look ha; simp [he, hp] at hi)

/-- A stuck instance stays so in every step but its own reset. -/
theorem State.Still.step {s t : State} {k : Nat} {n : Node} (hp : n.eng.phase = .exch) (hl : n.dev.answersLeft = some 0)
    (h : s.Still k n) (hreset : ∀ rest, s.agenda ≠ ⟨k, .reset⟩ :: rest) (hs : Machine.step s = .next t) : t.Still k n := by
  obtain h | ⟨j, rest, a, ha, hj, rfl⟩ := (movesKeep_still hp hl k).step h hs
  · exact h
  · exact h.put (s := s.begin ⟨j, .reset⟩ rest) hj rfl fun hjk => absurd (hjk ▸ ha) (hreset rest)

/-- A step takes at most its first move off the agenda. -/
theorem step_agenda {s t : State} (h : step s = .next t) : t.agenda = s.agenda ∨ ∃ m, s.agenda = m :: t.agenda := by
  cases step_next h with
  | wait h => exact .inl (advance_agenda_port h).1
  | run k cw rest n i ha hn hi hd h => exact .inr ⟨_, ha.trans (congrArg _ (exec_frame h).1.symm)⟩
  | submit k cw rest n i ha hn hi hd h =>
    obtain ⟨n', -, ⟨-, -, rfl⟩ | ⟨-, -, rfl⟩ | ⟨-, rfl⟩⟩ := submit_next h <;> exact .inr ⟨_, ha⟩
  | illegal k act rest n ha hact hn hi h => subst h; exact .inr ⟨_, ha⟩
  | tick k rest ha h => exact .inr ⟨_, ha.trans (congrArg _ (tick_agenda_port h).1.symm)⟩
  | reset k rest n ha hn h => subst h; exact .inr ⟨_, ha⟩
  | read k act rest n r ha hr hk hn h => subst h; exact .inr ⟨_, ha⟩
  | write k act rest n c ha hw hn hi h => subst h; exact .inr ⟨_, ha⟩

/-- A stuck instance stays so in every run with no reset of it to come. -/
theorem State.Still.steps {k : Nat} {n : Node} (hp : n.eng.phase = .exch) (hl : n.dev.answersLeft = some 0) :
    ∀ (i : Nat) {s t : State}, s.Still k n → s.NoResetDuringRun k → Machine.steps i s = .next t → t.Still k n
  | 0, s, t, h, _, hs => by cases hs; exact h
  | i + 1, s, t, h, hr, hs => by
    obtain ⟨u, hu, hs⟩ := andThen_next hs
    refine State.Still.steps hp hl i (h.step hp hl (fun rest ha => hr ?_) hu) ?_ hs
    · rw [ha]; exact List.mem_cons_self
    · intro hmem
      refine hr ?_
      rcases step_agenda hu with ha | ⟨m, ha⟩
      · exact ha ▸ hmem
      · exact ha ▸ List.mem_cons_of_mem m hmem

/-- R73: an instance that waits for an owned bus stays as it is in every step but its own reset. -/
theorem still_of_waiting {s t : State} {j k : Nat} {n : Node} (hn : s.insts[j]? = some n) (hp : n.eng.phase = .acquire)
    (hb : s.busOwner = some k) (hreset : ∀ rest, s.agenda ≠ ⟨j, .reset⟩ :: rest) (hs : step s = .next t) : t.Still j n := by
  have same : n.eng = n.eng ∧ n.dev = n.dev := ⟨rfl, rfl⟩
  by_cases hmover : s.mover = some j
  · have tick_self : ∀ {u : State}, u.insts[j]? = some n → u.busOwner = some k → tick j u = .next t → t.Still j n := by
      intro u hu hub ht
      rw [tick_of_waits hu (.busOwned hp k hub)] at ht
      cases ht
      exact ⟨n, hu, same⟩
    have busy : ∀ {i : Nat} {a : Node}, s.mover = some i → s.insts[i]? = some a → a.eng.phase ≠ .idle := by
      intro i a hi ha
      obtain rfl : j = i := Option.some.inj (hmover.symm.trans hi)
      obtain rfl : n = a := Option.some.inj (hn.symm.trans ha)
      simp [hp]
    cases step_next hs with
    | wait h hk why =>
      rw [advance_of_owner hb] at h
      obtain rfl : k = j := by simpa [hk, State.turn, hb] using hmover
      exact tick_self hn hb h
    | run i cw rest a ins ha hna hi hd h => exact absurd hi (busy (mover_of_idle ha hna hi) hna)
    | submit i cw rest a ins ha hna hi hd h => exact absurd hi (busy (mover_of_idle ha hna hi) hna)
    | illegal i act rest a ha hact hna hi h => exact absurd hi (busy (mover_of_idle ha hna hi) hna)
    | tick i rest ha h =>
      obtain rfl : i = j := Option.some.inj ((mover_of_not_held ha rfl).symm.trans hmover)
      exact tick_self (u := s.begin ⟨i, .tick⟩ rest) hn hb h
    | reset i rest a ha hna h =>
      obtain rfl : i = j := Option.some.inj ((mover_of_not_held ha rfl).symm.trans hmover)
      exact absurd ha (hreset rest)
    | read i act rest a r ha hr hk hna h =>
      subst h
      exact State.Still.put (s := s) ⟨n, hn, same⟩ hna rfl fun _ => ⟨rfl, rfl⟩
    | write i act rest a c ha hw hna hi h => exact absurd hi (busy (mover_of_idle ha hna hi) hna)
  · obtain ⟨-, ho⟩ := aStepConcernsOneInstance s t hs
    exact ⟨n, (ho j hmover).trans hn, same⟩

/-- A step that changes nothing can be taken any number of times. -/
theorem steps_of_fixed {s : State} (h : step s = .next s) : ∀ i : Nat, steps i s = .next s
  | 0 => rfl
  | i + 1 => by rw [steps, h, andThen_of_next, steps_of_fixed h i]

/-- Settles O36: the stuck instance by `movesKeep_still`, the waiting one by `still_of_waiting`, and the whole state because
time passes for the stuck owner of the bus. -/
theorem stuckInstanceStaysStuck : Obligations.StuckInstanceStaysStuck := by
  refine ⟨fun s t k n hn hp hl hr hs => State.Still.step hp hl ⟨n, hn, rfl, rfl⟩ hr hs,
    fun s t k n i hn hp hl hr hs => State.Still.steps hp hl i ⟨n, hn, rfl, rfl⟩ hr hs,
    fun s t j k n hn hp hb hr hs => still_of_waiting hn hp hb hr hs, fun s k n hb hn hp hl hagenda => steps_of_fixed ?_⟩
  have hadv : advance s = .next s := by
    rw [advance_of_owner hb]
    exact tick_of_waits hn (.noAnswer hp ((canAnswer_eq_false_iff _).mpr hl))
  rcases hagenda with ha | ⟨j, m, cw, rest, ha | ha, hm, hbusy⟩
  · rw [step_of_nil ha, hadv]
  · rw [step_of_held (m := ⟨j, .call cw⟩) ha rfl hm hbusy, hadv]
  · rw [step_of_held (m := ⟨j, .submit cw⟩) ha rfl hm hbusy, hadv]

/-! ### The only faults -/

/-- `OP` holds one of five values, each of which has a role for every exchange of the frame. -/
theorem roleOf_of_latched {op : BitVec 3} {i : Nat} (h : opLatched (.val op) = true) (hi : i ≤ 5) :
    ∃ role, roleOf op i = some role := by
  have hop : op = 0b000#3 ∨ op = 0b001#3 ∨ op = 0b010#3 ∨ op = 0b011#3 ∨ op = 0b110#3 := by
    simpa [opLatched, or_assoc] using h
  rcases hop with rfl | rfl | rfl | rfl | rfl <;> interval_cases i <;> exact ⟨_, rfl⟩

theorem txByte_of_le (op : BitVec 3) (a : Byte) (wd : Word) {i : Nat} (hi : i ≤ 5) : ∃ tx, txByte op a wd i = some tx := by
  interval_cases i <;> exact ⟨_, rfl⟩

theorem val_of_holds {w : Nat} {l : Latch w} (h : Latch.holds l = true) : ∃ v, l = .val v := by
  cases l with
  | nv => cases h
  | val v => exact ⟨v, rfl⟩

theorem val_of_opLatched {l : Latch 3} (h : opLatched l = true) : ∃ op, l = .val op := by
  cases l with
  | nv => cases h
  | val v => exact ⟨v, rfl⟩

/-- Under the invariant every step of an instance is enabled or waits. -/
theorem State.Inv.tick_next {s : State} (h : s.Inv) {k : Nat} {n : Node} (hn : s.insts[k]? = some n) :
    ∃ t, tick k s = .next t := by
  have he := h.engines k n hn
  cases hp : n.eng.phase with
  | idle => exact ⟨s, tick_of_waits hn (.idle hp)⟩
  | acquire =>
    cases hb : s.busOwner with
    | none => exact ⟨_, tick_of_steps hn (.acquire hp hb)⟩
    | some j => exact ⟨s, tick_of_waits hn (.busOwned hp j hb)⟩
  | select => exact ⟨_, tick_of_steps hn (.select hp)⟩
  | exch =>
    cases hc : n.dev.canAnswer with
    | false => exact ⟨s, tick_of_waits hn (.noAnswer hp hc)⟩
    | true =>
      obtain ⟨hop, ha, hw, hr⟩ := he.latched (by simp [hp])
      obtain ⟨op, hop'⟩ := val_of_opLatched hop
      obtain ⟨a, ha⟩ := val_of_holds ha
      obtain ⟨wd, hw⟩ := val_of_holds hw
      obtain ⟨acc, hr⟩ := val_of_holds hr
      obtain ⟨role, hrole⟩ := roleOf_of_latched (hop' ▸ hop) (he.idx_running (.inl hp))
      obtain ⟨tx, htx⟩ := txByte_of_le op a wd (he.idx_running (.inl hp))
      exact ⟨_, tick_of_steps hn (.exch hp hc op a wd acc role tx hop' ha hw hr hrole htx)⟩
  | gap => exact ⟨_, tick_of_steps hn (.gap hp (he.idx_running (.inr hp)))⟩
  | deselect => exact ⟨_, tick_of_steps hn (.deselect hp)⟩
  | release =>
    obtain ⟨hop, -, -, hr⟩ := he.latched (by simp [hp])
    obtain ⟨op, hop⟩ := val_of_opLatched hop
    obtain ⟨acc, hr⟩ := val_of_holds hr
    exact ⟨_, tick_of_steps hn (steps_release hp hop hr)⟩

/-- An instance stays on the bus. -/
theorem tick_here {s t : State} {j k : Nat} {n : Node} (h : tick j s = .next t) (hn : s.insts[k]? = some n) :
    ∃ m, t.insts[k]? = some m := by
  by_cases hk : k = j
  · subst hk
    obtain ⟨m, hm, -⟩ := (tick_touches h).here n hn
    exact ⟨m, hm⟩
  · exact ⟨n, ((tick_touches h).other k hk).trans hn⟩

theorem State.Inv.ticks_next (k : Nat) : ∀ (m : Nat) {s : State} {n : Node}, s.Inv → s.insts[k]? = some n →
    ∃ t, ticks k m s = .next t
  | 0, s, _, _, _ => ⟨s, rfl⟩
  | m + 1, s, n, h, hn => by
    obtain ⟨u, hu⟩ := h.tick_next hn
    obtain ⟨n', hn'⟩ := tick_here hu hn
    rw [ticks_succ_of_next hu]
    exact State.Inv.ticks_next k m (stepKeeps_inv.toMovesKeep.tick h hu) hn'

/-- An instance that waits for the bus is on it. -/
theorem waits_iff {s : State} {k : Nat} : s.waits k = true ↔ ∃ n, s.insts[k]? = some n ∧ n.eng.phase = .acquire := by
  unfold State.waits
  cases s.insts[k]? <;> simp

theorem mem_waiters {s : State} {k : Nat} : k ∈ s.waiters ↔ s.waits k = true := by
  rw [State.waiters, List.mem_filter, List.mem_range, and_iff_right_iff_imp]
  intro h
  obtain ⟨n, hn, -⟩ := waits_iff.mp h
  exact (List.getElem?_eq_some_iff.mp hn).1

/-- On a free bus it is the turn of an instance that waits for it. -/
theorem turn_waits {s : State} {k : Nat} (hb : s.busOwner = none) (h : s.turn.1 = some k) : s.waits k = true := by
  unfold State.turn at h
  rw [hb] at h
  dsimp only at h
  split at h
  · cases h
  · next j hw =>
    obtain rfl : j = k := Option.some.inj h
    exact mem_waiters.mp (by simp [hw])
  · split at h
    · next hc =>
      obtain rfl := Option.some.inj h
      exact hc
    · cases h

/-- Whose turn it is, is on the bus. -/
theorem State.Inv.turn_here {s : State} (h : s.Inv) {k : Nat} (ht : s.turn.1 = some k) : ∃ n, s.insts[k]? = some n := by
  cases hb : s.busOwner with
  | none =>
    obtain ⟨n, hn, -⟩ := waits_iff.mp (turn_waits hb ht)
    exact ⟨n, hn⟩
  | some j =>
    obtain rfl : j = k := by simpa [State.turn, hb] using ht
    exact ⟨_, List.getElem?_eq_getElem (h.owner_present j hb)⟩

/-- Under the invariant the passing of time answers a next state. -/
theorem State.Inv.advance_next {s : State} (h : s.Inv) : ∃ t, advance s = .next t := by
  have hinv : s.turn.2.Inv := by
    rcases turn_snd s with hu | hu <;> rw [hu]
    · exact h
    · exact stepKeeps_inv.choice s h
  have hinsts : s.turn.2.insts = s.insts := by rcases turn_snd s with hu | hu <;> rw [hu]; exact afterChoice_insts s
  have hhere : ∀ k, s.turn.1 = some k → ∃ n, s.turn.2.insts[k]? = some n := fun k hk => hinsts ▸ h.turn_here hk
  unfold advance
  generalize s.turn = x at hinv hhere
  obtain ⟨_ | k, u⟩ := x
  · exact ⟨u, rfl⟩
  · obtain ⟨n, hn⟩ := hhere k rfl
    exact hinv.tick_next hn

/-- Under the invariant a command answers a next state. -/
theorem State.Inv.exec_next {s : State} (h : s.Inv) {n : Node} (hn : s.insts[s.port]? = some n) (i : Instr) :
    ∃ t, exec i s = .next t := by
  rw [exec_eq_callCommand]
  by_cases hi : n.eng.phase = .idle
  · by_cases hc : (commandOrder i).cause = .none
    · rw [callCommand_accepted hn hi hc]
      exact State.Inv.ticks_next s.port _ (stepKeeps_inv.accept s s.port n i h hn hi)
        (n := n.accepted (commandOrder i)) (getElem_set_self hn)
    · exact ⟨_, callCommand_rejected hn hi hc⟩
  · exact ⟨s, by rw [callCommand, withNode_some hn, if_neg hi]⟩

/-- A move of an instance that is not on the bus faults. -/
theorem step_of_absent {s : State} {k : Nat} {act : Act} {rest : List Move} (ha : s.agenda = ⟨k, act⟩ :: rest)
    (hk : s.insts[k]? = none) : step s = .fault (.noSuchInstance k) := by
  refine step_of_done ?_
  have wait : ∀ go, whenIdle ⟨k, act⟩ s go = .done (.fault (.noSuchInstance k)) :=
    fun go => whenIdle_of_absent (m := ⟨k, act⟩) go hk
  have absent : ∀ f : Node → Result, (s.begin ⟨k, act⟩ rest).withNode k f = .fault (.noSuchInstance k) := by
    intro f
    simp only [State.withNode, begin_insts, hk]
  cases act with
  | tick => simp only [fetch, ha, tick, absent]
  | reset => simp only [fetch, ha, resetInstance, absent]
  | readRdata => simp only [fetch, ha, readRdata, absent]
  | readStatus => simp only [fetch, ha, readStatus, absent]
  | readCause => simp only [fetch, ha, readCause, absent]
  | readBusCfg => simp only [fetch, ha, readBusCfg, absent]
  | _ => simp only [fetch, ha, wait]

/-- A step that does a held act at an idle instance. -/
theorem step_of_idle {s : State} {k : Nat} {act : Act} {n : Node} {r : Result} (hn : s.insts[k]? = some n)
    (hi : n.eng.phase = .idle) (hf : fetch s = whenIdle ⟨k, act⟩ s (.done r)) : step s = r :=
  step_of_done (hf.trans (whenIdle_of_idle (m := ⟨k, act⟩) _ hn hi))

/-- Under the invariant a move of an instance of the bus faults only where it reads a valueless `RDATA`. -/
theorem State.Inv.fault_of_move {s : State} (h : s.Inv) {k : Nat} {act : Act} {rest : List Move} {n : Node} {f : Fault}
    (ha : s.agenda = ⟨k, act⟩ :: rest) (hn : s.insts[k]? = some n) (hf : step s = .fault f) :
    n.eng.rdata = .nv ∧ f = .noValue .rdata ∧
      (act = .readRdata ∨ act = .collect ∧ n.eng.phase = .idle ∧ n.hasResult = true) := by
  have hb : (s.begin ⟨k, act⟩ rest).Inv := stepKeeps_inv.begin _ _ _ h
  have hbn : (s.begin ⟨k, act⟩ rest).insts[k]? = some n := hn
  have none : ∀ {t}, step s ≠ .next t := by simp [hf]
  -- while its host is held, time passes
  have idle : act.held = true → n.eng.phase = .idle := by
    intro hh
    by_contra hi
    obtain ⟨t, ht⟩ := h.advance_next
    exact none ((step_of_held ha hh hn hi).trans ht)
  have read : step s = readRdata k (s.begin ⟨k, act⟩ rest) → n.eng.rdata = .nv ∧ f = .noValue .rdata := by
    intro hs
    cases hr : n.eng.rdata with
    | nv => exact ⟨rfl, Host.Outcome.fault.inj (hf.symm.trans (hs.trans (readRdata_nv hbn hr)))⟩
    | val v => exact absurd (hs.trans (readRdata_val hbn hr)) none
  cases act with
  | call cw =>
    cases hd : decode cw with
    | ok i =>
      obtain ⟨t, ht⟩ := hb.exec_next hbn i
      exact absurd ((step_of_call ha hn (idle rfl) hd).trans ht) none
    | error e => exact absurd (step_of_illegal (.inr rfl) ha hn (idle rfl) hd) none
  | submit cw =>
    cases hd : decode cw with
    | ok i =>
      by_cases hc : (commandOrder i).cause = .none
      · exact absurd ((step_of_submit ha hn (idle rfl) hd).trans (submit_accepted hbn (idle rfl) hc)) none
      · exact absurd (step_of_rejected (.inl rfl) ha hn (idle rfl) hd hc) none
    | error e => exact absurd (step_of_illegal (.inl rfl) ha hn (idle rfl) hd) none
  | tick =>
    obtain ⟨t, ht⟩ := hb.tick_next hbn
    exact absurd ((step_of_tick ha).trans ht) none
  | reset => exact absurd (step_of_reset ha hn) none
  | readRdata =>
    obtain ⟨hr, hf⟩ := read (step_of_readRdata ha)
    exact ⟨hr, hf, .inl rfl⟩
  | collect =>
    have hs := step_of_collect ha hn (idle rfl)
    cases hres : n.hasResult with
    | false => exact absurd (hs.trans (collect_of_no_result hbn hres)) none
    | true =>
      obtain ⟨hr, hf⟩ := read (hs.trans (collect_of_result hbn hres))
      exact ⟨hr, hf, .inr ⟨rfl, idle rfl, rfl⟩⟩
  | readStatus =>
    exact absurd ((step_of_done (r := readStatus k _) (by simp only [fetch, ha])).trans (withNode_some hbn _)) none
  | readCause =>
    exact absurd ((step_of_done (r := readCause k _) (by simp only [fetch, ha])).trans (withNode_some hbn _)) none
  | readBusCfg =>
    exact absurd ((step_of_done (r := readBusCfg k _) (by simp only [fetch, ha])).trans (withNode_some hbn _)) none
  | writeClkHz hz =>
    have hs := step_of_idle (act := .writeClkHz hz) hn (idle rfl) (by simp only [fetch, ha]; rfl)
    unfold writeClkHz at hs
    split at hs
    · cases hs.symm.trans hf
    · exact absurd (hs.trans (withNode_some hbn _)) none
  | writeCpol b =>
    exact absurd ((step_of_idle (act := .writeCpol b) hn (idle rfl) (by simp only [fetch, ha]; rfl)).trans (withNode_some hbn _)) none
  | writeCpha b =>
    exact absurd ((step_of_idle (act := .writeCpha b) hn (idle rfl) (by simp only [fetch, ha]; rfl)).trans (withNode_some hbn _)) none

/-- Settles O52: time passes without a fault, a move of an absent instance faults by name, and of the moves of the others only
the read of `RDATA` can fault. -/
theorem onlyAnEarlyReadOfRdataFaults : Obligations.OnlyAnEarlyReadOfRdataFaults := by
  intro s f h hf
  cases ha : s.agenda with
  | nil =>
    obtain ⟨t, ht⟩ := h.advance_next
    rw [step_of_nil ha, ht] at hf
    cases hf
  | cons m rest =>
    obtain ⟨k, act⟩ := m
    cases hn : s.insts[k]? with
    | none =>
      have habsent := (step_of_absent ha hn).symm.trans hf
      exact .inr ⟨k, act, rest, rfl, List.getElem?_eq_none_iff.mp hn, (Host.Outcome.fault.inj habsent).symm⟩
    | some n =>
      obtain ⟨hr, hf, rfl | ⟨rfl, hi, hres⟩⟩ := h.fault_of_move ha hn hf
      · exact .inl ⟨k, n, rest, hn, hr, hf, .inl rfl⟩
      · obtain ⟨hv, hd⟩ := (hasResult_iff n).mp hres
        exact .inl ⟨k, n, rest, hn, hr, hf, .inr ⟨rfl, hi, hv, hd⟩⟩

end Sys2Proof.Machine
end

section
/-! PROOFS. The frames of the commands: what a call leaves unchanged, in every state (41_read.md R90, 42_write.md R100). -/

namespace Sys2Proof.Machine

/-! ### The register bytes of the device while a command runs -/

/-- A command that stores: an accepted write to a configuration register of the reference device. -/
def Order.Stores (o : Order) (d : Device) : Prop := d.reference = true ∧ isWrite o.op = true ∧ kindOf o.addr = .config

/-- An instance that runs command `o` with a device that was `d`: its latches hold the command, the device has taken the bytes
sent so far, and of its register bytes only the slot of a command that stores can differ. -/
structure Node.Sending (o : Order) (d : Device) (n : Node) : Prop where
  op : n.eng.op = .val o.op
  addr : n.eng.addr = .val o.addr
  wdata : n.eng.wdata = .val o.wdata
  start : n.eng.phase = .acquire ∨ n.eng.phase = .select → n.eng.idx = 0#3
  exch : n.eng.phase = .exch → n.Sent n.eng.idx.toNat
  gap : n.eng.phase = .gap → n.Sent (n.eng.idx.toNat + 1)
  reference : n.dev.reference = d.reference
  memory : ∀ cell : Nat, (¬ o.Stores d ∨ cell < cellKey o.addr 0 ∨ cellKey o.addr 3 < cell) →
    n.dev.regs.read cell = d.regs.read cell

/-- The register bytes after the byte of the table has been sent. -/
theorem Node.Sending.exchange_read {o : Order} {d : Device} {n : Node} (h : n.Sending o d) (hp : n.eng.phase = .exch)
    {tx : Byte} (ht : txByte o.op o.addr o.wdata n.eng.idx.toNat = some tx) (k c : Nat) {cell : Nat}
    (hcell : ¬ o.Stores d ∨ cell < cellKey o.addr 0 ∨ cellKey o.addr 3 < cell) :
    (n.dev.exchange k tx c).dev.regs.read cell = d.regs.read cell := by
  rw [exchange_regs, take_regs_of_sent h.op h.addr h.wdata ht (h.exch hp), h.reference]
  split
  · next hs =>
    have hstores : o.Stores d := ⟨hs.1, hs.2.1, hs.2.2.1⟩
    rw [read_writeSlot_other _ _ _ _ _ _ (hcell.resolve_left (not_not.mpr hstores))]
    exact h.memory cell hcell
  · exact h.memory cell hcell

theorem Node.Sending.steps {o : Order} {d : Device} {s t : State} {k : Nat} {n : Node} (h : n.Sending o d)
    (hs : Steps k n s t) : ∃ m, t.insts = s.insts.set k m ∧ m.Sending o d := by
  obtain ⟨hop, haddr, hwdata, hstart, hexch, hgap, href, hmem⟩ := h
  cases hs with
  | acquire hp => exact ⟨_, rfl, hop, haddr, hwdata, fun _ => hstart (.inl hp), nofun, nofun, href, hmem⟩
  | select hp =>
    have h0 : n.eng.idx.toNat = 0 := by simp [hstart (.inr hp)]
    refine ⟨_, rfl, hop, haddr, hwdata, by simp, fun _ => ?_, nofun, href, hmem⟩
    simp only [h0]
    exact sent_zero rfl
  | exch hp hc op a wd acc role tx hop' ha' hwd' hacc hr ht =>
    obtain rfl : o.op = op := Latch.val.inj (hop.symm.trans hop')
    obtain rfl : o.addr = a := Latch.val.inj (haddr.symm.trans ha')
    obtain rfl : o.wdata = wd := Latch.val.inj (hwdata.symm.trans hwd')
    have hn : n.Sending o d := ⟨hop, haddr, hwdata, hstart, hexch, hgap, href, hmem⟩
    exact ⟨_, rfl, hop, haddr, hwdata, by simp, nofun,
      fun _ => sent_succ (hexch hp) hop haddr hwdata rfl rfl rfl (exchange_frame ..) ht, (exchange_reference ..).trans href,
      fun cell hcell => hn.exchange_read hp ht k _ hcell⟩
  | gap hp hi =>
    refine ⟨_, rfl, hop, haddr, hwdata, fun h => ?_, fun _ => ?_, fun h => ?_, href, hmem⟩
    · by_cases h4 : n.eng.idx.toNat ≤ 4 <;> simp [h4] at h
    · have := hgap hp
      rw [← idx_succ hi] at this
      exact this
    · by_cases h4 : n.eng.idx.toNat ≤ 4 <;> simp [h4] at h
  | deselect hp => exact ⟨_, rfl, hop, haddr, hwdata, by simp, nofun, nofun, href, hmem⟩
  | releaseRead hp => exact ⟨_, rfl, hop, haddr, hwdata, by simp, nofun, nofun, href, hmem⟩
  | releaseWrite hp => exact ⟨_, rfl, hop, haddr, hwdata, by simp, nofun, nofun, href, hmem⟩

/-- Any number of the instance's own steps keep what `Node.Sending` says of it. -/
theorem ticks_sending {o : Order} {d : Device} {k m : Nat} {s t : State}
    (h : ∃ n, s.insts[k]? = some n ∧ n.Sending o d) (ht : ticks k m s = .next t) :
    ∃ n, t.insts[k]? = some n ∧ n.Sending o d := by
  refine ticks_keep (P := fun u => ∃ n, u.insts[k]? = some n ∧ n.Sending o d) (fun u v hu hv => ?_) m h ht
  obtain ⟨n, hn, hsend⟩ := hu
  obtain ⟨n', hn', ⟨-, rfl⟩ | hs⟩ := tick_next hv
  · exact ⟨n, hn, hsend⟩
  · obtain rfl : n = n' := Option.some.inj (hn.symm.trans hn')
    obtain ⟨m, hi, hm⟩ := hsend.steps hs
    exact ⟨m, by rw [hi]; exact getElem_set_self hn, hm⟩

/-- R46: in every state a call changes the register bytes of its device in the slot of an accepted command that stores, if
anywhere. -/
theorem exec_memory {i : Instr} {s t : State} {n m : Node} (h : exec i s = .next t) (hn : s.insts[s.port]? = some n)
    (hm : t.insts[s.port]? = some m) {cell : Nat}
    (hcell : i.wellFormed = false ∨ ¬ (commandOrder i).Stores n.dev ∨ cell < cellKey i.addr 0 ∨ cellKey i.addr 3 < cell) :
    m.dev.regs.read cell = n.dev.regs.read cell := by
  have haddr : (commandOrder i).addr = i.addr := by cases i <;> rfl
  rw [exec_eq_callCommand] at h
  obtain ⟨n', hn', h⟩ := callCommand_next h
  obtain rfl : n = n' := Option.some.inj (hn.symm.trans hn')
  rcases h with ⟨-, rfl⟩ | ⟨-, -, rfl⟩ | ⟨-, hc, h⟩
  · obtain rfl : n = m := Option.some.inj (hn.symm.trans hm)
    rfl
  · obtain rfl : m = n.rejected _ := Option.some.inj (hm.symm.trans (getElem_set_self hn))
    rfl
  · obtain ⟨m', hm', hsend⟩ := ticks_sending (o := commandOrder i) (d := n.dev) (s := s.accept s.port n (commandOrder i))
      ⟨n.accepted (commandOrder i), getElem_set_self hn, rfl, rfl, rfl, fun _ => rfl, nofun, nofun, rfl, fun _ _ => rfl⟩ h
    obtain rfl : m' = m := Option.some.inj (hm'.symm.trans hm)
    refine hsend.memory cell ?_
    rw [haddr]
    exact hcell.resolve_left (by simp [(cause_eq_none_iff i).mp hc])

/-! ### The rest of the instance -/

/-- R90, R100: what a call keeps of its instance, whatever the command. -/
theorem Node.Takes.frame {i : Instr} {n m : Node} (h : n.Takes Node.Runs (commandOrder i) m) :
    m.eng.busCfg = n.eng.busCfg ∧ (i.wellFormed = true → m.eng.err = n.eng.err ∧ m.eng.cause = n.eng.cause) ∧
      (m.eng.wdata = n.eng.wdata ∨ m.eng.wdata = .val (commandOrder i).wdata) ∧
      m.dev.reference = n.dev.reference ∧ m.dev.fwId = n.dev.fwId ∧ m.replies = n.replies := by
  rcases h with ⟨-, rfl⟩ | ⟨-, hc, rfl⟩ | ⟨-, -, hr⟩
  · exact ⟨rfl, fun _ => ⟨rfl, rfl⟩, .inl rfl, rfl, rfl, rfl⟩
  · exact ⟨rfl, fun hwf => absurd ((cause_eq_none_iff i).mpr hwf) hc, .inl rfl, rfl, rfl, rfl⟩
  · have k := hr.kept
    exact ⟨k.busCfg, fun _ => ⟨k.err, k.cause⟩, .inr k.wdata, k.reference, k.fwId, k.replies⟩

/-- A write leaves `RDATA`. -/
theorem Node.Takes.rdata_of_write {i : Instr} {n m : Node} (h : n.Takes Node.Runs (commandOrder i) m)
    (hw : ¬ isReadOp (commandOrder i).op) : m.eng.rdata = n.eng.rdata := by
  rcases h with ⟨-, rfl⟩ | ⟨-, -, rfl⟩ | ⟨-, -, hr⟩
  · rfl
  · rfl
  · refine hr.rdata.resolve_right ?_
    rintro ⟨-, -, op, hread, hop⟩
    obtain rfl : (commandOrder i).op = op := Latch.val.inj (hr.kept.op.symm.trans hop)
    exact hw hread

theorem not_stores_of_read {o : Order} (h : isReadOp o.op) (d : Device) : ¬ o.Stores d := by
  rintro ⟨-, hw, -⟩
  rcases h with h | h | h <;> rw [h] at hw <;> cases hw

/-- Settles O37: a read stores nothing. -/
theorem readCommandFrame : Obligations.ReadCommandFrame := by
  intro i a s t hi h
  obtain ⟨hagenda, hport, hchoices, hchosen⟩ := exec_frame h
  have ht := exec_touches h
  refine ⟨hagenda, hport, hchoices, hchosen, ht.length, ht.other, fun n m hn hm => ?_⟩
  obtain ⟨hcfg, herr, hwdata, href, hfw, hrep⟩ := (ht.rel hn hm).frame
  have ⟨hread, hzero⟩ : isReadOp (commandOrder i).op ∧ (commandOrder i).wdata = 0#32 := by
    rcases hi with rfl | rfl | rfl
    · exact ⟨.inl rfl, rfl⟩
    · exact ⟨.inr (.inl rfl), rfl⟩
    · exact ⟨.inr (.inr rfl), rfl⟩
  exact ⟨hcfg, herr, hzero ▸ hwdata, fun cell => exec_memory h hn hm (.inr (.inl (not_stores_of_read hread _))), href, hfw,
    hrep⟩

/-- Settles O38: an accepted `WR32` stores in its slot, and only in the reference device. -/
theorem wr32Frame : Obligations.Wr32Frame := by
  intro a v s t h
  obtain ⟨hagenda, hport, hchoices, hchosen⟩ := exec_frame h
  have ht := exec_touches h
  refine ⟨hagenda, hport, hchoices, hchosen, ht.length, ht.other, fun n m hn hm => ?_⟩
  obtain ⟨hcfg, herr, -, href, hfw, hrep⟩ := (ht.rel hn hm).frame
  have hrdata := (ht.rel hn hm).rdata_of_write (by simp [isReadOp, commandOrder, orderWr32])
  refine ⟨hrdata, hcfg, herr, fun cell hcell => exec_memory h hn hm (.inr (.inr hcell)), fun hno cell => ?_, href, hfw, hrep⟩
  exact exec_memory h hn hm (hno.imp_right fun hr => .inl fun ⟨hs, _⟩ => Bool.false_ne_true (hr.symm.trans hs))

/-- Settles O39: `WRCMD` is accepted at command addresses only, so it stores nothing. -/
theorem wrcmdFrame : Obligations.WrcmdFrame := by
  intro a s t h
  obtain ⟨hagenda, hport, hchoices, hchosen⟩ := exec_frame h
  have ht := exec_touches h
  refine ⟨hagenda, hport, hchoices, hchosen, ht.length, ht.other, fun n m hn hm => ?_⟩
  obtain ⟨hcfg, herr, hwdata, href, hfw, hrep⟩ := (ht.rel hn hm).frame
  have hrdata := (ht.rel hn hm).rdata_of_write (by simp [isReadOp, commandOrder, orderWrcmd])
  refine ⟨hrdata, hcfg, herr, hwdata, fun cell => exec_memory h hn hm ?_, href, hfw, hrep⟩
  cases hwf : (Instr.wrcmd a).wellFormed with
  | false => exact .inl rfl
  | true =>
    have hk : kindOf a = .command := (inCommandRange_iff a).mp hwf
    exact .inr (.inl fun hs => by have : kindOf a = .config := hs.2.2; simp [hk] at this)

end Sys2Proof.Machine
end

section
/-! PROOFS. The five commands at a ready instance: one transaction each, from accept to release (40_transaction_sequence.md
R79, 41_read.md R91 to R93, 42_write.md R101, R102). -/

namespace Sys2Proof.Machine

/-! ### The frame of a command -/

/-- The six bytes a command sends (30_encoding.md R56). -/
def commandBytes : Instr → Vector Byte 6
  | .rd32 a | .rd16h a | .rd16l a => #v[0x00#8, a, 0x00#8, 0x00#8, 0x00#8, 0x00#8]
  | .wr32 a v => #v[0x01#8, a, v.extractLsb' 24 8, v.extractLsb' 16 8, v.extractLsb' 8 8, v.extractLsb' 0 8]
  | .wrcmd a => #v[0x01#8, a, 0x00#8, 0x00#8, 0x00#8, 0x00#8]

/-- The roles of its six exchanges (30_encoding.md R57). -/
def commandRoles : Instr → Vector Role 6
  | .rd32 _ => #v[.opc, .adr, .data, .data, .data, .data]
  | .rd16h _ => #v[.opc, .adr, .data, .data, .fill, .fill]
  | .rd16l _ => #v[.opc, .adr, .fill, .fill, .data, .data]
  | .wr32 _ _ | .wrcmd _ => #v[.opc, .adr, .pay, .pay, .pay, .pay]

theorem commandEvents_eq (cfg : BusCfg) (rx : Received) (i : Instr) :
    commandEvents cfg rx i = frameEvents cfg (commandBytes i) (commandRoles i) rx := by
  cases i <;> rfl

/-- A vector of six is the list of its elements. -/
theorem toList_six {α : Type} (v : Vector α 6) : v.toList = [v[0], v[1], v[2], v[3], v[4], v[5]] := by
  apply List.ext_getElem
  · simp
  · intro i hi _
    simp only [Vector.length_toList] at hi
    interval_cases i <;> simp

/-- What the tables say of a command's frame. -/
theorem txByte_command (i : Instr) :
    [0, 1, 2, 3, 4, 5].map (txByte (commandOrder i).op (commandOrder i).addr (commandOrder i).wdata) =
      (commandBytes i).toList.map some := by
  have table := frameTablesAsPrinted i.addr (commandOrder i).wdata
  obtain ⟨hrd32, hrd16h, hrd16l, hwr32, hwrcmd, -⟩ := table
  cases i with
  | rd32 a => exact hrd32
  | rd16h a => exact hrd16h
  | rd16l a => exact hrd16l
  | wr32 a v => exact hwr32
  | wrcmd a => exact hwrcmd

theorem roleOf_command (i : Instr) :
    [0, 1, 2, 3, 4, 5].map (roleOf (commandOrder i).op) = (commandRoles i).toList.map some := by
  cases i <;> rfl

/-- `RXACC` after a command that received `rx` (40_transaction_sequence.md R86). -/
def commandAcc (rx : Received) : Instr → Word
  | .rd32 _ => be32 rx[2] rx[3] rx[4] rx[5]
  | .rd16h _ => be32 0#8 0#8 rx[2] rx[3]
  | .rd16l _ => be32 0#8 0#8 rx[4] rx[5]
  | .wr32 _ _ | .wrcmd _ => 0#32

theorem accumulated_command (rx : Received) (i : Instr) :
    accumulated 0#32 (commandRoles i).toList rx.toList = commandAcc rx i := by
  rw [toList_six rx]
  cases i with
  | rd32 a => exact shiftIn_four ..
  | rd16h a => exact shiftIn_two ..
  | rd16l a => exact shiftIn_two ..
  | wr32 a v => rfl
  | wrcmd a => rfl

/-- `RDATA` after a command that received `rx`: a read's result, or for a write what it was. -/
def commandRdata (rx : Received) (i : Instr) (old : Latch 32) : Latch 32 :=
  match commandResult rx i with
  | some v => .val v
  | none => old

theorem delivered_command (rx : Received) (i : Instr) (old : Latch 32) :
    delivered (commandOrder i).op (commandAcc rx i) old = commandRdata rx i old := by
  have low : ∀ b1 b0 : Byte, sext32 (half (be32 0#8 0#8 b1 b0) .low) = (b1 ++ b0 : HalfWord).signExtend 32 := by
    intro b1 b0
    rw [half_low_be32]
    rfl
  cases i with
  | rd32 a => rfl
  | rd16h a => exact congrArg Latch.val (low _ _)
  | rd16l a => exact congrArg Latch.val (low _ _)
  | wr32 a v => rfl
  | wrcmd a => rfl

/-- The engine after a command that ran to its end and received `rx` (R72, R78). -/
def Engine.completed (e : Engine) (i : Instr) (rx : Received) : Engine :=
  { e with
    op := .val (commandOrder i).op, addr := .val (commandOrder i).addr, wdata := .val (commandOrder i).wdata
    rxacc := .val (commandAcc rx i), rdata := commandRdata rx i e.rdata
    phase := .idle, idx := 6#3, csN := true, busy := false, done := true }

/-! ### The device in a transaction -/

/-- What the device of instance `k` returns when the bytes `ts` are sent to it from the start of a frame. -/
def Device.received (k : Nat) (d : Device) (c : Nat) (ts : Vector Byte 6) : Received :=
  ⟨(exchanges k d.selected c ts.toList).1.toArray, by
    rw [List.size_toArray, (exchanges_keep k ts.toList d.selected c).2.2.2.2, Vector.length_toList]⟩

theorem toList_received (k : Nat) (d : Device) (c : Nat) (ts : Vector Byte 6) :
    (d.received k c ts).toList = (exchanges k d.selected c ts.toList).1 := rfl

/-- The device after that transaction. -/
def Device.afterFrame (k : Nat) (d : Device) (c : Nat) (ts : Vector Byte 6) : Device :=
  (exchanges k d.selected c ts.toList).2.1.deselected

/-- The counter of the free values after that transaction. -/
def Device.drawsAfter (k : Nat) (d : Device) (c : Nat) (ts : Vector Byte 6) : Nat := (exchanges k d.selected c ts.toList).2.2

/-- The register bytes after an accepted command: `WR32` stores its payload in the reference device. -/
def Device.storedBy (d : Device) : Instr → Memory
  | .wr32 a v =>
    if d.reference then
      d.regs.writeSlot a (v.extractLsb' 24 8) (v.extractLsb' 16 8) (v.extractLsb' 8 8) (v.extractLsb' 0 8)
    else d.regs
  | .rd32 _ | .rd16h _ | .rd16l _ | .wrcmd _ => d.regs

/-- R46: the frame of an accepted command changes the register bytes only if it is a `WR32` to the reference device. -/
theorem afterFrame_regs (k : Nat) (d : Device) (c : Nat) {i : Instr} (hwf : i.wellFormed = true) :
    (d.afterFrame k c (commandBytes i)).regs = d.storedBy i := by
  have frame := exchanges_regs k d.selected c rfl
  cases i with
  | rd32 a => exact (frame ..).trans (if_neg fun h => by cases h.2.1)
  | rd16h a => exact (frame ..).trans (if_neg fun h => by cases h.2.1)
  | rd16l a => exact (frame ..).trans (if_neg fun h => by cases h.2.1)
  | wr32 a v =>
    refine (frame ..).trans ?_
    have hk : kindOf a = .config := (inConfigRange_iff a).mp hwf
    simp [hk, opcWrite, Device.storedBy]
  | wrcmd a =>
    have hk : kindOf a = .command := (inCommandRange_iff a).mp hwf
    exact (frame ..).trans (if_neg fun h => by simp [hk] at h)

/-- R45: what a whole transaction leaves of the device. -/
theorem afterFrame_settled (k : Nat) (d : Device) (c : Nat) {i : Instr} (hwf : i.wellFormed = true) :
    d.Settled (d.afterFrame k c (commandBytes i)) (d.storedBy i) := by
  obtain ⟨hframe, href, hfw, -, -⟩ := exchanges_keep k (commandBytes i).toList d.selected c
  exact ⟨afterFrame_regs k d c hwf, href, hfw, rfl, deselected_pointerLost_of_clean _ (by rw [hframe]; simp)⟩

/-- R44: an oracle's bytes, and any device's after an abort, are draws. -/
theorem received_draws (k : Nat) {d : Device} (c : Nat) (ts : Vector Byte 6) (h : d.reference = false ∨ d.pointerLost = true) :
    d.OracleBytes c (d.received k c ts) := by
  have hlist : (d.received k c ts).toList = (List.range 6).map (d.oracleByte c) := by
    have := exchanges_draws k ts.toList d.selected c h
    rw [Vector.length_toList] at this
    exact this
  intro i
  have := congrArg (·[i.val]?) hlist
  simpa [i.isLt] using this

/-! ### The whole command -/

/-- R79: an accepted command of a ready instance runs to its end. -/
theorem exec_ready {s : State} {n : Node} {i : Instr} (hr : s.Ready n) (hwf : i.wellFormed = true) :
    exec i s = .next (s.afterCommand n
      (n.eng.completed i (n.dev.received s.port s.draws (commandBytes i)))
      (n.dev.afterFrame s.port s.draws (commandBytes i)) (n.dev.drawsAfter s.port s.draws (commandBytes i))
      (commandEvents n.eng.busCfg (n.dev.received s.port s.draws (commandBytes i)) i)) := by
  generalize hrx : n.dev.received s.port s.draws (commandBytes i) = rx
  have hx : exchanges s.port n.dev.selected s.draws (commandBytes i).toList =
      (rx.toList, (exchanges s.port n.dev.selected s.draws (commandBytes i).toList).2) := by
    rw [← hrx]
    rfl
  have ht := txByte_command i
  have hq := roleOf_command i
  have hacc := accumulated_command rx i
  have hdev : n.dev.afterFrame s.port s.draws (commandBytes i) =
    (exchanges s.port n.dev.selected s.draws (commandBytes i).toList).2.1.deselected := rfl
  have hdraws : n.dev.drawsAfter s.port s.draws (commandBytes i) =
    (exchanges s.port n.dev.selected s.draws (commandBytes i).toList).2.2 := rfl
  rw [exec_eq_callCommand, commandEvents_eq, hdev, hdraws, Engine.completed, ← delivered_command, ← hacc]
  rw [toList_six (commandBytes i)] at ht hx ⊢
  rw [toList_six (commandRoles i)] at hq ⊢
  rw [toList_six rx] at hx ⊢
  refine (callCommand_ready hr ((cause_eq_none_iff i).mpr hwf) ht hq hx).trans ?_
  rfl

/-! ### The five commands -/

/-- Settles O26. -/
theorem rd32DeliversTheWholeSlot : Obligations.Rd32DeliversTheWholeSlot :=
  fun s n _ hr hwf => ⟨_, _, _, exec_ready hr hwf, afterFrame_settled s.port n.dev s.draws hwf, fun h =>
    received_draws s.port s.draws _ (.inl h)⟩

/-- Settles O27. -/
theorem rd16hDeliversTheFirstHalf : Obligations.Rd16hDeliversTheFirstHalf :=
  fun s n _ hr hwf => ⟨_, _, _, exec_ready hr hwf, afterFrame_settled s.port n.dev s.draws hwf, fun h =>
    received_draws s.port s.draws _ (.inl h)⟩

/-- Settles O28. -/
theorem rd16lDeliversTheSecondHalf : Obligations.Rd16lDeliversTheSecondHalf :=
  fun s n _ hr hwf => ⟨_, _, _, exec_ready hr hwf, afterFrame_settled s.port n.dev s.draws hwf, fun h =>
    received_draws s.port s.draws _ (.inl h)⟩

/-- Settles O29. -/
theorem wr32SendsItsPayload : Obligations.Wr32SendsItsPayload :=
  fun s n _ _ hr hwf => ⟨_, _, _, exec_ready hr hwf, afterFrame_settled s.port n.dev s.draws hwf, fun h =>
    received_draws s.port s.draws _ (.inl h)⟩

/-- Settles O30. -/
theorem wrcmdSendsAZeroPayload : Obligations.WrcmdSendsAZeroPayload :=
  fun s n _ hr hwf => ⟨_, _, _, exec_ready hr hwf, afterFrame_settled s.port n.dev s.draws hwf, fun h =>
    received_draws s.port s.draws _ (.inl h)⟩

end Sys2Proof.Machine
end

section
/-! PROOFS. What the reference device answers (20_memory.md R45, R46), the three reads as one transaction (41_read.md R94),
and a transport that stops answering (40_transaction_sequence.md R81). -/

namespace Sys2Proof.Machine

/-! ### The answers of the reference device -/

/-- The byte the reference device of instance `k` answers in data exchange `j` of a read of `a`, where R46 fixes it. -/
def Device.readAnswer (k : Nat) (d : Device) (a : Byte) (j : Nat) : Option Byte :=
  match kindOf a with
  | .config => some (d.regs.content k (cellKey a j))
  | .command => d.fwId.map (wireByte · j)
  | .data => none
  | .none => none

/-- After a read's opcode and address the reference device answers the data exchanges. -/
theorem fixedAnswer_of_read {k : Nat} {d : Device} {a : Byte} {taken : List Byte} (hd : d.Conforms)
    (hf : d.frame = opcRead :: a :: taken) (hl : taken.length < 4) : d.fixedAnswer k = d.readAnswer k a taken.length := by
  cases hk : kindOf a <;> simp [Device.fixedAnswer, Device.readAnswer, hk, hd.1, hd.2, hf, hl]

/-- A read frame changes no register byte. -/
theorem exchange_regs_of_read {k c : Nat} {d : Device} {a tx : Byte} {taken : List Byte}
    (hf : d.frame = opcRead :: a :: taken) : (d.exchange k tx c).dev.regs = d.regs := by
  rw [exchange_regs]
  rcases take_regs d tx with h | ⟨a', b3, b2, b1, hframe, -⟩
  · exact h
  · rw [hf] at hframe
    cases hframe

theorem exchange_conforms {k c : Nat} {d : Device} {tx : Byte} (hd : d.Conforms) : (d.exchange k tx c).dev.Conforms :=
  ⟨(exchange_reference ..).trans hd.1, (exchange_pointerLost ..).trans hd.2⟩

/-- An exchange receives the byte that R46 fixes. -/
theorem exchange_rx_of_fixed {k c : Nat} {d : Device} {tx b : Byte} (h : d.fixedAnswer k = some b) :
    (d.exchange k tx c).rx = b := by
  simp only [Device.exchange, h]

/-- The four data bytes of a read as a word. -/
def dataWord (rx : Received) : Word := be32 rx[2] rx[3] rx[4] rx[5]

/-- R94: what the three reads deliver of the same bytes. -/
theorem commandRdata_of_reads (rx : Received) (a : Byte) (old : Latch 32) :
    commandRdata rx (.rd32 a) old = .val (dataWord rx) ∧
    commandRdata rx (.rd16h a) old = .val (sext32 (half (dataWord rx) .high)) ∧
    commandRdata rx (.rd16l a) old = .val (sext32 (half (dataWord rx) .low)) := by
  refine ⟨rfl, ?_, ?_⟩
  · rw [dataWord, half_high_be32]; rfl
  · rw [dataWord, half_low_be32]; rfl

/-- The data exchanges of a read whose bytes are all fixed. -/
theorem exchanges_of_fixed {k : Nat} {a : Byte} {f : Nat → Byte} :
    ∀ (ts : List Byte) {d : Device} {c : Nat} {taken : List Byte}, d.Conforms → d.frame = opcRead :: a :: taken →
      taken.length + ts.length ≤ 4 → (∀ j, d.readAnswer k a j = some (f j)) →
      (exchanges k d c ts).1 = (List.range' taken.length ts.length).map f
  | [], _, _, _, _, _, _, _ => rfl
  | t :: ts, d, c, taken, hd, hf, hl, ha => by
    rw [List.length_cons] at hl
    have hrx : (d.exchange k t c).rx = f taken.length :=
      exchange_rx_of_fixed ((fixedAnswer_of_read hd hf (by omega)).trans (ha _))
    have hnext := exchanges_of_fixed (a := a) (f := f) ts (exchange_conforms (k := k) (c := c) (tx := t) hd)
      (taken := taken ++ [t]) (c := (d.exchange k t c).draws) (by simp [hf]) (by simp; omega)
      (fun j => by simpa only [Device.readAnswer, exchange_regs_of_read hf, exchange_fwId] using ha j)
    rw [List.length_append, List.length_singleton] at hnext
    simp only [exchanges, hrx, hnext, List.length_cons, List.range'_succ, List.map_cons]

/-- R46: the four data bytes of a read of the reference device, where they are fixed. -/
theorem received_of_fixed {k : Nat} {d : Device} {a : Byte} {f : Nat → Byte} (c : Nat) (hd : d.Conforms)
    (ha : ∀ j, d.readAnswer k a j = some (f j)) :
    dataWord (d.received k c (commandBytes (.rd32 a))) = be32 (f 0) (f 1) (f 2) (f 3) := by
  have hlist := toList_received k d c (commandBytes (.rd32 a))
  rw [toList_six] at hlist
  generalize d.received k c (commandBytes (.rd32 a)) = rx at hlist ⊢
  -- the first two exchanges put the opcode and the address on the wire
  let d1 := d.selected.exchange k 0x00#8 c
  let d2 := d1.dev.exchange k a d1.draws
  have hd2 : d2.dev.Conforms := exchange_conforms (exchange_conforms hd)
  have hf2 : d2.dev.frame = opcRead :: a :: [] := by simp [d2, d1, opcRead]
  have ha2 : ∀ j, d2.dev.readAnswer k a j = some (f j) := by
    have hregs : d2.dev.regs = d.regs := by
      simp only [d2, d1]
      rw [exchange_regs, take_regs_of_short _ _ (by simp), exchange_regs, take_regs_of_short _ _ (by simp)]
      rfl
    have hfw : d2.dev.fwId = d.fwId := by simp [d2, d1]
    intro j
    simpa only [Device.readAnswer, hregs, hfw] using ha j
  have hdata := exchanges_of_fixed [0x00#8, 0x00#8, 0x00#8, 0x00#8] (c := d2.draws) hd2 hf2 (by simp) ha2
  have hsplit : (exchanges k d.selected c (commandBytes (.rd32 a)).toList).1 =
      d1.rx :: d2.rx :: (exchanges k d2.dev d2.draws [0x00#8, 0x00#8, 0x00#8, 0x00#8]).1 := rfl
  rw [hsplit, hdata] at hlist
  have hrange : List.range' 0 4 = [0, 1, 2, 3] := rfl
  simp only [List.length_nil, List.length_cons, Nat.zero_add, Nat.reduceAdd, hrange, List.map_cons, List.cons.injEq] at hlist
  obtain ⟨-, -, h2, h3, h4, h5, -⟩ := hlist
  rw [dataWord, h2, h3, h4, h5]

/-- An exchange whose answer is not fixed receives the next draw. -/
theorem exchange_of_none {k : Nat} {d : Device} (h : d.fixedAnswer k = none) (t : Byte) (c : Nat) :
    d.exchange k t c = { d.draw c with dev := ((d.draw c).dev.take t).spend } := by
  simp only [Device.exchange, h]

/-- Where R46 fixes the answer: the reference device, its pointer defined, in a data exchange of a read of a configuration
register, or of a command register where `FW_ID` is given. -/
def Device.Fixes (d : Device) : Prop :=
  d.Conforms ∧ ∃ a taken, d.frame = opcRead :: a :: taken ∧ taken.length < 4 ∧
    (kindOf a = .config ∨ kindOf a = .command ∧ d.fwId ≠ none)

theorem fixedAnswer_eq_none {k : Nat} {d : Device} (h : ¬ d.Fixes) : d.fixedAnswer k = none := by
  by_contra hne
  obtain ⟨b, hb⟩ := Option.ne_none_iff_exists'.mp hne
  unfold Device.fixedAnswer at hb
  split at hb
  · next hconf =>
    have hconf : d.Conforms := by simpa [Device.Conforms] using hconf
    split at hb
    · next op a taken hframe =>
      split at hb
      · next hcond =>
        obtain ⟨rfl, hlen⟩ := hcond
        split at hb
        · next hk => exact h ⟨hconf, a, taken, hframe, hlen, .inl hk⟩
        · next hk => exact h ⟨hconf, a, taken, hframe, hlen, .inr ⟨hk, fun hfw => by simp [hfw] at hb⟩⟩
        · cases hb
        · cases hb
      · cases hb
    · cases hb
  · cases hb

/-- A run of exchanges none of whose answers is fixed receives draws, one after the other (20_memory.md R44). -/
theorem exchanges_of_none (k : Nat) : ∀ (ts : List Byte) (d : Device) (c : Nat),
    (∀ us vs, ts = us ++ vs → vs ≠ [] → ¬ ({ d with frame := d.frame ++ us } : Device).Fixes) →
    (exchanges k d c ts).1 = (List.range ts.length).map (d.oracleByte c)
  | [], _, _, _ => rfl
  | t :: ts, d, c, h => by
    have hnow : d.fixedAnswer k = none := fixedAnswer_eq_none (by simpa using h [] (t :: ts) rfl (by simp))
    have later : ∀ us vs, ts = us ++ vs → vs ≠ [] → ∀ d' : Device, d'.reference = d.reference →
        d'.pointerLost = d.pointerLost → d'.frame = d.frame ++ [t] → d'.fwId = d.fwId →
        ¬ ({ d' with frame := d'.frame ++ us } : Device).Fixes := by
      intro us vs hts hvs d' hr hp hf hw
      have := h (t :: us) vs (by rw [hts]; rfl) hvs
      simpa only [Device.Fixes, Device.Conforms, hr, hp, hf, hw, List.append_assoc, List.singleton_append] using this
    simp only [exchanges, List.length_cons, List.range_succ_eq_map, List.map_cons, List.map_map]
    rw [exchange_of_none hnow]
    unfold Device.draw
    cases ha : d.answers with
    | nil =>
      rw [exchanges_of_none k ts _ _ fun us vs hts hvs => later us vs hts hvs _ (by simp) (by simp) (by simp) (by simp)]
      simp [Device.oracleByte, ha, Function.comp_def, Nat.add_assoc, Nat.add_comm 1]
    | cons b bs =>
      rw [exchanges_of_none k ts _ _ fun us vs hts hvs => later us vs hts hvs _ (by simp) (by simp) (by simp) (by simp)]
      simp [Device.oracleByte, ha, Function.comp_def]

/-- A transaction none of whose answers is fixed receives draws. -/
theorem received_of_none {k : Nat} {d : Device} (c : Nat) {i : Instr}
    (h : ∀ us vs, (commandBytes i).toList = us ++ vs → vs ≠ [] → ¬ ({ d with frame := us } : Device).Fixes) :
    d.OracleBytes c (d.received k c (commandBytes i)) := by
  have hlist : (d.received k c (commandBytes i)).toList = (List.range 6).map (d.oracleByte c) := by
    have := exchanges_of_none k (commandBytes i).toList d.selected c (by simpa [Device.selected] using h)
    rw [Vector.length_toList] at this
    exact this
  intro j
  simpa [j.isLt] using congrArg (·[j.val]?) hlist

/-- The bus right after a command that ran to its end, seen from its port. -/
theorem afterCommand_here {s : State} {n : Node} (hr : s.Ready n) (e : Engine) (d : Device) (c : Nat) (es : List Event) :
    (s.afterCommand n e d c es).insts[(s.afterCommand n e d c es).port]? =
      some { n with eng := e, dev := d, verdict := some .accepted } :=
  getElem_set_self hr.here

/-- What an oracle's bytes, or draws, come to in `RDATA`. -/
theorem rdata_of_draws {d : Device} {c : Nat} {rx : Received} (h : d.OracleBytes c rx) (a : Byte) (old : Latch 32) :
    commandRdata rx (.rd32 a) old =
      .val (d.oracleByte c 2 ++ d.oracleByte c 3 ++ d.oracleByte c 4 ++ d.oracleByte c 5) := by
  have h2 : rx[2] = _ := h 2
  have h3 : rx[3] = _ := h 3
  have h4 : rx[4] = _ := h 4
  have h5 : rx[5] = _ := h 5
  simp only [commandRdata, commandResult, h2, h3, h4, h5]
  rfl

/-- Settles O42: with the pointer lost every answer is a draw, and the clean transaction restores the pointer. -/
theorem readAfterAbortIsUnconstrained : Obligations.ReadAfterAbortIsUnconstrained := by
  intro s n a hr hlost hwf
  refine ⟨_, _, exec_ready hr hwf, afterCommand_here hr _ _ _ _, ?_, (afterFrame_settled s.port n.dev s.draws hwf).pointer_ok⟩
  exact rdata_of_draws (received_draws s.port s.draws _ (.inr hlost)) a n.eng.rdata

/-- Settles O41: a given `FW_ID` is fixed byte by byte, and elsewhere outside the configuration range nothing is. -/
theorem referenceDeviceAnswersByKind : Obligations.ReferenceDeviceAnswersByKind := by
  intro s n a hr hd
  have mapped : kindOf a ≠ .none → (Instr.rd32 a).wellFormed = true := (inRanges_iff a).mpr
  refine ⟨fun v hk hfw => ?_, fun hk => ?_⟩
  · refine ⟨_, _, exec_ready hr (mapped (by simp [hk])), afterCommand_here hr _ _ _ _, ?_⟩
    have hword := received_of_fixed (k := s.port) (a := a) (f := wireByte v) s.draws hd (fun j => by simp [Device.readAnswer, hk, hfw])
    exact (commandRdata_of_reads _ a n.eng.rdata).1.trans (congrArg Latch.val (hword.trans (be32_split32 v)))
  · refine ⟨_, _, exec_ready hr (mapped ?_), afterCommand_here hr _ _ _ _, ?_⟩
    · rcases hk with hk | hk <;> simp [hk]
    refine rdata_of_draws (received_of_none s.draws fun us vs hus _ hfix => ?_) a n.eng.rdata
    obtain ⟨-, b, taken, hframe, -, hb⟩ := hfix
    obtain rfl : us = opcRead :: b :: taken := hframe
    obtain rfl : a = b := Option.some.inj (congrArg (·[1]?) hus)
    rcases hk with hk | ⟨hk, hfw⟩ <;> simp_all

/-! ### The three reads, and reading back -/

theorem sentBytes_append (es fs : List Event) : sentBytes (es ++ fs) = sentBytes es ++ sentBytes fs := by
  induction es with
  | nil => rfl
  | cons e es ih => cases e <;> simp [sentBytes, ih]

/-- A frame sends its six bytes. -/
theorem sentBytes_frameEvents (cfg : BusCfg) (tx : Vector Byte 6) (roles : Vector Role 6) (rx : Received) :
    sentBytes (frameEvents cfg tx roles rx) = tx.toList := (toList_six tx).symm

theorem sentBytes_afterCommand (s : State) (n : Node) (e : Engine) (d : Device) (c : Nat) (cfg : BusCfg) (rx : Received)
    (i : Instr) :
    sentBytes ((s.afterCommand n e d c (commandEvents cfg rx i)).trace.map Prod.snd) =
      sentBytes (s.trace.map Prod.snd) ++ (commandBytes i).toList := by
  rw [← sentBytes_frameEvents cfg (commandBytes i) (commandRoles i) rx, ← commandEvents_eq, ← sentBytes_append]
  simp [State.afterCommand, Function.comp_def]

/-- Settles O31: the three reads send the same bytes, so they receive the same. -/
theorem threeReadsAreOneTransaction : Obligations.ThreeReadsAreOneTransaction := by
  intro s n a hr hwf
  refine ⟨dataWord (n.dev.received s.port s.draws (commandBytes (.rd32 a))), _, _, _, _, _, _, exec_ready hr hwf,
    exec_ready (i := .rd16h a) hr hwf, exec_ready (i := .rd16l a) hr hwf, afterCommand_here hr _ _ _ _,
    afterCommand_here hr _ _ _ _, afterCommand_here hr _ _ _ _, ?_, ?_, ?_, rfl, rfl, ?_, ?_⟩
  · exact (commandRdata_of_reads _ a n.eng.rdata).1
  · exact (commandRdata_of_reads _ a n.eng.rdata).2.1
  · exact (commandRdata_of_reads _ a n.eng.rdata).2.2
  · rw [sentBytes_afterCommand, sentBytes_afterCommand]; rfl
  · rw [sentBytes_afterCommand, sentBytes_afterCommand]; rfl

/-- What the three reads of a mapped register deliver at a ready instance. -/
theorem reads_deliver {s : State} {n : Node} {a : Byte} {v : Word} (hr : s.Ready n) (hwf : (Instr.rd32 a).wellFormed = true)
    (hv : dataWord (n.dev.received s.port s.draws (commandBytes (.rd32 a))) = v) :
    ∃ (t th tl : State) (m mh ml : Node),
      exec (.rd32 a) s = .next t ∧ exec (.rd16h a) s = .next th ∧ exec (.rd16l a) s = .next tl ∧
      t.insts[s.port]? = some m ∧ th.insts[s.port]? = some mh ∧ tl.insts[s.port]? = some ml ∧
      m.eng.rdata = .val v ∧ mh.eng.rdata = .val (sext32 (half v .high)) ∧ ml.eng.rdata = .val (sext32 (half v .low)) := by
  have hread := commandRdata_of_reads (n.dev.received s.port s.draws (commandBytes (.rd32 a))) a n.eng.rdata
  rw [hv] at hread
  exact ⟨_, _, _, _, _, _, exec_ready hr hwf, exec_ready (i := .rd16h a) hr hwf, exec_ready (i := .rd16l a) hr hwf,
    afterCommand_here hr _ _ _ _, afterCommand_here hr _ _ _ _, afterCommand_here hr _ _ _ _, hread⟩

/-- A transport without a limit keeps answering. -/
theorem afterFrame_transport {k c : Nat} {d : Device} {ts : Vector Byte 6} (h : d.TransportAnswers) :
    (d.afterFrame k c ts).TransportAnswers := by
  have run : ∀ (l : List Byte) (d : Device) (c : Nat), d.answersLeft = none → (exchanges k d c l).2.1.answersLeft = none := by
    intro l
    induction l with
    | nil => exact fun d c h => h
    | cons t l ih => exact fun d c h => ih _ _ (by rw [exchange_answersLeft, h]; rfl)
  exact run ts.toList d.selected c h

theorem answersSix_of_transport {d : Device} (h : d.TransportAnswers) : d.answersSix = true := by
  rw [Device.answersSix, show d.answersLeft = none from h]

/-- The bus from `s`, ready at instance `n`, to `t`, ready there again at `m`, by the command `i`. -/
structure State.Completes (i : Instr) (s : State) (n : Node) (t : State) (m : Node) : Prop where
  ready : t.Ready m
  port : t.port = s.port
  agenda : t.agenda = s.agenda
  eng : m.eng = n.eng.completed i (n.dev.received s.port s.draws (commandBytes i))
  dev : m.dev = n.dev.afterFrame s.port s.draws (commandBytes i)
  transport : m.dev.TransportAnswers
  verdict : m.verdict = some .accepted
  replies : m.replies = n.replies
  draws : t.draws = n.dev.drawsAfter s.port s.draws (commandBytes i)
  trace : t.trace = s.trace ++
    (commandEvents n.eng.busCfg (n.dev.received s.port s.draws (commandBytes i)) i).map fun e => (s.port, e)

/-- R79: an accepted command of a ready instance whose transport answers ends with the instance ready again. -/
theorem exec_completes {s : State} {n : Node} {i : Instr} (hr : s.Ready n) (htr : n.dev.TransportAnswers)
    (hwf : i.wellFormed = true) : ∃ (t : State) (m : Node), exec i s = .next t ∧ s.Completes i n t m := by
  have htr' := afterFrame_transport (k := s.port) (c := s.draws) (ts := commandBytes i) htr
  exact ⟨_, _, exec_ready hr hwf, ⟨afterCommand_here hr _ _ _ _, rfl, rfl, answersSix_of_transport htr'⟩, rfl, rfl, rfl, rfl,
    htr', rfl, rfl, rfl, rfl⟩

/-- The reference device holds what was stored in a slot. -/
theorem content_writeSlot (m : Memory) (k : Nat) (a b3 b2 b1 b0 : Byte) :
    be32 ((m.writeSlot a b3 b2 b1 b0).content k (cellKey a 0)) ((m.writeSlot a b3 b2 b1 b0).content k (cellKey a 1))
      ((m.writeSlot a b3 b2 b1 b0).content k (cellKey a 2)) ((m.writeSlot a b3 b2 b1 b0).content k (cellKey a 3)) =
      be32 b3 b2 b1 b0 := by
  obtain ⟨h3, h2, h1, h0⟩ := read_writeSlot_same m a b3 b2 b1 b0
  simp only [Memory.content, h3, h2, h1, h0, Option.getD_some]

/-- Settles O40: the write leaves the payload in the slot, and a read of the slot receives it byte by byte. -/
theorem referenceDeviceReadsBackWhatWasWritten : Obligations.ReferenceDeviceReadsBackWhatWasWritten := by
  intro s n a v hr htransport hd hk
  have hwrite : (Instr.wr32 a v).wellFormed = true := (inConfigRange_iff a).mpr hk
  have hread : (Instr.rd32 a).wellFormed = true := (inRanges_iff a).mpr (by simp [hk])
  obtain ⟨t, m, hexec, hc⟩ := exec_completes hr htransport hwrite
  have hsettled : n.dev.Settled m.dev _ := hc.dev ▸ afterFrame_settled s.port n.dev s.draws hwrite
  have hconf : m.dev.Conforms := ⟨hsettled.reference_eq.trans hd.1, hsettled.pointer_ok⟩
  have hregs : m.dev.regs = n.dev.regs.writeSlot a (wireByte v 0) (wireByte v 1) (wireByte v 2) (wireByte v 3) :=
    hsettled.regs_eq.trans (if_pos hd.1)
  have hword : dataWord (m.dev.received t.port t.draws (commandBytes (.rd32 a))) = v := by
    rw [received_of_fixed (a := a) (f := fun j => m.dev.regs.content t.port (cellKey a j)) t.draws hconf
      fun j => by rw [Device.readAnswer, hk], hregs, content_writeSlot, be32_split32]
  obtain ⟨u, uh, ul, p, ph, pl, h⟩ := reads_deliver hc.ready hread hword
  rw [hc.port] at h
  exact ⟨t, u, uh, ul, p, ph, pl, hexec, h⟩

/-! ### A transport that stops answering -/

/-- Acquire and select of an accepted command on a free bus. -/
theorem callCommand_selected {o : Order} {s : State} {n : Node} (hn : s.insts[s.port]? = some n)
    (hi : n.eng.phase = .idle) (hb : s.busOwner = none) (hc : o.cause = .none) :
    callCommand o s = ticks s.port 14 (flight s s.port { n with verdict := some .accepted }
      { n.eng.accept o with phase := .exch, csN := false } n.dev.selected s.draws
      [(s.port, .beginScope n.eng.busCfg), (s.port, .csLow)]) := by
  have hk : s.port < s.insts.length := (List.getElem?_eq_some_iff.mp hn).1
  have h1 : (s.accept s.port n o).insts[s.port]? = some (n.accepted o) := getElem_set_self hn
  rw [callCommand_accepted hn hi hc, stepsAfterAccept, ticks_succ_of_next (tick_of_steps h1 (.acquire rfl hb))]
  have h2 : ((((s.accept s.port n o).putNode s.port ((n.accepted o).setEng { (n.accepted o).eng with phase := .select })).own
      (some s.port)).emit s.port (.beginScope (n.accepted o).eng.busCfg)).insts[s.port]? =
      some ((n.accepted o).setEng { (n.accepted o).eng with phase := .select }) := by
    simp [State.accept, hk]
  rw [ticks_succ_of_next (tick_of_steps h2 (.select rfl))]
  congr 1
  simp [flight, State.accept, State.putNode, State.emit, State.own, Node.accepted, Node.setEng]

/-- A transport with `r` answers left carries an instance in `EXCH` through `r` exchanges, and there it stays. -/
theorem ticks_hung {s : State} {k : Nat} {n : Node} (hk : k < s.insts.length) :
    ∀ (r m : Nat) {e : Engine} {d : Device} {c : Nat} {tr : List (Nat × Event)} {op : BitVec 3} {a : Byte} {wd acc : Word},
      e.phase = .exch → e.op = .val op → e.addr = .val a → e.wdata = .val wd → e.rxacc = .val acc →
      opLatched (.val op) = true → d.answersLeft = some r → e.idx.toNat + r ≤ 5 →
      ∃ (e' : Engine) (d' : Device) (c' : Nat) (tr' : List (Nat × Event)),
        ticks k (2 * r + m) (flight s k n e d c tr) = .next (flight s k n e' d' c' tr') ∧ e'.phase = .exch ∧
        e'.idx.toNat = e.idx.toNat + r ∧ e'.busy = e.busy ∧ e'.done = e.done ∧ e'.csN = e.csN ∧ e'.rdata = e.rdata ∧
        tr'.length = tr.length + 2 * r
  | 0, m, e, d, c, tr, op, a, wd, acc, hp, _, _, _, _, _, hl, _ =>
    ⟨e, d, c, tr, ticks_of_waits (flight_here hk ..) (.noAnswer hp ((canAnswer_eq_false_iff d).mpr hl)) _, hp, rfl, rfl, rfl,
      rfl, rfl, rfl⟩
  | r + 1, m, e, d, c, tr, op, a, wd, acc, hp, hop, ha, hwd, hacc, hlatched, hl, hidx => by
    obtain ⟨role, hrole⟩ := roleOf_of_latched hlatched (i := e.idx.toNat) (by omega)
    obtain ⟨tx, htx⟩ := txByte_of_le op a wd (i := e.idx.toNat) (by omega)
    have hcan : d.canAnswer = true := (canAnswer_iff d).mpr (by simp [hl])
    have hsucc : (e.idx + 1#3).toNat = e.idx.toNat + 1 := idx_succ (by omega)
    have hstep := ticks_exchange (m := 2 * r + m) (tr := tr) (c := c) (n := n) rfl hk hp hcan hop ha hwd hacc hrole htx (by omega)
    obtain ⟨e', d', c', tr', ht, hp', hi', hb, hd, hcs, hr, hlen⟩ := ticks_hung hk r m
      (e := { e with rxacc := .val (accumulate role acc (d.exchange k tx c).rx), idx := e.idx + 1#3,
                     phase := if e.idx.toNat ≤ 4 then .exch else .deselect })
      (c := (d.exchange k tx c).draws) (d := (d.exchange k tx c).dev)
      (tr := tr ++ [(k, .xfer e.idx.toNat role tx (d.exchange k tx c).rx), (k, .gap)])
      (if_pos (by omega)) hop ha hwd rfl hlatched (by simp [hl]) (by simp only [hsucc]; omega)
    refine ⟨e', d', c', tr', ?_, hp', by rw [hi', hsucc]; omega, hb, hd, hcs, hr, by rw [hlen]; simp; omega⟩
    rw [show 2 * (r + 1) + m = 2 * r + m + 2 by omega, hstep, ht]

/-- Every command latches one of the five codes. -/
theorem opLatched_command (i : Instr) : opLatched (.val (commandOrder i).op) = true := by cases i <;> rfl

/-- Settles O35: after acquire and select the instance is in `EXCH`, and `ticks_hung` takes it as far as the transport goes. -/
theorem hungCallStopsWithSelectLow : Obligations.HungCallStopsWithSelectLow := by
  intro s n i l hn hi hwf hb hl hl6
  have hk : s.port < s.insts.length := (List.getElem?_eq_some_iff.mp hn).1
  obtain ⟨e', d', c', tr', ht, hp, hidx, hbusy, hdone, hcs, hrdata, hlen⟩ := ticks_hung (s := s)
    (n := { n with verdict := some .accepted }) (k := s.port) hk l (14 - 2 * l)
    (e := { n.eng.accept (commandOrder i) with phase := .exch, csN := false }) (d := n.dev.selected) (c := s.draws)
    (tr := [(s.port, .beginScope n.eng.busCfg), (s.port, .csLow)]) rfl rfl rfl rfl rfl (opLatched_command i) hl
    (by simp; omega)
  have hexec : exec i s = _ :=
    (exec_eq_callCommand i s).trans (callCommand_selected hn hi hb ((cause_eq_none_iff i).mpr hwf))
  rw [show 2 * l + (14 - 2 * l) = 14 by omega, ← hexec] at ht
  refine ⟨_, _, ht, flight_here hk _ _ _ _ _, hp, by simpa using hidx, hbusy, hdone, hcs, hrdata, rfl, ?_⟩
  simp [flight, hlen]
  omega

end Sys2Proof.Machine
end

section
/-! PROOFS. Runs of blocking calls at a ready instance: each command ends in one step, and the host's copies
(40_transaction_sequence.md R89, 41_read.md R95, 43_compose_decode.md R136). -/

namespace Sys2Proof.Machine

/-! ### Runs put together -/

/-- A run goes on from where it has come to. -/
theorem steps_add {a b : Nat} {s t : State} (h : steps a s = .next t) : steps (a + b) s = steps b t := by
  induction a generalizing s with
  | zero => cases h; rw [Nat.zero_add]
  | succ a ih =>
    obtain ⟨u, hu, h⟩ := andThen_next h
    rw [Nat.add_right_comm, steps, hu, andThen_of_next, ih h]

theorem steps_one {s t : State} (h : step s = .next t) : steps 1 s = .next t := by
  rw [steps, h]; rfl

/-- The last command of the host has been answered: rejected, or accepted and done (R89). -/
def Node.Answered (n : Node) : Prop := n.verdict = some .rejected ∨ n.verdict = some .accepted ∧ n.eng.done = true

/-- R89: a run has ended where nothing is to be submitted and the last command has been answered. -/
theorem runEnded_of {s : State} {k : Nat} {n : Node} (ha : ∀ x ∈ s.agenda, x.who = k → x.act.submits = false)
    (hn : s.insts[k]? = some n) (hi : n.eng.phase = .idle) (hd : n.Answered) : s.runEnded k = true := by
  have hnone : (s.agenda.any fun m => m.who == k && m.act.submits) = false := by
    rw [List.any_eq_false]
    intro x hx
    by_cases hk : x.who = k
    · simp [ha x hx hk]
    · simp [hk]
  rcases hd with hd | ⟨hv, hd⟩
  · simp [State.runEnded, hnone, hn, hi, hd]
  · simp [State.runEnded, hnone, hn, hi, hv, hd]

/-- A run with a command still to be submitted has not ended. -/
theorem runEnded_of_submit {s : State} {m : Move} (hm : m ∈ s.agenda) (hs : m.act.submits = true) : s.runEnded m.who = false := by
  have hany : (s.agenda.any fun x => x.who == m.who && x.act.submits) = true :=
    List.any_eq_true.mpr ⟨m, hm, by simp [hs]⟩
  simp [State.runEnded, hany]

/-! ### A run of calls -/

theorem length_commandEvents (cfg : BusCfg) (rx : Received) (i : Instr) : (commandEvents cfg rx i).length = 16 := by
  rw [commandEvents_eq]; rfl

/-- A ready instance stays ready when a move is taken off the agenda. -/
theorem State.Ready.begin {s : State} {n : Node} (hr : s.Ready n) (act : Act) (rest : List Move) :
    (s.begin ⟨s.port, act⟩ rest).Ready n :=
  ⟨hr.here, hr.idle, hr.bus_free, hr.answers⟩

/-- One call of a run at a ready instance whose transport answers. -/
structure State.Called (i : Instr) (s : State) (n : Node) (t : State) (m : Node) : Prop where
  ready : t.Ready m
  transport : m.dev.TransportAnswers
  port : t.port = s.port
  answered : m.Answered
  trace : t.trace.length = s.trace.length + 16 * [i].countP Instr.wellFormed
  err : m.eng.err = (n.eng.err || !i.wellFormed)

/-- A call at a ready instance ends in one step: its command runs to its end, or is rejected. -/
theorem step_called {s : State} {n : Node} {i : Instr} {rest : List Move} (hr : s.Ready n) (htr : n.dev.TransportAnswers)
    (ha : s.agenda = ⟨s.port, .call (encode i)⟩ :: rest) :
    ∃ (t : State) (m : Node), step s = .next t ∧ t.agenda = rest ∧ s.Called i n t m := by
  have hr' := hr.begin (.call (encode i)) rest
  rw [step_of_call ha hr.here hr.idle (decode_encode i)]
  cases hwf : i.wellFormed with
  | true =>
    obtain ⟨t, m, he, hc⟩ := exec_completes hr' htr hwf
    refine ⟨t, m, he, hc.agenda, hc.ready, hc.transport, hc.port, .inr ⟨hc.verdict, by rw [hc.eng]; rfl⟩, ?_, ?_⟩
    · simp [hc.trace, length_commandEvents, hwf]
    · simp [hc.eng, Engine.completed, hwf]
  | false =>
    refine ⟨_, n.rejected (commandOrder i).cause, (exec_eq_callCommand ..).trans
      (callCommand_rejected hr'.here hr'.idle (cause_ne_none_of_rejected hwf)), rfl,
      ⟨getElem_set_self hr.here, hr.idle, hr.bus_free, hr.answers⟩, htr, rfl, .inl rfl, ?_, ?_⟩
    · simp [State.reject, hwf]
    · simp [Node.rejected, hwf]

/-- R89: a run of calls ends after as many steps as it has commands. -/
theorem run_of_calls : ∀ (l : List Instr) {s : State} {n : Node} {rest : List Move}, s.Ready n → n.dev.TransportAnswers →
    s.agenda = script s.port l ++ rest →
    ∃ (t : State) (m : Node), steps l.length s = .next t ∧ t.Ready m ∧ t.port = s.port ∧ t.agenda = rest ∧
      (n.Answered ∨ l ≠ [] → m.Answered) ∧ t.trace.length = s.trace.length + 16 * l.countP Instr.wellFormed ∧
      m.eng.err = (n.eng.err || l.any fun i => !i.wellFormed)
  | [], s, n, rest, hr, _, ha => ⟨s, n, rfl, hr, rfl, ha, by simp, by simp, by simp⟩
  | i :: l, s, n, rest, hr, htr, ha => by
    obtain ⟨u, p, hu, hua, hc⟩ := step_called (rest := script s.port l ++ rest) hr htr ha
    obtain ⟨t, m, ht, hr', hport, hrest, hans, htrace, herr⟩ :=
      run_of_calls l hc.ready hc.transport (by rw [hc.port]; exact hua)
    refine ⟨t, m, ?_, hr', hport.trans hc.port, hrest, fun _ => hans (.inl hc.answered), ?_, ?_⟩
    · rw [List.length_cons, steps, hu, andThen_of_next, ht]
    · have hcount := List.countP_append (p := Instr.wellFormed) (l₁ := [i]) (l₂ := l)
      rw [List.singleton_append] at hcount
      rw [htrace, hc.trace, hcount]
      omega
    · rw [herr, hc.err, List.any_cons, Bool.or_assoc]

/-! ### A run of commands with the host's copies -/

/-- The bytes an oracle returns from here on are those of `d` after the `i`-th. -/
def Device.Follows (d : Device) (c i : Nat) (d' : Device) (c' : Nat) : Prop :=
  d'.reference = false ∧ ∀ j, d'.oracleByte c' j = d.oracleByte c (i + j)

/-- After a frame an oracle has returned six bytes. -/
theorem follows_afterFrame {k c : Nat} {d : Device} (ts : Vector Byte 6) (h : d.reference = false) :
    d.Follows c 6 (d.afterFrame k c ts) (d.drawsAfter k c ts) := by
  obtain ⟨-, href, -⟩ := exchanges_keep k ts.toList d.selected c
  obtain ⟨hans, hdraws⟩ := exchanges_left k ts.toList d.selected c (.inl h)
  rw [Vector.length_toList] at hans hdraws
  refine ⟨href.trans h, fun j => ?_⟩
  have hlater := oracleByte_later d (d.afterFrame k c ts) c 6 j hans
  rwa [show d.drawsAfter k c ts = c + (6 - d.answers.length) from hdraws]

/-- What a list of commands with its copies leaves: the instance ready, its frames in the trace, its copies with the host. -/
structure State.Fetched (l : List (Fetch × Received)) (s : State) (n : Node) (t : State) (m : Node) : Prop where
  ready : t.Ready m
  transport : m.dev.TransportAnswers
  port : t.port = s.port
  err : m.eng.err = n.eng.err
  busCfg : m.eng.busCfg = n.eng.busCfg
  replies : m.replies = n.replies ++ fetchCopies l
  trace : t.trace = s.trace ++ (fetchEvents n.eng.busCfg l).map fun e => (s.port, e)
  oracle : n.dev.reference = false → n.dev.Follows s.draws (6 * l.length) m.dev t.draws ∧
    ∀ (q : Nat) (p : Fetch × Received), l[q]? = some p → ∀ i : Fin 6, p.2[i] = n.dev.oracleByte s.draws (6 * q + i.val)

theorem State.Fetched.nil {s : State} {n : Node} (hr : s.Ready n) (htr : n.dev.TransportAnswers) : s.Fetched [] n s n :=
  ⟨hr, htr, rfl, rfl, rfl, by simp [fetchCopies], by simp [fetchEvents],
    fun h => ⟨⟨h, fun j => by simp⟩, fun q p hq => by simp at hq⟩⟩

theorem State.Fetched.trans {l l' : List (Fetch × Received)} {s t u : State} {n m p : Node} (h : s.Fetched l n t m)
    (h' : t.Fetched l' m u p) : s.Fetched (l ++ l') n u p where
  ready := h'.ready
  transport := h'.transport
  port := h'.port.trans h.port
  err := h'.err.trans h.err
  busCfg := h'.busCfg.trans h.busCfg
  replies := by rw [h'.replies, h.replies, List.append_assoc]; simp [fetchCopies]
  trace := by rw [h'.trace, h.trace, h.busCfg, h.port, List.append_assoc]; simp [fetchEvents]
  oracle hd := by
    obtain ⟨⟨hm, hlater⟩, hbytes⟩ := h.oracle hd
    obtain ⟨⟨hp, hlater'⟩, hbytes'⟩ := h'.oracle hm
    refine ⟨⟨hp, fun j => ?_⟩, fun q x hx i => ?_⟩
    · rw [hlater', hlater, List.length_append]
      congr 1
      omega
    · by_cases hq : q < l.length
      · rw [List.getElem?_append_left hq] at hx
        exact hbytes q x hx i
      · rw [List.getElem?_append_right (by omega)] at hx
        rw [hbytes' _ x hx i, hlater]
        congr 1
        omega

/-- The host of an idle instance whose command is done copies its result. -/
theorem step_copies {s : State} {n : Node} {v : Word} {rest : List Move} (hr : s.Ready n)
    (ha : s.agenda = ⟨s.port, .collect⟩ :: rest) (hv : n.verdict = some .accepted) (hd : n.eng.done = true)
    (hres : n.eng.rdata = .val v) :
    step s = .next ((s.begin ⟨s.port, .collect⟩ rest).answer s.port n (.rdata v)) := by
  have hb : (s.begin ⟨s.port, .collect⟩ rest).insts[s.port]? = some n := hr.here
  rw [step_of_collect ha hr.here hr.idle, collect_of_result hb ((hasResult_iff n).mpr ⟨hv, hd⟩), readRdata_val hb hres]

/-- The copy leaves a ready instance ready. -/
theorem ready_answer {s : State} {n : Node} (hr : s.Ready n) (act : Act) (rest : List Move) (r : Reply) :
    ((s.begin ⟨s.port, act⟩ rest).answer s.port n r).Ready { n with replies := n.replies ++ [r] } :=
  ⟨getElem_set_self hr.here, hr.idle, hr.bus_free, hr.answers⟩

/-- A read delivers a result, and a write none. -/
theorem isRead_iff_result (f : Fetch) (rx : Received) : f.isRead = true ↔ ∃ v, commandResult rx f.cmd = some v := by
  obtain ⟨i, kind⟩ := f
  cases i <;> simp [Fetch.isRead, commandResult]

/-- The move by which the host copies the result of a read. -/
def copyMoves (k : Nat) (f : Fetch) : List Move := if f.isRead then [⟨k, .collect⟩] else []

theorem fetchMoves_cons (k : Nat) (f : Fetch) (l : List Fetch) :
    fetchMoves k (f :: l) = ⟨k, .call (encode f.cmd)⟩ :: (copyMoves k f ++ fetchMoves k l) := rfl

/-- One command and, after a read, its copy. -/
theorem State.Completes.fetched {f : Fetch} {s t : State} {n m : Node} {rest : List Move}
    (hc : s.Completes f.cmd n t m) (ha : t.agenda = copyMoves s.port f ++ rest) :
    ∃ (u : State) (p : Node), steps (copyMoves s.port f).length t = .next u ∧
      u.agenda = rest ∧ s.Fetched [(f, n.dev.received s.port s.draws (commandBytes f.cmd))] n u p := by
  have horacle : n.dev.reference = false → n.dev.Follows s.draws (6 * 1) m.dev t.draws ∧
      ∀ (q : Nat) (p : Fetch × Received), [(f, n.dev.received s.port s.draws (commandBytes f.cmd))][q]? = some p →
        ∀ i : Fin 6, p.2[i] = n.dev.oracleByte s.draws (6 * q + i.val) := by
    intro hd
    refine ⟨hc.dev ▸ hc.draws ▸ follows_afterFrame _ hd, fun q p hq i => ?_⟩
    cases q with
    | zero =>
      obtain rfl := Option.some.inj hq
      simpa using received_draws s.port s.draws (commandBytes f.cmd) (.inl hd) i
    | succ q => simp at hq
  have htrace : t.trace = s.trace ++
      (fetchEvents n.eng.busCfg [(f, n.dev.received s.port s.draws (commandBytes f.cmd))]).map fun e => (s.port, e) := by
    simp [hc.trace, fetchEvents]
  have hcfg : m.eng.err = n.eng.err ∧ m.eng.busCfg = n.eng.busCfg := by rw [hc.eng]; exact ⟨rfl, rfl⟩
  generalize hrx : n.dev.received s.port s.draws (commandBytes f.cmd) = rx at horacle htrace
  cases hread : f.isRead with
  | false =>
    have hres : commandResult rx f.cmd = none := by
      rw [Option.eq_none_iff_forall_ne_some]
      intro v hv
      simp [(isRead_iff_result f rx).mpr ⟨v, hv⟩] at hread
    rw [copyMoves, hread] at ha
    refine ⟨t, m, by rw [copyMoves, hread]; rfl, ha, hc.ready, hc.transport, hc.port, hcfg.1, hcfg.2, ?_, htrace, horacle⟩
    simp [hc.replies, fetchCopies, hres]
  | true =>
    obtain ⟨v, hv⟩ := (isRead_iff_result f rx).mp hread
    have hrdata : m.eng.rdata = .val v := by simp [hc.eng, Engine.completed, commandRdata, hrx, hv]
    rw [copyMoves, hread, ← hc.port] at ha
    have hstep := step_copies hc.ready ha hc.verdict (by rw [hc.eng]; rfl) hrdata
    refine ⟨_, _, by rw [copyMoves, hread]; exact steps_one hstep, rfl, ready_answer hc.ready .collect rest _,
      hc.transport, hc.port, hcfg.1, hcfg.2, ?_, htrace, horacle⟩
    simp [hc.replies, fetchCopies, hv]

/-- R95: a list of accepted commands at a ready instance, each with its copy, ends after its moves. -/
theorem run_of_fetches : ∀ (l : List Fetch) {s : State} {n : Node} {rest : List Move}, s.Ready n → n.dev.TransportAnswers →
    (∀ f ∈ l, f.cmd.wellFormed = true) → s.agenda = fetchMoves s.port l ++ rest →
    ∃ (rxs : List Received) (t : State) (m : Node), rxs.length = l.length ∧
      steps (fetchMoves s.port l).length s = .next t ∧ t.agenda = rest ∧ s.Fetched (l.zip rxs) n t m
  | [], s, n, rest, hr, htr, _, ha => ⟨[], s, n, rfl, rfl, ha, .nil hr htr⟩
  | f :: l, s, n, rest, hr, htr, hwf, ha => by
    rw [fetchMoves_cons] at ha ⊢
    -- the command
    have hr' := hr.begin (.call (encode f.cmd)) (copyMoves s.port f ++ fetchMoves s.port l ++ rest)
    obtain ⟨u, p, hu, hc⟩ := exec_completes hr' htr (hwf f (by simp))
    have hstep := (step_of_call ha hr.here hr.idle (decode_encode f.cmd)).trans hu
    -- its copy
    obtain ⟨v, x, hv, hvrest, hx⟩ := hc.fetched (rest := fetchMoves s.port l ++ rest)
      (hc.agenda.trans (List.append_assoc ..))
    have hv : steps (copyMoves s.port f).length u = .next v := hv
    have hx' : s.Fetched [(f, n.dev.received s.port s.draws (commandBytes f.cmd))] n v x :=
      ⟨hx.ready, hx.transport, hx.port, hx.err, hx.busCfg, hx.replies, hx.trace, hx.oracle⟩
    -- the rest of the list
    obtain ⟨rxs, t, m, hlen, ht, hrest, hm⟩ := run_of_fetches l hx.ready hx.transport
      (fun g hg => hwf g (List.mem_cons_of_mem f hg)) (by rw [hx.port]; exact hvrest)
    refine ⟨_ :: rxs, t, m, by simp [hlen], ?_, hrest, hx'.trans hm⟩
    rw [List.length_cons, List.length_append, Nat.add_comm, steps_add (steps_one hstep), steps_add hv, ← ht, hx.port]
    rfl

end Sys2Proof.Machine
end

section
/-! PROOFS. Runs on a contended bus: the owner of the bus ends its transaction, the instance that waits comes to take the
bus, and its command runs to its end (40_transaction_sequence.md R89, 60_exceptions.md R153, R154). -/

namespace Sys2Proof.Machine

/-! ### A bus that stays live -/

/-- The bus meets the invariant, and every transport answers. -/
structure State.Live (s : State) : Prop where
  inv : s.Inv
  transports : s.TransportsAnswer

/-- Putting back an instance whose transport answers. -/
theorem State.TransportsAnswer.put {s t : State} {k : Nat} {n m : Node} (h : s.TransportsAnswer) (hn : s.insts[k]? = some n)
    (hi : t.insts = s.insts.set k m) (hm : n.dev.TransportAnswers → m.dev.TransportAnswers) : t.TransportsAnswer := by
  intro j x hx
  rw [hi] at hx
  by_cases hj : j = k
  · subst hj
    obtain rfl : m = x := Option.some.inj ((getElem_set_self hn).symm.trans hx)
    exact hm (h j n hn)
  · rw [getElem_set_other m hj] at hx
    exact h j x hx

/-- No step of an instance makes a transport fall silent that answers every exchange. -/
theorem State.TransportsAnswer.steps {s t : State} {k : Nat} {n : Node} (h : s.TransportsAnswer) (hn : s.insts[k]? = some n)
    (hs : Steps k n s t) : t.TransportsAnswer := by
  cases hs with
  | exch hp hc op a wd acc role tx =>
    exact h.put hn rfl fun hd => (exchange_answersLeft ..).trans (congrArg (Option.map (· - 1)) hd)
  | acquire hp | select hp | gap hp | deselect hp | releaseRead hp | releaseWrite hp => exact h.put hn rfl id

theorem movesKeep_live : MovesKeep State.Live where
  begin _ _ _ h := ⟨stepKeeps_inv.begin _ _ _ h.inv, h.transports⟩
  choice s h := ⟨stepKeeps_inv.choice s h.inv, fun k n hn => h.transports k n (by rwa [afterChoice_insts] at hn)⟩
  steps _ _ _ _ h hn hs := ⟨h.inv.steps hn hs, h.transports.steps hn hs⟩
  accept _ _ _ _ h hn hi := ⟨stepKeeps_inv.accept _ _ _ _ h.inv hn hi, h.transports.put hn rfl id⟩
  reject _ _ _ _ h hn hi := ⟨stepKeeps_inv.reject _ _ _ _ h.inv hn hi, h.transports.put hn rfl id⟩
  answer _ _ _ _ h hn := ⟨stepKeeps_inv.answer _ _ _ _ h.inv hn, h.transports.put hn rfl id⟩
  write _ _ _ _ _ h hn hi hw := ⟨stepKeeps_inv.write _ _ _ _ _ h.inv hn hi hw, h.transports.put hn rfl id⟩

theorem State.Live.after_tick {s t : State} {k : Nat} (h : s.Live) (ht : tick k s = .next t) : t.Live := movesKeep_live.tick h ht

theorem State.Live.after_ticks {s t : State} {k m : Nat} (h : s.Live) (ht : ticks k m s = .next t) : t.Live :=
  ticks_keep (fun _ _ hu hv => hu.after_tick hv) m h ht

/-! ### A bus whose next move is held -/

/-- Nothing is to come but moves that the host of instance `k` holds while that is busy. -/
def State.HeldBy (s : State) (k : Nat) : Prop :=
  s.agenda = [] ∨ ∃ act rest, s.agenda = ⟨k, act⟩ :: rest ∧ act.held = true

theorem State.HeldBy.congr {s t : State} {k : Nat} (h : s.HeldBy k) (ha : t.agenda = s.agenda) : t.HeldBy k := by
  rwa [State.HeldBy, ha]

theorem busyAt_iff {s : State} {k : Nat} : s.busyAt k = true ↔ ∃ n, s.insts[k]? = some n ∧ n.eng.phase ≠ .idle := by
  unfold State.busyAt
  cases s.insts[k]? <;> simp

/-- While instance `k` is busy, a step is the passing of time. -/
theorem State.HeldBy.step {s : State} {k : Nat} (h : s.HeldBy k) (hb : s.busyAt k = true) : step s = advance s := by
  rcases h with ha | ⟨act, rest, ha, hact⟩
  · exact step_of_nil ha
  · obtain ⟨n, hn, hp⟩ := busyAt_iff.mp hb
    exact step_of_held (m := ⟨k, act⟩) ha hact hn hp

/-- From `s` to `u` other instances alone have moved, and the arbiter has made `d` choices. -/
structure State.Passes (k d : Nat) (s u : State) : Prop where
  agenda : u.agenda = s.agenda
  port : u.port = s.port
  length : u.insts.length = s.insts.length
  here : u.insts[k]? = s.insts[k]?
  choice : ∀ x, u.choice x = s.choice (x + d)
  trace : ∃ es : List (Nat × Event), (∀ e ∈ es, e.1 ≠ k) ∧ u.trace = s.trace ++ es

theorem State.Passes.refl (k : Nat) (s : State) : s.Passes k 0 s := ⟨rfl, rfl, rfl, rfl, fun _ => rfl, [], by simp, by simp⟩

theorem State.Passes.trans {k d d' : Nat} {s u v : State} (h : s.Passes k d u) (h' : u.Passes k d' v) :
    s.Passes k (d' + d) v where
  agenda := h'.agenda.trans h.agenda
  port := h'.port.trans h.port
  length := h'.length.trans h.length
  here := h'.here.trans h.here
  choice x := by rw [h'.choice, h.choice, Nat.add_assoc]
  trace := by
    obtain ⟨es, hes, ht⟩ := h.trace
    obtain ⟨es', hes', ht'⟩ := h'.trace
    exact ⟨es ++ es', fun e he => (List.mem_append.mp he).elim (hes e) (hes' e), by rw [ht', ht, List.append_assoc]⟩

theorem State.Passes.busy {k d : Nat} {s u : State} (h : s.Passes k d u) : u.busyAt k = s.busyAt k := by
  simp only [State.busyAt, h.here]

theorem passes_afterChoice (k : Nat) (s : State) : s.Passes k 1 s.afterChoice :=
  ⟨by simp, by simp, by simp, by simp, by simp, [], by simp, by simp⟩

/-- A step of an instance adds one event of it. -/
theorem steps_event {s t : State} {k : Nat} {n : Node} (h : Steps k n s t) : ∃ e, t.trace = s.trace ++ [(k, e)] := by
  cases h <;> exact ⟨_, rfl⟩

theorem passes_tick {j k : Nat} {s t : State} (hj : j ≠ k) (h : tick j s = .next t) : s.Passes k 0 t := by
  have ht := tick_touches h
  obtain ⟨ha, hp⟩ := tick_agenda_port h
  refine ⟨ha, hp, ht.length, ht.other k hj.symm, tick_choice h, ?_⟩
  obtain ⟨n, -, ⟨-, rfl⟩ | hs⟩ := tick_next h
  · exact (State.Passes.refl k t).trace
  · obtain ⟨e, he⟩ := steps_event hs
    exact ⟨[(j, e)], by simp [hj], he⟩

theorem passes_ticks {j k m : Nat} {s t : State} (hj : j ≠ k) (h : ticks j m s = .next t) : s.Passes k 0 t :=
  ticks_keep (P := s.Passes k 0) (fun _ _ hu hv => hu.trans (passes_tick hj hv)) m (.refl k s) h

/-! ### The owner of the bus ends its transaction -/

/-- How many of its own steps an instance has to take until it is idle (R79). -/
def Engine.remaining (e : Engine) : Nat :=
  match e.phase with
  | .idle => 0
  | .acquire => 16
  | .select => 15
  | .exch => 2 * (6 - e.idx.toNat) + 2
  | .gap => 2 * (6 - e.idx.toNat) + 1
  | .deselect => 2
  | .release => 1

/-- A step of the owner of the bus is one step less to take; the last frees the bus. -/
theorem State.Inv.owner_step {s t : State} {j : Nat} {p : Node} (h : s.Inv) (hp : s.insts[j]? = some p)
    (hb : s.busOwner = some j) (hs : Steps j p s t) :
    ∃ m, t.insts[j]? = some m ∧ m.eng.remaining + 1 = p.eng.remaining ∧
      (t.busOwner = some j ∨ t.busOwner = none ∧ m.eng.remaining = 0) := by
  have he := h.engines j p hp
  cases hs with
  | acquire hph ho => simp [hb] at ho
  | select hph =>
    refine ⟨_, getElem_set_self hp, ?_, .inl hb⟩
    simp [Engine.remaining, hph, he.idx_start (.inr hph)]
  | exch hph => exact ⟨_, getElem_set_self hp, by simp [Engine.remaining, hph], .inl hb⟩
  | gap hph hi =>
    refine ⟨_, getElem_set_self hp, ?_, .inl hb⟩
    have hs := idx_succ hi
    by_cases h4 : p.eng.idx.toNat ≤ 4
    · simp only [setEng_eng, Engine.remaining, hph, if_pos h4, hs]
      omega
    · simp only [setEng_eng, Engine.remaining, hph, if_neg h4]
      omega
  | deselect hph => exact ⟨_, getElem_set_self hp, by simp [Engine.remaining, hph], .inl hb⟩
  | releaseRead hph op acc hop hrd hacc =>
    exact ⟨_, getElem_set_self hp, by simp [Engine.remaining, hph, Engine.released], .inr ⟨rfl, rfl⟩⟩
  | releaseWrite hph op hop hwr =>
    exact ⟨_, getElem_set_self hp, by simp [Engine.remaining, hph, Engine.released], .inr ⟨rfl, rfl⟩⟩

/-- On a live bus the owner of the bus always has a step to take. -/
theorem State.Live.owner_steps {s : State} {j : Nat} {p : Node} (h : s.Live) (hp : s.insts[j]? = some p)
    (hb : s.busOwner = some j) : ∃ t, tick j s = .next t ∧ Steps j p s t := by
  obtain ⟨t, ht⟩ := h.inv.tick_next hp
  obtain ⟨q, hq, ⟨hw, -⟩ | hs⟩ := tick_next ht <;> obtain rfl : p = q := Option.some.inj (hp.symm.trans hq)
  · have hown := (h.inv.owner_iff j p hp).mp hb
    cases hw with
    | idle hph => simp [hph, Phase.ownsBus] at hown
    | busOwned hph => simp [hph, Phase.ownsBus] at hown
    | noAnswer hph ha =>
      rw [canAnswer_eq_false_iff, show p.dev.answersLeft = none from h.transports j p hp] at ha
      cases ha
  · exact ⟨t, ht, hs⟩

/-- An instance that owns the bus is busy. -/
theorem State.Inv.busy_owner {s : State} {j : Nat} (h : s.Inv) (hb : s.busOwner = some j) : s.busyAt j = true := by
  have hp := List.getElem?_eq_getElem (h.owner_present j hb)
  refine busyAt_iff.mpr ⟨_, hp, fun hi => ?_⟩
  have hown := (h.owner_iff j _ hp).mp hb
  simp [hi, Phase.ownsBus] at hown

/-- On a live bus whose next move is held, the owner of the bus runs to the end of its transaction, which frees the bus. -/
theorem owner_runs : ∀ (r : Nat) {s : State} {j k : Nat} {p : Node}, s.Live → s.HeldBy k → s.busyAt k = true →
    s.busOwner = some j → s.insts[j]? = some p → p.eng.remaining = r →
    ∃ t, steps r s = .next t ∧ ticks j r s = .next t ∧ t.busOwner = none
  | 0, s, j, k, p, hl, hh, hbusy, hb, hp, hr => by
    obtain ⟨t, ht, hs⟩ := hl.owner_steps hp hb
    obtain ⟨m, -, hm, -⟩ := hl.inv.owner_step hp hb hs
    omega
  | r + 1, s, j, k, p, hl, hh, hbusy, hb, hp, hr => by
    obtain ⟨u, hu, hs⟩ := hl.owner_steps hp hb
    obtain ⟨m, hm, hrem, hown⟩ := hl.inv.owner_step hp hb hs
    have hstep : step s = .next u := by rw [hh.step hbusy, advance_of_owner hb, hu]
    rw [steps, hstep, andThen_of_next, ticks_succ_of_next hu]
    rcases hown with hown | ⟨hfree, hzero⟩
    · have hbusy' : u.busyAt k = true := by
        by_cases hj : j = k
        · exact hj ▸ (hl.after_tick hu).inv.busy_owner hown
        · exact (passes_tick hj hu).busy.trans hbusy
      exact owner_runs r (hl.after_tick hu) (hh.congr (tick_agenda_port hu).1) hbusy' hown hm (by omega)
    · obtain rfl : r = 0 := by omega
      exact ⟨u, rfl, rfl, hfree⟩

/-- So does an instance that takes the free bus. -/
theorem taker_runs {s : State} {j k : Nat} {p : Node} (hl : s.Live) (hh : s.HeldBy k) (hbusy : s.busyAt k = true)
    (hb : s.busOwner = none) (hp : s.insts[j]? = some p) (ha : p.eng.phase = .acquire) :
    ∃ u t, tick j s = .next u ∧ steps 15 u = .next t ∧ ticks j 16 s = .next t ∧ t.busOwner = none := by
  have hu := tick_of_steps hp (.acquire ha hb)
  obtain ⟨t, hsteps, hticks, hfree⟩ := owner_runs 15 (k := k) (hl.after_tick hu) (hh.congr (tick_agenda_port hu).1)
    (by
      by_cases hj : j = k
      · exact hj ▸ (hl.after_tick hu).inv.busy_owner rfl
      · exact (passes_tick hj hu).busy.trans hbusy)
    rfl (getElem_set_self hp) rfl
  exact ⟨_, t, hu, hsteps, (ticks_succ_of_next hu).trans hticks, hfree⟩

/-! ### The instance that waits comes to take the bus -/

theorem steps_one_eq (s : State) : steps 1 s = step s := by
  rw [steps]
  cases step s <;> rfl

/-- The bus from `s`, where instance `k` waits, to `u`, where it is free and instance `k` takes it in the next step. -/
structure State.Comes (k d : Nat) (s u : State) : Prop where
  passes : s.Passes k d u
  live : u.Live
  bus_free : u.busOwner = none

theorem State.Comes.after {k d d' : Nat} {s v u : State} (hv : s.Passes k d v) (h : v.Comes k d' u) : s.Comes k (d' + d) u :=
  ⟨hv.trans h.passes, h.live, h.bus_free⟩

/-- More than one instance waits only where there is more than one. -/
theorem two_of_waiters {s : State} {a b : Nat} {l : List Nat} (h : s.waiters = a :: b :: l) : 1 < s.insts.length := by
  have hlen : s.waiters.length ≤ s.insts.length := by
    simpa [State.waiters] using List.length_filter_le s.waits (List.range s.insts.length)
  rw [h, List.length_cons, List.length_cons] at hlen
  omega

/-- What a choice of the arbiter comes to on a free bus for which several wait: instance `k` takes it, another instance does and
runs to the end of its transaction, or nobody. -/
theorem step_of_choice {s : State} {k : Nat} {n : Node} {a b : Nat} {l : List Nat} (hl : s.Live) (hh : s.HeldBy k)
    (hn : s.insts[k]? = some n) (ha : n.eng.phase = .acquire) (hb : s.busOwner = none) (hw : s.waiters = a :: b :: l) :
    s.choice 0 = k ∧ step s = tick k s.afterChoice ∨
    s.choice 0 ≠ k ∧ ∃ c v, steps c s = .next v ∧ s.Comes k 1 v := by
  have hlive : s.afterChoice.Live := movesKeep_live.choice s hl
  have hpass := passes_afterChoice k s
  have hfree : s.afterChoice.busOwner = none := (afterChoice_busOwner s).trans hb
  have hbusy : s.busyAt k = true := busyAt_iff.mpr ⟨n, hn, by simp [ha]⟩
  have hadv : step s = match s.waits (s.choice 0) with
      | true => tick (s.choice 0) s.afterChoice
      | false => .next s.afterChoice := by
    rw [hh.step hbusy]
    simp only [advance, State.turn, hb, hw]
    cases s.waits (s.choice 0) <;> rfl
  by_cases hk : s.choice 0 = k
  · refine .inl ⟨hk, ?_⟩
    rw [hadv, hk, waits_iff.mpr ⟨n, hn, ha⟩]
  refine .inr ⟨hk, ?_⟩
  cases hwait : s.waits (s.choice 0) with
  | false =>
    rw [hwait] at hadv
    exact ⟨1, _, steps_one hadv, hpass, hlive, hfree⟩
  | true =>
    rw [hwait] at hadv
    obtain ⟨p, hp, hpa⟩ := waits_iff.mp hwait
    obtain ⟨u, v, hu, hsteps, hticks, hvb⟩ := taker_runs hlive (hh.congr hpass.agenda) (hpass.busy.trans hbusy) hfree
      (by rwa [afterChoice_insts]) hpa
    refine ⟨15 + 1, v, ?_, hpass.trans (passes_ticks hk hticks), hlive.after_ticks hticks, hvb⟩
    rw [steps, hadv, hu, andThen_of_next, hsteps]

/-- R154: an instance that waits for a free bus takes it at the latest when the arbiter chooses it, after `i` other choices. -/
theorem comes_of_free (i : Nat) {s : State} {k : Nat} {n : Node} (hl : s.Live) (hh : s.HeldBy k) (hn : s.insts[k]? = some n)
    (ha : n.eng.phase = .acquire) (hb : s.busOwner = none) (hc : 1 < s.insts.length → s.choice i = k) :
    ∃ c u d, steps (c + 1) s = tick k u ∧ d ≤ i + 1 ∧ s.Comes k d u := by
  have hk : k ∈ s.waiters := mem_waiters.mpr (waits_iff.mpr ⟨n, hn, ha⟩)
  match hw : s.waiters with
  | [] => simp [hw] at hk
  | [j] =>
    obtain rfl : k = j := by simpa [hw] using hk
    refine ⟨0, s, 0, ?_, Nat.zero_le _, .refl k s, hl, hb⟩
    rw [steps_one_eq, hh.step (busyAt_iff.mpr ⟨n, hn, by simp [ha]⟩)]
    simp only [advance, State.turn, hb, hw]
  | a :: b :: l =>
    have hi := hc (two_of_waiters hw)
    rcases step_of_choice hl hh hn ha hb hw with ⟨-, hstep⟩ | ⟨h0, c, v, hv, hcomes⟩
    · exact ⟨0, _, 1, (steps_one_eq s).trans hstep, by omega, passes_afterChoice k s, movesKeep_live.choice s hl,
        (afterChoice_busOwner s).trans hb⟩
    · obtain ⟨i, rfl⟩ := Nat.exists_eq_succ_of_ne_zero fun hz => h0 (hz ▸ hi)
      have hpass := hcomes.passes
      obtain ⟨c', u, d, hu, hd, hcomes'⟩ := comes_of_free i hcomes.live (hh.congr hpass.agenda) (hpass.here.trans hn) ha
        hcomes.bus_free fun _ => (hpass.choice i).trans hi
      exact ⟨c + c', u, d + 1, by rw [Nat.add_assoc, steps_add hv, hu], by omega, .after hpass hcomes'⟩
termination_by i

/-- R73, R154: an instance that waits for the bus comes to take it, whoever owns it or waits for it. -/
theorem comes_to_take {s : State} {k i : Nat} {n : Node} (hl : s.Live) (hh : s.HeldBy k) (hn : s.insts[k]? = some n)
    (ha : n.eng.phase = .acquire) (hc : 1 < s.insts.length → s.choice i = k) :
    ∃ c u d, steps (c + 1) s = tick k u ∧ d ≤ i + 1 ∧ s.Comes k d u := by
  cases hb : s.busOwner with
  | none => exact comes_of_free i hl hh hn ha hb hc
  | some j =>
    have hp := List.getElem?_eq_getElem (hl.inv.owner_present j hb)
    have hj : j ≠ k := by
      rintro rfl
      have hown := (hl.inv.owner_iff j n hn).mp hb
      simp [ha, Phase.ownsBus] at hown
    obtain ⟨v, hsteps, hticks, hfree⟩ := owner_runs _ hl hh (busyAt_iff.mpr ⟨n, hn, by simp [ha]⟩) hb hp rfl
    have hpass := passes_ticks hj hticks
    obtain ⟨c, u, d, hu, hd, hcomes⟩ := comes_of_free i (hl.after_ticks hticks) (hh.congr hpass.agenda)
      (hpass.here.trans hn) ha hfree fun hlen => (hpass.choice i).trans (hc (hpass.length ▸ hlen))
    exact ⟨_, u, d, by rw [Nat.add_assoc, steps_add hsteps, hu], hd, .after hpass hcomes⟩

/-! ### An accepted command on a contended bus -/

/-- The bus from `s`, where command `i` has been accepted at instance `k`, in which there was `n`, to `t`, where it has run to
its end: first come events of other instances alone, while the arbiter makes `d` choices, and then the transaction. -/
structure State.Transacts (k : Nat) (i : Instr) (n : Node) (d : Nat) (s t : State) (m : Node) : Prop where
  live : t.Live
  length : t.insts.length = s.insts.length
  choice : ∀ x, t.choice x = s.choice (x + d)
  waited : ∃ u, s.Passes k d u ∧ (u.putNode k n).Completes i n t m

/-- Before its accept step an instance was as if never put back. -/
theorem accept_putNode {u : State} {k : Nat} {n : Node} {o : Order} (h : u.insts[k]? = some (n.accepted o)) :
    (u.putNode k n).accept k n o = u := by
  obtain ⟨hk, hn⟩ := List.getElem?_eq_some_iff.mp h
  have hset : u.insts.set k (n.accepted o) = u.insts := by rw [← hn, List.set_getElem_self]
  calc (u.putNode k n).accept k n o = { u with insts := (u.insts.set k n).set k (n.accepted o) } := rfl
    _ = u := by rw [List.set_set, hset]

theorem ticks_choice {k m : Nat} {s t : State} (h : ticks k m s = .next t) (x : Nat) : t.choice x = s.choice x :=
  ticks_keep (P := fun u => u.choice x = s.choice x) (fun _ _ hu hv => (tick_choice hv x).trans hu) m rfl h

/-- R89, R154: an accepted command runs to its end, whoever owns the bus or waits for it. -/
theorem accepted_transacts {s : State} {k j : Nat} {n : Node} {i : Instr} (hl : s.Live) (hh : s.HeldBy k) (hport : s.port = k)
    (hn : s.insts[k]? = some (n.accepted (commandOrder i))) (hi : n.eng.phase = .idle) (hwf : i.wellFormed = true)
    (hc : 1 < s.insts.length → s.choice j = k) :
    ∃ c d t m, steps c s = .next t ∧ d ≤ j + 1 ∧ s.Transacts k i n d t m := by
  obtain ⟨c, u, d, hu, hd, hcomes⟩ := comes_to_take hl hh hn rfl hc
  have hpass := hcomes.passes
  have hun : u.insts[k]? = some (n.accepted (commandOrder i)) := hpass.here.trans hn
  have hup : u.port = k := hpass.port.trans hport
  have htr : n.dev.TransportAnswers := hl.transports k (n.accepted (commandOrder i)) hn
  -- the bus before the accept step
  have hready : (u.putNode k n).Ready n :=
    ⟨by rw [show (u.putNode k n).port = k from hup]; exact getElem_set_self hun, hi, hcomes.bus_free,
      answersSix_of_transport htr⟩
  have haccept : (u.putNode k n).accept k n (commandOrder i) = u := accept_putNode hun
  obtain ⟨t, m, hexec, hcompletes⟩ := exec_completes hready htr hwf
  have hticks : ticks k 16 u = .next t := by
    rw [exec_eq_callCommand, callCommand_accepted hready.here hi ((cause_eq_none_iff i).mpr hwf)] at hexec
    rwa [show (u.putNode k n).port = k from hup, haccept] at hexec
  obtain ⟨v, t', hv, hsteps, hticks', -⟩ := taker_runs (j := k) hcomes.live (hh.congr hpass.agenda)
    (busyAt_iff.mpr ⟨_, hun, by simp [Node.accepted]⟩) hcomes.bus_free hun rfl
  obtain rfl : t = t' := Host.Outcome.next.inj (hticks.symm.trans hticks')
  refine ⟨c + 1 + 15, d, t, m, by rw [steps_add (hu.trans hv), hsteps], hd, hcomes.live.after_ticks hticks,
    (ticks_touches hticks).length.trans hpass.length, fun x => ?_, u, hpass, hcompletes⟩
  rw [ticks_choice hticks, hpass.choice]

/-- The arbiter's first choice of an instance, and its later ones as they stand after the choices up to that one. -/
theorem State.ArbiterChooses.next {s : State} {k r : Nat} (h : s.ArbiterChooses k (r + 1)) :
    ∃ j, s.choice j = k ∧
      ∀ (t : State) (d : Nat), d ≤ j + 1 → (∀ x, t.choice x = s.choice (x + d)) → t.ArbiterChooses k r := by
  obtain ⟨places, hlen, hpair, hplaces⟩ := h
  obtain ⟨j, places, rfl⟩ := List.exists_cons_of_length_eq_add_one hlen
  obtain ⟨hlater, hpair⟩ := List.pairwise_cons.mp hpair
  refine ⟨j, hplaces j List.mem_cons_self, fun t d hd ht => ⟨places.map (· - d), by simpa using hlen, ?_, fun x hx => ?_⟩⟩
  · refine List.pairwise_map.mpr (hpair.imp_of_mem fun {a b} ha hb hab => ?_)
    have := hlater a ha
    omega
  · obtain ⟨i, hi, rfl⟩ := List.mem_map.mp hx
    have := hlater i hi
    rw [ht, Nat.sub_add_cancel (by omega), hplaces i (List.mem_cons_of_mem j hi)]

/-- The same on a bus where the premise is needed only if another instance is there. -/
theorem arbiter_next {s : State} {k r : Nat} (h : 1 < s.insts.length → s.ArbiterChooses k (r + 1)) :
    ∃ j, (1 < s.insts.length → s.choice j = k) ∧
      ∀ (t : State) (d : Nat), d ≤ j + 1 → (∀ x, t.choice x = s.choice (x + d)) → t.insts.length = s.insts.length →
        1 < t.insts.length → t.ArbiterChooses k r := by
  by_cases hlen : 1 < s.insts.length
  · obtain ⟨j, hj, hnext⟩ := (h hlen).next
    exact ⟨j, fun _ => hj, fun t d hd ht _ _ => hnext t d hd ht⟩
  · exact ⟨0, fun h => absurd h hlen, fun t d _ _ hl h => absurd (hl ▸ h) hlen⟩

/-! ### A run of commands submitted one after the other -/

/-- The events of an instance among those of a transaction that came after it had waited. -/
theorem State.Transacts.events {k d : Nat} {i : Instr} {n m : Node} {s t : State} (h : s.Transacts k i n d t m)
    (hport : s.port = k) : t.trace.countP (fun e => e.1 == k) = s.trace.countP (fun e => e.1 == k) + 16 := by
  obtain ⟨u, hpass, hc⟩ := h.waited
  obtain ⟨es, hes, htrace⟩ := hpass.trace
  have hothers : es.countP (fun e => e.1 == k) = 0 := by
    rw [List.countP_eq_zero]
    exact fun e he => by simpa using hes e he
  have hown : ∀ l : List Event, (l.map fun e => (k, e)).countP (fun e => e.1 == k) = l.length := by
    intro l
    rw [List.countP_map, List.countP_eq_length.mpr (by simp)]
  rw [hc.trace, show (u.putNode k n).trace = u.trace from rfl, show (u.putNode k n).port = k from hpass.port.trans hport,
    htrace, List.countP_append, List.countP_append, hothers, hown, length_commandEvents]

/-- A list of submits is held while its instance is busy. -/
theorem heldBy_of_submissions {s : State} {k : Nat} {l : List Instr} (h : s.agenda = submissions k l) : s.HeldBy k := by
  cases l with
  | nil => exact .inl h
  | cons i l => exact .inr ⟨.submit (encode i), submissions k l, h, rfl⟩

/-- R71, R89, R154: a run of submitted commands ends, each once the one before it has ended. -/
theorem run_of_submissions : ∀ (l : List Instr) {s : State} {k : Nat} {n : Node}, s.Live → s.insts[k]? = some n →
    n.eng.phase = .idle → (1 < s.insts.length → s.ArbiterChooses k (l.countP Instr.wellFormed)) →
    s.agenda = submissions k l →
    ∃ (c : Nat) (t : State) (m : Node), steps c s = .next t ∧ t.insts[k]? = some m ∧ t.agenda = [] ∧ m.eng.phase = .idle ∧
      (n.Answered ∨ l ≠ [] → m.Answered) ∧
      t.trace.countP (fun e => e.1 == k) = s.trace.countP (fun e => e.1 == k) + 16 * l.countP Instr.wellFormed ∧
      m.eng.err = (n.eng.err || l.any fun i => !i.wellFormed)
  | [], s, k, n, _, hn, hi, _, ha => ⟨0, s, n, rfl, hn, ha, hi, by simp, by simp, by simp⟩
  | i :: l, s, k, n, hl, hn, hi, hc, ha => by
    have hb : (s.begin ⟨k, .submit (encode i)⟩ (submissions k l)).Live := movesKeep_live.begin _ _ _ hl
    have hlen : ∀ m : Node, (s.insts.set k m).length = s.insts.length := fun m => List.length_set
    cases hwf : i.wellFormed with
    | false =>
      rw [List.countP_cons_of_neg (by simp [hwf])] at hc ⊢
      have hstep := step_of_rejected (.inl rfl) ha hn hi (decode_encode i) (cause_ne_none_of_rejected hwf)
      obtain ⟨c, t, m, ht, hm, hagenda, hidle, hans, htrace, herr⟩ := run_of_submissions l
        (movesKeep_live.reject _ k n (commandOrder i).cause hb hn hi) (getElem_set_self hn) hi (fun h => hc (hlen _ ▸ h)) rfl
      refine ⟨1 + c, t, m, (steps_add (steps_one hstep)).trans ht, hm, hagenda, hidle, fun _ => hans (.inl (.inl rfl)),
        htrace, ?_⟩
      simp [herr, hwf]
    | true =>
      rw [List.countP_cons_of_pos hwf] at hc ⊢
      have hstep := (step_of_submit ha hn hi (decode_encode i)).trans
        (submit_accepted (s := s.begin ⟨k, .submit (encode i)⟩ (submissions k l)) hn hi ((cause_eq_none_iff i).mpr hwf))
      obtain ⟨j, hj, hnext⟩ := arbiter_next hc
      obtain ⟨c, d, u, p, hu, hd, htr⟩ := accepted_transacts (movesKeep_live.accept _ k n i hb hn hi)
        (heldBy_of_submissions (l := l) rfl) rfl (getElem_set_self hn) hi hwf (fun h => hj (hlen _ ▸ h))
      obtain ⟨w, hpass, hcomp⟩ := htr.waited
      have hlenu : u.insts.length = s.insts.length := htr.length.trans (hlen _)
      have hup : u.port = k := hcomp.port.trans hpass.port
      obtain ⟨c', t, m, ht, hm, hagenda, hidle, hans, htrace, herr⟩ := run_of_submissions l htr.live
        (hup ▸ hcomp.ready.here) hcomp.ready.idle (hnext u d hd htr.choice hlenu) (hcomp.agenda.trans hpass.agenda)
      refine ⟨1 + (c + c'), t, m, ?_, hm, hagenda, hidle, fun _ => hans (.inl (.inr ⟨hcomp.verdict, by rw [hcomp.eng]; rfl⟩)),
        ?_, ?_⟩
      · rw [steps_add (steps_one hstep), steps_add hu, ht]
      · have hown : u.trace.countP (fun e => e.1 == k) = s.trace.countP (fun e => e.1 == k) + 16 := htr.events rfl
        rw [htrace, hown]
        omega
      · simp [herr, hcomp.eng, Engine.completed, hwf]

/-- Settles O58: a called run by `run_of_calls`, a submitted one by `run_of_submissions`. -/
theorem aRunOfCommandsEnds : Obligations.ARunOfCommandsEnds := by
  constructor
  · intro l s n rest hr htr ha
    constructor
    · intro hne
      obtain ⟨i, l, rfl⟩ := List.exists_cons_of_ne_nil hne
      exact runEnded_of_submit (m := ⟨s.port, .call (encode i)⟩) (by rw [ha]; exact List.mem_cons_self) rfl
    · obtain ⟨t, m, ht, hr', hport, hrest, hans, htrace, herr⟩ := run_of_calls l hr htr ha
      have hm : t.insts[s.port]? = some m := hport ▸ hr'.here
      exact ⟨t, m, ht, hm, hrest, hr'.bus_free, hr'.idle, fun hne hnone =>
        runEnded_of (hrest ▸ hnone) hm hr'.idle (hans (.inr hne)), htrace, herr⟩
  · intro l s k n hinv hn hi htr hc ha
    obtain ⟨c, t, m, ht, hm, hagenda, hidle, hans, htrace, herr⟩ := run_of_submissions l ⟨hinv, htr⟩ hn hi hc ha
    exact ⟨c, t, m, ht, hm, hagenda, hidle, fun hne =>
      runEnded_of (by simp [hagenda]) hm hidle (hans (.inr hne)), htrace, herr⟩

/-! ### A run of commands with the host's copies on a contended bus -/

/-- An oracle's bytes are draws, six to each command of a list. -/
theorem State.Fetched.draws {l : List Fetch} {rxs : List Received} {s t : State} {n m : Node} (h : s.Fetched (l.zip rxs) n t m)
    (hlen : rxs.length = l.length) (hd : n.dev.reference = false) {q : Nat} {rx : Received} (hq : rxs[q]? = some rx)
    (i : Fin 6) : rx[i] = n.dev.oracleByte s.draws (6 * q + i.val) := by
  obtain ⟨hlt, -⟩ := List.getElem?_eq_some_iff.mp hq
  have hpair : (l.zip rxs)[q]? = some (l[q]'(hlen ▸ hlt), rx) :=
    List.getElem?_zip_eq_some.mpr ⟨List.getElem?_eq_getElem _, hq⟩
  exact (h.oracle hd).2 q _ hpair i

/-- A call of an accepted command on a bus that another instance owns: the command is accepted, and waits. -/
theorem step_call_waits {s : State} {k j : Nat} {n : Node} {i : Instr} {rest : List Move} (hn : s.insts[k]? = some n)
    (hi : n.eng.phase = .idle) (hb : s.busOwner = some j) (hwf : i.wellFormed = true)
    (ha : s.agenda = ⟨k, .call (encode i)⟩ :: rest) :
    step s = .next ((s.begin ⟨k, .call (encode i)⟩ rest).accept k n (commandOrder i)) := by
  have hn' : (s.begin ⟨k, .call (encode i)⟩ rest).insts[(s.begin ⟨k, .call (encode i)⟩ rest).port]? = some n := hn
  rw [step_of_call ha hn hi (decode_encode i), exec_eq_callCommand,
    callCommand_accepted hn' hi ((cause_eq_none_iff i).mpr hwf)]
  have hm : ((s.begin ⟨k, .call (encode i)⟩ rest).accept k n (commandOrder i)).insts[k]? =
    some (n.accepted (commandOrder i)) := getElem_set_self hn
  exact ticks_of_waits hm (.busOwned rfl j hb) _

/-- R82, R95, R154: a list of accepted commands, the first a read, at an idle instance of a bus that another owns: events of
others alone come first. -/
theorem run_of_fetches_contended {f : Fetch} {l : List Fetch} {s : State} {n : Node} {rest : List Move} {j : Nat}
    (hl : s.Live) (hn : s.insts[s.port]? = some n) (hi : n.eng.phase = .idle) (hb : s.busOwner = some j)
    (hc : 1 < s.insts.length → s.ArbiterChooses s.port 1) (hread : f.isRead = true)
    (hwf : ∀ g ∈ f :: l, g.cmd.wellFormed = true) (ha : s.agenda = fetchMoves s.port (f :: l) ++ rest) :
    ∃ (c : Nat) (rxs : List Received) (es : List (Nat × Event)) (u t : State) (m : Node), rxs.length = l.length + 1 ∧
      steps c s = .next t ∧ t.agenda = rest ∧ (∀ e ∈ es, e.1 ≠ s.port) ∧ u.port = s.port ∧ u.trace = s.trace ++ es ∧
      u.Fetched ((f :: l).zip rxs) n t m := by
  rw [fetchMoves_cons, List.cons_append, List.append_assoc] at ha
  -- the first command is accepted, and its host waits for its result
  have hstep := step_call_waits hn hi hb (hwf f List.mem_cons_self) ha
  have hlive := movesKeep_live.accept _ s.port n f.cmd
    (movesKeep_live.begin s ⟨s.port, .call (encode f.cmd)⟩ (copyMoves s.port f ++ (fetchMoves s.port l ++ rest)) hl) hn hi
  have hheld : ((s.begin ⟨s.port, .call (encode f.cmd)⟩ (copyMoves s.port f ++ (fetchMoves s.port l ++ rest))).accept s.port n
      (commandOrder f.cmd)).HeldBy s.port :=
    .inr ⟨.collect, fetchMoves s.port l ++ rest, by simp [State.accept, copyMoves, hread], rfl⟩
  -- it runs to its end
  obtain ⟨i, hchoice, -⟩ := arbiter_next hc
  obtain ⟨c, d, t, m, ht, -, htr⟩ := accepted_transacts hlive hheld rfl (getElem_set_self hn) hi (hwf f List.mem_cons_self)
    (fun h => hchoice (by simpa [State.accept] using h))
  obtain ⟨u, hpass, hcomp⟩ := htr.waited
  obtain ⟨es, hes, htrace⟩ := hpass.trace
  have hport : (u.putNode s.port n).port = s.port := hpass.port
  -- its copy, and the rest of the list
  obtain ⟨v, p, hv, hvrest, hfetched⟩ := hcomp.fetched (rest := fetchMoves s.port l ++ rest)
    (by rw [hport]; exact hcomp.agenda.trans hpass.agenda)
  obtain ⟨rxs, w, q, hlen, hw, hrest, hq⟩ := run_of_fetches l hfetched.ready hfetched.transport
    (fun g hg => hwf g (List.mem_cons_of_mem f hg)) (by rw [hfetched.port, hport]; exact hvrest)
  have hsteps := (steps_add (steps_one hstep)).trans ((steps_add ht).trans ((steps_add hv).trans hw))
  exact ⟨_, _ :: rxs, es, u.putNode s.port n, w, q, by simp [hlen], hsteps, hrest, hes, hport, htrace, hfetched.trans hq⟩

/-- Settles O59: by `run_of_fetches` at a ready instance, and by `run_of_fetches_contended` where another owns the bus. -/
theorem theHostCopiesEveryResult : Obligations.TheHostCopiesEveryResult := by
  refine ⟨fun s n kind a rest hr htr hwf ha => ?_, fun l s n rest hr htr hwf ha => ?_,
    fun f l s n rest hinv hn hi htr hc hread hwf ha => ?_⟩
  · obtain ⟨rxs, t, m, hlen, ht, hrest, hf⟩ := run_of_fetches (readPair kind a) hr htr
      (readPair_wellFormed ((inRanges_iff a).mp hwf)) ha
    obtain ⟨rx, ry, rfl⟩ := List.length_eq_two.mp hlen
    refine ⟨rx, ry, t, m, ht, hf.port ▸ hf.ready.here, hrest, hf.replies, hf.trace, fun hd i => ⟨?_, ?_⟩⟩
    · simpa using hf.draws hlen hd (q := 0) rfl i
    · exact hf.draws hlen hd (q := 1) rfl i
  · obtain ⟨rxs, t, m, hlen, ht, hrest, hf⟩ := run_of_fetches l hr htr hwf ha
    exact ⟨rxs, t, m, hlen, ht, hf.port ▸ hf.ready.here, hrest, hf.err, hf.replies, hf.trace, fun hd q rx hq =>
      hf.draws hlen hd hq⟩
  · cases hb : s.busOwner with
    | none =>
      obtain ⟨rxs, t, m, hlen, ht, hrest, hf⟩ := run_of_fetches (f :: l)
        ⟨hn, hi, hb, answersSix_of_transport (htr _ n hn)⟩ (htr _ n hn) hwf ha
      exact ⟨_, rxs, [], t, m, hlen, ht, hf.port ▸ hf.ready.here, hrest, hf.ready.idle, hf.ready.bus_free, hf.replies, by simp,
        by simpa using hf.trace⟩
    | some j =>
      obtain ⟨c, rxs, es, u, t, m, hlen, ht, hrest, hes, hport, htrace, hf⟩ :=
        run_of_fetches_contended ⟨hinv, htr⟩ hn hi hb hc hread hwf ha
      exact ⟨c, rxs, es, t, m, hlen, ht, (hf.port.trans hport) ▸ hf.ready.here, hrest, hf.ready.idle, hf.ready.bus_free,
        hf.replies, hes, by rw [hf.trace, htrace, hport]⟩

end Sys2Proof.Machine
end
